-- ==== Sys2Proof/Word.lean ====
section
/-!
DEFINITION. The word types of LDD-CORE.
-/
namespace Sys2Proof

/-- One input sample, one byte of the block buffer or of a queue (20_memory.md R62, R63). -/
abbrev Byte := BitVec 8

/-- One micro-operation word, and one host register (30_encoding.md R90, 10_state.md R27). -/
abbrev Word := BitVec 32

/-- One sample value, coefficient or scalar constant: the 64 bits of an IEEE 754 binary64 datum
(00_scope.md R9). Its operations are in Sys2Proof.Machine.Fp. -/
abbrev Num64 := BitVec 64

end Sys2Proof
end

