-- ==== Sys2Proof/Syntax.lean ====
section
/-!
DEFINITION. The 24 micro-operations of LDD-CORE/1, one constructor per row of spec/opcode_table.json
(30_encoding.md R92, R96).
-/
namespace Sys2Proof

/-- A real vector register V0 to V7 (30_encoding.md R93). -/
abbrev VReg := Fin 8

/-- A complex vector register Z0 or Z1 (30_encoding.md R93). -/
abbrev ZReg := Fin 2

/-- A filter run-state number, 0 to 15 (30_encoding.md R93). -/
abbrev RunState := Fin 16

/-- The one-bit selector of SCLHZ and WRAPC: 0 the full carrier scale, 1 one quarter of it
(30_encoding.md R95). -/
inductive Scale where
  | full
  | quarter
  deriving DecidableEq, Repr

/-- The one-bit selector of SUBCF: 0 the left channel, 1 the right (30_encoding.md R95). -/
inductive Channel where
  | left
  | right
  deriving DecidableEq, Repr

/-- A micro-operation with its operands, in the operand order of 30_encoding.md R99. Immediates, the
multiplier `k` and the slot field are the natural numbers their bits spell (R95). WellFormed.lean says
which of them fit their field. -/
inductive Instr where
  | endProg
  | skipz (cbit : Fin 8)
  | adv (imm : Nat)
  | ldblk (rd : VReg)
  | emit16 (rs : VReg)
  | emitf (rs rt : VReg)
  | firB (rd rs : VReg) (slot : Nat)
  | firS (rd rs : VReg) (t : RunState) (slot : Nat)
  | iirB (rd rs : VReg) (slot : Nat)
  | iirS (rd rs : VReg) (t : RunState) (slot : Nat)
  | trimh (rd rs : VReg) (imm : Nat)
  | trimhk (rd rs : VReg) (k : Nat) (slot : Nat)
  | decim (rd rs : VReg) (imm : Nat)
  | anlt (rd : ZReg) (rs : VReg)
  | chop (rd rs : ZReg) (imm : Nat)
  | angle (rd : VReg) (rs : ZReg)
  | diff (rd rs : VReg)
  | fix0 (rd rs : VReg)
  | unwrap (rd rs : VReg)
  | sclhz (rd rs : VReg) (sel : Scale)
  | wrapc (rd rs : VReg) (sel : Scale)
  | subcf (rd rs : VReg) (sel : Channel)
  | clipdev (rd rs : VReg)
  | iremap (rd rs : VReg)
  deriving DecidableEq, Repr

end Sys2Proof
end

