-- ==== Sys2Proof/WellFormed.lean ====
section
/-!
DEFINITION. Which instructions fit the fields of a 32-bit word (30_encoding.md R91, R92). Register, run-state
and bit numbers fit by their type; the naturals are checked here. A value that fits its field and is illegal
by value (R102: a zero count, a reserved slot field) is well formed, since it has an encoding.
-/
namespace Sys2Proof

/-- `imm` is 12 bits (30_encoding.md R91). -/
def immFits (imm : Nat) : Bool := decide (imm < 4096)

/-- `slot` is `imm[4:0]` (30_encoding.md R91). -/
def slotFits (slot : Nat) : Bool := decide (slot < 32)

/-- `k` is `imm[11:5]` (30_encoding.md R91). -/
def kFits (k : Nat) : Bool := decide (k < 128)

/-- The instruction has an encoding: every natural operand fits its field. -/
def Instr.wellFormed : Instr → Bool
  | .endProg => true
  | .skipz _ => true
  | .adv imm => immFits imm
  | .ldblk _ => true
  | .emit16 _ => true
  | .emitf _ _ => true
  | .firB _ _ slot => slotFits slot
  | .firS _ _ _ slot => slotFits slot
  | .iirB _ _ slot => slotFits slot
  | .iirS _ _ _ slot => slotFits slot
  | .trimh _ _ imm => immFits imm
  | .trimhk _ _ k slot => kFits k && slotFits slot
  | .decim _ _ imm => immFits imm
  | .anlt _ _ => true
  | .chop _ _ imm => immFits imm
  | .angle _ _ => true
  | .diff _ _ => true
  | .fix0 _ _ => true
  | .unwrap _ _ => true
  | .sclhz _ _ _ => true
  | .wrapc _ _ _ => true
  | .subcf _ _ _ => true
  | .clipdev _ _ => true
  | .iremap _ _ => true

end Sys2Proof
end

