-- ==== Sys2Proof/Decode.lean ====
section
/-!
DEFINITION. The decoder (30_encoding.md R101) and, after it, the encoder, both over the field layout of R91.
-/
namespace Sys2Proof

/-! ## Fields (30_encoding.md R91) -/

/-- `w[lo+n-1 : lo]`, the unsigned integer of `n` bits from bit `lo` up (00_scope.md R14). -/
def fieldOf (w : Word) (lo n : Nat) : Nat := w.toNat / 2 ^ lo % 2 ^ n

def opField (w : Word) : Nat := fieldOf w 24 8
def rdField (w : Word) : Nat := fieldOf w 20 4
def rsField (w : Word) : Nat := fieldOf w 16 4
def rtField (w : Word) : Nat := fieldOf w 12 4
def immField (w : Word) : Nat := fieldOf w 0 12
def slotField (w : Word) : Nat := fieldOf w 0 5
def kField (w : Word) : Nat := fieldOf w 5 7

/-! ## Decoding -/

/-- Why a word is illegal (30_encoding.md R97). All three execute alike: ILLEGAL_UOP. -/
inductive IllegalWord where
  /-- the `op` field is none of the listed ones -/
  | unlistedOp
  /-- a listed `op` with a non-zero bit in a must-be-zero field -/
  | nonzeroField
  /-- a register number outside its class -/
  | registerClass
  deriving DecidableEq, Repr

/-- A field that names a real vector register: 0 to 7 (30_encoding.md R91, R93). -/
def asVReg (n : Nat) : Except IllegalWord VReg :=
  if h : n < 8 then .ok ⟨n, h⟩ else .error .registerClass

/-- A field that names a complex vector register: 0 or 1 (30_encoding.md R91, R93). -/
def asZReg (n : Nat) : Except IllegalWord ZReg :=
  if h : n < 2 then .ok ⟨n, h⟩ else .error .registerClass

/-- The run-state field, used whole (30_encoding.md R93). -/
def asRunState (n : Nat) : RunState := Fin.ofNat 16 n

/-- A field the format does not use must be zero (30_encoding.md R91). -/
def mustBeZero (n : Nat) : Except IllegalWord Unit :=
  if n = 0 then .ok () else .error .nonzeroField

/-- The one-bit carrier selector `imm[0]`, `imm[11:1]` zero (30_encoding.md R92, R95). -/
def asScale (n : Nat) : Except IllegalWord Scale :=
  match n with
  | 0 => .ok .full
  | 1 => .ok .quarter
  | _ => .error .nonzeroField

/-- The one-bit channel selector `imm[0]`, `imm[11:1]` zero (30_encoding.md R92, R95). -/
def asChannel (n : Nat) : Except IllegalWord Channel :=
  match n with
  | 0 => .ok .left
  | 1 => .ok .right
  | _ => .error .nonzeroField

/-- Format R: `rd` and `rs` real, the rest zero (30_encoding.md R92). -/
def decodeR (w : Word) (mk : VReg → VReg → Instr) : Except IllegalWord Instr := do
  let rd ← asVReg (rdField w)
  let rs ← asVReg (rsField w)
  mustBeZero (rtField w)
  mustBeZero (immField w)
  pure (mk rd rs)

/-- Format RI over real registers: `rt` zero, all of `imm` used (30_encoding.md R92). -/
def decodeRI (w : Word) (mk : VReg → VReg → Nat → Instr) : Except IllegalWord Instr := do
  let rd ← asVReg (rdField w)
  let rs ← asVReg (rsField w)
  mustBeZero (rtField w)
  pure (mk rd rs (immField w))

/-- Format RI with a carrier selector (30_encoding.md R92). -/
def decodeRScale (w : Word) (mk : VReg → VReg → Scale → Instr) : Except IllegalWord Instr := do
  let rd ← asVReg (rdField w)
  let rs ← asVReg (rsField w)
  mustBeZero (rtField w)
  let sel ← asScale (immField w)
  pure (mk rd rs sel)

/-- Format RF: `rt` and `imm[11:5]` zero, the slot field in `imm[4:0]` (30_encoding.md R92). -/
def decodeRF (w : Word) (mk : VReg → VReg → Nat → Instr) : Except IllegalWord Instr := do
  let rd ← asVReg (rdField w)
  let rs ← asVReg (rsField w)
  mustBeZero (rtField w)
  mustBeZero (kField w)
  pure (mk rd rs (slotField w))

/-- Format RFT: as RF with the run-state number in `rt` (30_encoding.md R92). -/
def decodeRFT (w : Word) (mk : VReg → VReg → RunState → Nat → Instr) : Except IllegalWord Instr := do
  let rd ← asVReg (rdField w)
  let rs ← asVReg (rsField w)
  mustBeZero (kField w)
  pure (mk rd rs (asRunState (rtField w)) (slotField w))

/-- The decoder: total, one row of 30_encoding.md R96 or the reason the word is illegal (R101, R97). It
looks at the word alone. -/
def decode (w : Word) : Except IllegalWord Instr :=
  match opField w with
  | 0x01 => do
    mustBeZero (rdField w)
    mustBeZero (rsField w)
    mustBeZero (rtField w)
    mustBeZero (immField w)
    pure .endProg
  | 0x02 => do
    mustBeZero (rdField w)
    mustBeZero (rsField w)
    mustBeZero (rtField w)
    mustBeZero (fieldOf w 3 9)
    pure (.skipz (Fin.ofNat 8 (fieldOf w 0 3)))
  | 0x03 => do
    mustBeZero (rdField w)
    mustBeZero (rsField w)
    mustBeZero (rtField w)
    pure (.adv (immField w))
  | 0x10 => do
    let rd ← asVReg (rdField w)
    mustBeZero (rsField w)
    mustBeZero (rtField w)
    mustBeZero (immField w)
    pure (.ldblk rd)
  | 0x11 => do
    mustBeZero (rdField w)
    let rs ← asVReg (rsField w)
    mustBeZero (rtField w)
    mustBeZero (immField w)
    pure (.emit16 rs)
  | 0x12 => do
    mustBeZero (rdField w)
    let rs ← asVReg (rsField w)
    let rt ← asVReg (rtField w)
    mustBeZero (immField w)
    pure (.emitf rs rt)
  | 0x20 => decodeRF w .firB
  | 0x21 => decodeRFT w .firS
  | 0x22 => decodeRF w .iirB
  | 0x23 => decodeRFT w .iirS
  | 0x30 => decodeRI w .trimh
  | 0x31 => do
    let rd ← asVReg (rdField w)
    let rs ← asVReg (rsField w)
    mustBeZero (rtField w)
    pure (.trimhk rd rs (kField w) (slotField w))
  | 0x32 => decodeRI w .decim
  | 0x40 => do
    let rd ← asZReg (rdField w)
    let rs ← asVReg (rsField w)
    mustBeZero (rtField w)
    mustBeZero (immField w)
    pure (.anlt rd rs)
  | 0x41 => do
    let rd ← asZReg (rdField w)
    let rs ← asZReg (rsField w)
    mustBeZero (rtField w)
    pure (.chop rd rs (immField w))
  | 0x42 => do
    let rd ← asVReg (rdField w)
    let rs ← asZReg (rsField w)
    mustBeZero (rtField w)
    mustBeZero (immField w)
    pure (.angle rd rs)
  | 0x43 => decodeR w .diff
  | 0x44 => decodeR w .fix0
  | 0x45 => decodeR w .unwrap
  | 0x46 => decodeRScale w .sclhz
  | 0x47 => decodeRScale w .wrapc
  | 0x50 => do
    let rd ← asVReg (rdField w)
    let rs ← asVReg (rsField w)
    mustBeZero (rtField w)
    let sel ← asChannel (immField w)
    pure (.subcf rd rs sel)
  | 0x51 => decodeR w .clipdev
  | 0x52 => decodeR w .iremap
  | _ => .error .unlistedOp

/-- The instruction the decoder reads from a row's bits, numbered as spec/opcode_table.json numbers them. A
micro-operation is one whole 32-bit word with no byte order (20_memory.md R67), so the word is the number. -/
def decodeTableWord (nbits w : Nat) : Option Instr :=
  match decode (BitVec.ofNat 32 (w % 2 ^ nbits)) with
  | .ok i => some i
  | .error _ => none

/-! ## Encoding -/

/-- A word from its five fields (30_encoding.md R91). -/
def wordOf (op rd rs rt imm : Nat) : Word :=
  BitVec.ofNat 32 (op * 2 ^ 24 + rd * 2 ^ 20 + rs * 2 ^ 16 + rt * 2 ^ 12 + imm)

/-- The selector bit of SCLHZ and WRAPC (30_encoding.md R95). -/
def Scale.bit : Scale → Nat
  | .full => 0
  | .quarter => 1

/-- The selector bit of SUBCF (30_encoding.md R95). -/
def Channel.bit : Channel → Nat
  | .left => 0
  | .right => 1

/-- The `op` field of an instruction's row (30_encoding.md R96). -/
def Instr.op : Instr → Nat
  | .endProg => 0x01
  | .skipz _ => 0x02
  | .adv _ => 0x03
  | .ldblk _ => 0x10
  | .emit16 _ => 0x11
  | .emitf _ _ => 0x12
  | .firB _ _ _ => 0x20
  | .firS _ _ _ _ => 0x21
  | .iirB _ _ _ => 0x22
  | .iirS _ _ _ _ => 0x23
  | .trimh _ _ _ => 0x30
  | .trimhk _ _ _ _ => 0x31
  | .decim _ _ _ => 0x32
  | .anlt _ _ => 0x40
  | .chop _ _ _ => 0x41
  | .angle _ _ => 0x42
  | .diff _ _ => 0x43
  | .fix0 _ _ => 0x44
  | .unwrap _ _ => 0x45
  | .sclhz _ _ _ => 0x46
  | .wrapc _ _ _ => 0x47
  | .subcf _ _ _ => 0x50
  | .clipdev _ _ => 0x51
  | .iremap _ _ => 0x52

/-- The word of a well-formed instruction (30_encoding.md R92, R96). -/
def encode (i : Instr) : Word :=
  match i with
  | .endProg => wordOf i.op 0 0 0 0
  | .skipz cbit => wordOf i.op 0 0 0 cbit.val
  | .adv imm => wordOf i.op 0 0 0 imm
  | .ldblk rd => wordOf i.op rd.val 0 0 0
  | .emit16 rs => wordOf i.op 0 rs.val 0 0
  | .emitf rs rt => wordOf i.op 0 rs.val rt.val 0
  | .firB rd rs slot => wordOf i.op rd.val rs.val 0 slot
  | .firS rd rs t slot => wordOf i.op rd.val rs.val t.val slot
  | .iirB rd rs slot => wordOf i.op rd.val rs.val 0 slot
  | .iirS rd rs t slot => wordOf i.op rd.val rs.val t.val slot
  | .trimh rd rs imm => wordOf i.op rd.val rs.val 0 imm
  | .trimhk rd rs k slot => wordOf i.op rd.val rs.val 0 (k * 2 ^ 5 + slot)
  | .decim rd rs imm => wordOf i.op rd.val rs.val 0 imm
  | .anlt rd rs => wordOf i.op rd.val rs.val 0 0
  | .chop rd rs imm => wordOf i.op rd.val rs.val 0 imm
  | .angle rd rs => wordOf i.op rd.val rs.val 0 0
  | .diff rd rs => wordOf i.op rd.val rs.val 0 0
  | .fix0 rd rs => wordOf i.op rd.val rs.val 0 0
  | .unwrap rd rs => wordOf i.op rd.val rs.val 0 0
  | .sclhz rd rs sel => wordOf i.op rd.val rs.val 0 sel.bit
  | .wrapc rd rs sel => wordOf i.op rd.val rs.val 0 sel.bit
  | .subcf rd rs sel => wordOf i.op rd.val rs.val 0 sel.bit
  | .clipdev rd rs => wordOf i.op rd.val rs.val 0 0
  | .iremap rd rs => wordOf i.op rd.val rs.val 0 0

/-! ## The opcode table (30_encoding.md R96) -/

/-- One row of the table. -/
structure OpcodeRow where
  mnemonic : String
  pattern : Word
  mask : Word
  deriving DecidableEq, Repr

/-- The 24 rows of 30_encoding.md R96 and spec/opcode_table.json. -/
def opcodeTable : List OpcodeRow :=
  [⟨"END", 0x01000000, 0xFFFFFFFF⟩, ⟨"SKIPZ", 0x02000000, 0xFFFFFFF8⟩, ⟨"ADV", 0x03000000, 0xFFFFF000⟩,
   ⟨"LDBLK", 0x10000000, 0xFF8FFFFF⟩, ⟨"EMIT16", 0x11000000, 0xFFF8FFFF⟩, ⟨"EMITF", 0x12000000, 0xFFF88FFF⟩,
   ⟨"FIR.B", 0x20000000, 0xFF88FFE0⟩, ⟨"FIR.S", 0x21000000, 0xFF880FE0⟩,
   ⟨"IIR.B", 0x22000000, 0xFF88FFE0⟩, ⟨"IIR.S", 0x23000000, 0xFF880FE0⟩,
   ⟨"TRIMH", 0x30000000, 0xFF88F000⟩, ⟨"TRIMHK", 0x31000000, 0xFF88F000⟩, ⟨"DECIM", 0x32000000, 0xFF88F000⟩,
   ⟨"ANLT", 0x40000000, 0xFFE8FFFF⟩, ⟨"CHOP", 0x41000000, 0xFFEEF000⟩, ⟨"ANGLE", 0x42000000, 0xFF8EFFFF⟩,
   ⟨"DIFF", 0x43000000, 0xFF88FFFF⟩, ⟨"FIX0", 0x44000000, 0xFF88FFFF⟩, ⟨"UNWRAP", 0x45000000, 0xFF88FFFF⟩,
   ⟨"SCLHZ", 0x46000000, 0xFF88FFFE⟩, ⟨"WRAPC", 0x47000000, 0xFF88FFFE⟩, ⟨"SUBCF", 0x50000000, 0xFF88FFFE⟩,
   ⟨"CLIPDEV", 0x51000000, 0xFF88FFFF⟩, ⟨"IREMAP", 0x52000000, 0xFF88FFFF⟩]

/-- The table's mnemonic of an instruction. -/
def Instr.mnemonic : Instr → String
  | .endProg => "END"
  | .skipz _ => "SKIPZ"
  | .adv _ => "ADV"
  | .ldblk _ => "LDBLK"
  | .emit16 _ => "EMIT16"
  | .emitf _ _ => "EMITF"
  | .firB _ _ _ => "FIR.B"
  | .firS _ _ _ _ => "FIR.S"
  | .iirB _ _ _ => "IIR.B"
  | .iirS _ _ _ _ => "IIR.S"
  | .trimh _ _ _ => "TRIMH"
  | .trimhk _ _ _ _ => "TRIMHK"
  | .decim _ _ _ => "DECIM"
  | .anlt _ _ => "ANLT"
  | .chop _ _ _ => "CHOP"
  | .angle _ _ => "ANGLE"
  | .diff _ _ => "DIFF"
  | .fix0 _ _ => "FIX0"
  | .unwrap _ _ => "UNWRAP"
  | .sclhz _ _ _ => "SCLHZ"
  | .wrapc _ _ _ => "WRAPC"
  | .subcf _ _ _ => "SUBCF"
  | .clipdev _ _ => "CLIPDEV"
  | .iremap _ _ => "IREMAP"

/-! ## Pseudo-operations (30_encoding.md R100) -/

/-- `FMDEMOD Vd, Vs, sel`: eight words, Z0 as scratch. -/
def fmdemod (rd rs : VReg) (sel : Scale) : List Instr :=
  [.anlt 0 rs, .chop 0 0 256, .angle rd 0, .diff rd rd, .fix0 rd rd, .unwrap rd rd, .sclhz rd rd sel,
   .wrapc rd rd sel]

/-- `FILTB Vd, Vs, k, slot`: block-mode filtering with its transient discard. -/
def filtb (rd rs : VReg) (k slot : Nat) : List Instr :=
  [.iirB rd rs slot, .trimhk rd rd k slot]

end Sys2Proof
end

