-- ==== Sys2Proof/Config.lean ====
section
/-!
DEFINITION. What an implementation fixes (00_scope.md R7): the parameter record Cfg, the constants the
document fixes, the opaque constants that stand for the OPEN parameters, and the free values.
-/
namespace Sys2Proof

/-- One slot of the coefficient ROM: the valid flag, the numerator taps `b[0]` on, the denominator taps `a[0]`
on (40_coefficient_rom.md R120). -/
structure Slot where
  valid : Bool
  b : List Num64
  a : List Num64
  deriving DecidableEq, Repr, Inhabited

/-- The configuration record (00_scope.md R7): every quantity the document leaves to the implementation, with
the coefficient ROM (R121), the nine scalars of the constant ROM (20_memory.md R65) and the micro-program ROM
(20_memory.md R66). A pair of constants is indexed by CONFIG.WIDE or by the channel. -/
structure Cfg where
  blockLen : Nat
  hlen : Nat
  ntapMax : Nat
  fC : Num64
  hzIreScale : Vector Num64 2
  minn : Vector Num64 2
  outScale : Vector Num64 2
  audCenter : Vector Num64 2
  wrapIterMax : Nat
  rom : Vector Slot 16
  uprog : Vector Word 128
  deriving DecidableEq, Repr, Inhabited

namespace Config

/-! ## Constants with a value in the document (00_scope.md R7, FIXED) -/

def edgeTrim : Nat := 256
def kDeemp : Nat := 64
def kRf : Nat := 2
def kAbp : Nat := 1
def tAlpf : Nat := 400
def dec1 : Nat := 4
def dec2 : Nat := 20
/-- The deviation clip in Hz. -/
def devClip : Nat := 150000
/-- The default of WRAP_ITER_MAX (92_eei_decisions.md D21). -/
def wrapIterDefault : Nat := 8

/-! ## Opaque constants: nothing in Lean can evaluate one or prove a value of it -/

/-- DESIGN CHOICE, safe (log entry 2): the hardware's OPEN parameters. The machine uses it only where it meets
70_reset_and_hazards.md R284. -/
opaque openCfg : Cfg

/-- DESIGN CHOICE, safe (log entry 4): the sign and payload of the NaN that an operation makes, by the
operation's number and its operands. -/
opaque nanBits : Nat → Num64 → Num64 → Num64

/-- DESIGN CHOICE, safe (log entry 5): `atan2_N`, a parameter (93_implementation_defined.md U1). -/
opaque atan2Free : Num64 → Num64 → Num64

/-- DESIGN CHOICE, safe (log entry 6): element `n` of `analytic_N` of a window
(93_implementation_defined.md U2). -/
opaque analyticFree : List Num64 → Nat → Num64 × Num64

/-- DESIGN CHOICE, safe (log entry 8): `rhz` of a value that is not finite, on which 00_scope.md R13 is silent. -/
opaque rhzFree : Num64 → Int

/-- DESIGN CHOICE, safe (log entry 9): a byte of the block buffer that no FILLING step has written
(10_state.md R24: unspecified contents). -/
opaque blkFree : Nat → Byte

end Config
end Sys2Proof
end

