-- ==== Sys2Proof/Machine/Fp.lean ====
section
/-!
DEFINITION. IEEE 754 binary64 with roundTiesToEven (00_scope.md R9, R11, R13), by exact integer arithmetic and
one rounding. No flags, no traps.
-/
namespace Sys2Proof.Machine.Fp

/-! ## The parts of a datum -/

def expBits (x : Num64) : Nat := x.toNat / 2 ^ 52 % 2 ^ 11
def fracBits (x : Num64) : Nat := x.toNat % 2 ^ 52
def signBit (x : Num64) : Bool := decide (2 ^ 63 ≤ x.toNat)
/-- The bits below the sign. -/
def magBits (x : Num64) : Nat := x.toNat % 2 ^ 63

def isNaN (x : Num64) : Bool := decide (expBits x = 2047) && decide (fracBits x ≠ 0)
def isInf (x : Num64) : Bool := decide (expBits x = 2047) && decide (fracBits x = 0)
def isFinite (x : Num64) : Bool := decide (expBits x ≠ 2047)

/-- A finite datum is `(-1)^sign * significand * 2^ulpExp`. -/
def significand (x : Num64) : Nat := if expBits x = 0 then fracBits x else 2 ^ 52 + fracBits x
def ulpExp (x : Num64) : Int := (max 1 (expBits x) : Nat) - 1075

/-! ## Rounding -/

/-- `m / 2^d` to the nearest integer, a tie to the even one. -/
def shiftRne (m d : Nat) : Nat :=
  let hi := m / 2 ^ d
  let lo := m % 2 ^ d
  if 2 ^ d < 2 * lo ∨ (2 ^ d = 2 * lo ∧ hi % 2 = 1) then hi + 1 else hi

/-- The magnitude bits of `m * 2^e` rounded to nearest, ties to even, in the format with `mb` fraction bits,
smallest unit `2^emin` and infinity at `infMag`. A rounding that carries into the next binade is carried by the
addition. -/
def roundMag (mb : Nat) (emin : Int) (infMag m : Nat) (e : Int) : Nat :=
  if m = 0 then 0
  else
    let q : Int := max (e + (m.log2 : Int) - mb) emin
    let r := if q ≤ e then m * 2 ^ (e - q).toNat else shiftRne m (q - e).toNat
    let mag := (q - emin).toNat * 2 ^ mb + r
    if infMag ≤ mag then infMag else mag

/-- A sign and magnitude bits as a datum. -/
def ofMag (neg : Bool) (mag : Nat) : Num64 := BitVec.ofNat 64 (mag + if neg then 2 ^ 63 else 0)

def posZero : Num64 := 0x0000000000000000
def negZero : Num64 := 0x8000000000000000
def one : Num64 := 0x3FF0000000000000
/-- `PI` (00_scope.md R11). -/
def pi : Num64 := 0x400921FB54442D18
/-- `TWO_PI` (00_scope.md R11). -/
def twoPi : Num64 := 0x401921FB54442D18

def infinity (neg : Bool) : Num64 := ofMag neg 0x7FF0000000000000

/-- The binary64 value of `±m * 2^e`, rounded once. -/
def round (neg : Bool) (m : Nat) (e : Int) : Num64 :=
  ofMag neg (roundMag 52 (-1074) 0x7FF0000000000000 m e)

/-- A quiet NaN whose sign and payload are the free value's (log entry 4). -/
def nan (op : Nat) (a b : Num64) : Num64 := Config.nanBits op a b ||| 0x7FF8000000000000

/-! ## Operations -/

/-- The negation, exact on every datum (the sign bit). -/
def neg (a : Num64) : Num64 := a ^^^ 0x8000000000000000

def abs (a : Num64) : Num64 := BitVec.ofNat 64 (magBits a)

/-- A finite datum as an integer multiple of `2^e`, for `e` not above its own unit. -/
def scaled (a : Num64) (e : Int) : Int :=
  let m : Int := (significand a * 2 ^ (ulpExp a - e).toNat : Nat)
  if signBit a then -m else m

def add (a b : Num64) : Num64 :=
  if isNaN a || isNaN b then nan 0 a b
  else if isInf a then
    if isInf b && signBit a != signBit b then nan 0 a b else a
  else if isInf b then b
  else
    let e := min (ulpExp a) (ulpExp b)
    let t := scaled a e + scaled b e
    if t = 0 then (if signBit a && signBit b then negZero else posZero)
    else round (decide (t < 0)) t.natAbs e

def sub (a b : Num64) : Num64 :=
  if isNaN a || isNaN b then nan 1 a b else add a (neg b)

def mul (a b : Num64) : Num64 :=
  let s := signBit a != signBit b
  if isNaN a || isNaN b then nan 2 a b
  else if isInf a then (if isFinite b && significand b == 0 then nan 2 a b else infinity s)
  else if isInf b then (if significand a == 0 then nan 2 a b else infinity s)
  else round s (significand a * significand b) (ulpExp a + ulpExp b)

/-- The quotient of two significands to more than 56 bits, with a last bit that is 1 when it is inexact. -/
def quotientSticky (m n : Nat) : Nat :=
  let num := m * 2 ^ 110
  2 * (num / n) + (if num % n = 0 then 0 else 1)

def div (a b : Num64) : Num64 :=
  let s := signBit a != signBit b
  if isNaN a || isNaN b then nan 3 a b
  else if isInf a then (if isInf b then nan 3 a b else infinity s)
  else if isInf b then ofMag s 0
  else if significand b = 0 then (if significand a = 0 then nan 3 a b else infinity s)
  else round s (quotientSticky (significand a) (significand b)) (ulpExp a - ulpExp b - 111)

/-! ## Comparisons: false with a NaN operand; the two zeros are equal (00_scope.md R9) -/

/-- The order of the data that are not NaN. -/
def key (a : Num64) : Int := if signBit a then -(magBits a : Int) else magBits a

def lt (a b : Num64) : Bool := !isNaN a && !isNaN b && decide (key a < key b)
def le (a b : Num64) : Bool := !isNaN a && !isNaN b && decide (key a ≤ key b)
def eq (a b : Num64) : Bool := !isNaN a && !isNaN b && decide (key a = key b)

/-! ## Conversions (00_scope.md R13) -/

/-- `num(n)`. DEDUCED (log entry 7): an integer that no binary64 value equals is rounded to nearest even. -/
def ofInt (n : Int) : Num64 := round (decide (n < 0)) n.natAbs 0

/-- `trunc(v)` of a finite `v ≥ 0`: the largest integer not above it. -/
def trunc (a : Num64) : Nat :=
  let e := ulpExp a
  if 0 ≤ e then significand a * 2 ^ e.toNat else significand a / 2 ^ (-e).toNat

/-- The integer nearest to `m / 2^d`, a tie to the smaller one. -/
def shiftTiesDown (m d : Nat) : Nat :=
  let hi := m / 2 ^ d
  if 2 ^ d < 2 * (m % 2 ^ d) then hi + 1 else hi

/-- `rhz(t)`: the nearest integer, a tie to the one of smaller magnitude. Of a value that is not finite: free
(log entry 8). -/
def rhz (a : Num64) : Int :=
  if isFinite a then
    let e := ulpExp a
    let m : Int := if 0 ≤ e then significand a * 2 ^ e.toNat else shiftTiesDown (significand a) (-e).toNat
    if signBit a then -m else m
  else Config.rhzFree a

/-- `f32(v)`: the binary32 bit pattern nearest to `v`, ties to even, overflow to infinity, NaN to a NaN. -/
def toBinary32 (a : Num64) : BitVec 32 :=
  let s : Nat := if signBit a then 2 ^ 31 else 0
  if isNaN a then (Config.nanBits 4 a a).setWidth 32 ||| 0x7FC00000
  else if isInf a then BitVec.ofNat 32 (0x7F800000 + s)
  else BitVec.ofNat 32 (roundMag 23 (-149) 0x7F800000 (significand a) (ulpExp a) + s)

/-! ## The two functions the spec leaves as parameters (00_scope.md R12) -/

/-- `atan2_N(y, x)` inside what the rules fix without its value: a NaN of a NaN (93_implementation_defined.md U1); in
[-PI, PI] for every other pair of arguments not both zero, finite (U1) or infinite (42_fm_demodulator.md R170, whose
result is in (-PI, PI]). Otherwise the free value (log entry 5). -/
def atan2 (y x : Num64) : Num64 :=
  if isNaN y || isNaN x then nan 5 y x
  else
    let r := Config.atan2Free y x
    if !(eq y posZero && eq x posZero) && !(le (neg pi) r && le r pi) then posZero
    else r

/-- `analytic_N(w)` (42_fm_demodulator.md R164, 93_implementation_defined.md U2): as long as the window; the empty
window and the window of one sample as R164 gives them; otherwise the free value. -/
def analytic : List Num64 → List (Num64 × Num64)
  | [] => []
  | [x] => [(x, posZero)]
  | x :: y :: w => (List.range (w.length + 2)).map (Config.analyticFree (x :: y :: w))

end Sys2Proof.Machine.Fp
end

