-- ==== Sys2Proof/Machine/Params.lean ====
section
/-!
DEFINITION. The parameters of the hardware: what a parameter record must satisfy (70_reset_and_hazards.md R284),
the normative micro-program ROM (43_video_stage.md R191, 44_audio_stage.md R208), and the record that State.reset
carries.
-/
namespace Sys2Proof.Machine

/-! ## Slots -/

/-- A well-formed slot (40_coefficient_rom.md R122), apart from the design template, which is provenance. -/
def slotWellFormed (ntapMax : Nat) (c : Slot) : Bool :=
  decide (1 ≤ c.b.length) && decide (c.b.length ≤ ntapMax) && decide (1 ≤ c.a.length) &&
  decide (c.a.length ≤ ntapMax) && decide (c.a.head? = some Fp.one) && c.b.all Fp.isFinite && c.a.all Fp.isFinite

/-- A slot of FIR kind: its denominator is `[1]` (40_coefficient_rom.md R125). -/
def slotIsFir (c : Slot) : Bool := decide (c.a.length = 1)

/-! ## The record -/

/-- The requirements on the parameters (70_reset_and_hazards.md R284): sizes, carrier scale, divisors, and every
valid slot well formed (40_coefficient_rom.md R122). Stability (R126) is the premise Safety.StableRom.
DESIGN CHOICE (log entry 26): `HZ_IRE_SCALE[w] ≠ 0` (R284, 00_scope.md R7) is read so that a NaN does not meet it; the
spec gives no `≠` on Num and does not say. -/
def cfgLegal (c : Cfg) : Bool :=
  decide (1 ≤ c.blockLen) && decide (c.blockLen < 2 ^ 32) && decide (1 ≤ c.hlen) && decide (1 ≤ c.ntapMax) &&
  decide (1 ≤ c.wrapIterMax) && Fp.isFinite c.fC && Fp.lt Fp.posZero c.fC &&
  c.hzIreScale.all (fun h => !Fp.isNaN h && !Fp.eq h Fp.posZero) &&
  c.rom.all (fun sl => !sl.valid || slotWellFormed c.ntapMax sl)

/-- The three spare slots are invalid in the hardware's ROM (40_coefficient_rom.md R121). -/
def spareSlotsInvalid (c : Cfg) : Bool :=
  !(c.rom.get 13).valid && !(c.rom.get 14).valid && !(c.rom.get 15).valid

/-! ## The micro-program ROM (20_memory.md R66) -/

/-- Words 0 to 18 (43_video_stage.md R191). -/
def videoProgram : List Word :=
  [0x10000000, 0x22000000, 0x02000002, 0x22000008, 0x40000000, 0x41000100, 0x42100000, 0x43110000,
   0x44110000, 0x45110000, 0x46110000, 0x47110000, 0x2211001E, 0x2211001F, 0x3111081F, 0x52110000,
   0x11010000, 0x03000001, 0x01000000]

/-- Words 32 to 68 (44_audio_stage.md R208). -/
def audioProgram : List Word :=
  [0x10000000, 0x22000009, 0x31000049, 0x32000004, 0x2210000A, 0x3111002A, 0x2220000B, 0x3122002B,
   0x40010000, 0x41000100, 0x42100000, 0x43110000, 0x44110000, 0x45110000, 0x46110001, 0x47110001,
   0x40020000, 0x41000100, 0x42200000, 0x43220000, 0x44220000, 0x45220000, 0x46220001, 0x47220001,
   0x50110000, 0x51110000, 0x50220001, 0x51220000, 0x2211000C, 0x30110190, 0x2222000C, 0x30220190,
   0x32110014, 0x32220014, 0x12012000, 0x03000050, 0x01000000]

/-- The 128 words as a list: the two programs at 0 and 32, every other word 0 (20_memory.md R66). -/
def uprogWords : List Word :=
  videoProgram ++ List.replicate 13 0 ++ audioProgram ++ List.replicate 59 0

theorem uprogWords_length : uprogWords.length = 128 := by decide +kernel

/-- `UPROG` of the hardware. -/
def normativeUprog : Vector Word 128 := ⟨⟨uprogWords⟩, uprogWords_length⟩

/-! ## The hardware's record -/

/-- A legal record with no valid slot, which stands in only if the opaque one is illegal (log entry 2). -/
def minimalCfg : Cfg :=
  { blockLen := 1, hlen := 1, ntapMax := 1, fC := Fp.one, hzIreScale := Vector.replicate 2 Fp.one,
    minn := Vector.replicate 2 Fp.posZero, outScale := Vector.replicate 2 Fp.one,
    audCenter := Vector.replicate 2 Fp.posZero, wrapIterMax := Config.wrapIterDefault,
    rom := Vector.replicate 16 ⟨false, [], []⟩, uprog := normativeUprog }

/-- The OPEN parameters as the hardware's maker chose them, known only to be legal (log entry 2). -/
def openParams : Cfg :=
  if cfgLegal Config.openCfg && spareSlotsInvalid Config.openCfg then Config.openCfg else minimalCfg

/-- The parameter record of the hardware: the OPEN parameters, the two defaults the spec gives, and the normative
`UPROG` (00_scope.md R7; 92_eei_decisions.md D17, D21). -/
def hardwareCfg : Cfg :=
  { openParams with
    hlen := openParams.blockLen
    wrapIterMax := Config.wrapIterDefault
    uprog := normativeUprog }

end Sys2Proof.Machine
end

