-- ==== Sys2Proof/Machine/State.lean ====
section
/-!
DEFINITION. The complete state of the block (10_state.md R20), the fault causes, the host's actions, the two
stop types of the interface, and the state after reset.
-/
namespace Sys2Proof.Machine

/-- The orchestrator state (10_state.md R33). -/
inductive OState where
  | idle
  | filling
  | processing
  | draining
  | done
  | fault
  deriving DecidableEq, Repr

/-- The causes of a fault of the block (60_exceptions.md R251). Raising one is a NEXT state, never a stop. -/
inductive Cause where
  | configDesign
  | decodeNonconverge
  | illegalUop
  | geometry
  | numeric
  | slotKind
  deriving DecidableEq, Repr

/-- What the host may do (45_sequencer.md R240). An access carries its width so that a form other than an aligned
32-bit one can be refused (20_memory.md R68). -/
inductive HostAction where
  | memRead (addr width : Nat)
  | memWrite (addr width : Nat) (v : Word)
  | pushByte (b : Byte)
  | setEos
  | takeByte
  | assertReset
  deriving DecidableEq, Repr

/-- Who makes the next transition (45_sequencer.md R215). -/
inductive Turn where
  | seq
  | host (a : HostAction)
  deriving DecidableEq, Repr

/-- The block buffer's bytes: (index, byte) pairs with indices strictly rising. An index that is not listed
holds no known byte (10_state.md R24). -/
abbrev Memory := List Host.Cell

/-- The state. `cfg` is the parameter record, which no step changes (10_state.md R38, log entry 1). `turns`,
`hostRead` and `hostByte` are the model's own (log entries 11, 13). Every other field is named by R20. -/
structure State where
  cfg : Cfg
  v : Vector (List Num64) 8
  z : Vector (List (Num64 × Num64)) 2
  xh : Vector (List Num64) 16
  yh : Vector (List Num64) 16
  blk : Memory
  fill : Nat
  config : BitVec 32
  remain : BitVec 64
  total : BitVec 64
  blkidx : BitVec 64
  ostate : OState
  upc : BitVec 7
  consumed : BitVec 32
  outcnt : BitVec 32
  readcnt : BitVec 32
  forceEmpty : Bool
  cause : BitVec 32
  errBlock : BitVec 64
  errOffset : BitVec 64
  errUpc : BitVec 32
  inq : List Byte
  eos : Bool
  outq : List Byte
  turns : List Turn
  hostRead : Option (BitVec 32)
  hostByte : Option Byte
  deriving DecidableEq, Repr

/-- Why no step of `SEQ` is enabled (45_sequencer.md R216, R242; log entry 10). None of these is a fault of the
block: they say that `SEQ` was asked to move where it cannot. -/
inductive Fault where
  /-- raised by a step in IDLE: `SEQ` waits for the START command (R216, R225). Safe. -/
  | waitingForStart
  /-- raised by a step in FILLING with room, no FORCE_EMPTY, an empty `INQ` and no end mark (R227 case 5). Safe. -/
  | blockedOnInput
  /-- raised by a step in DONE, which is terminal (R231). Safe. -/
  | runDone
  /-- raised by a step in FAULT, which only reset leaves (R232). Safe. -/
  | runAborted
  deriving DecidableEq, Repr

/-- Host actions that the model does not offer (log entry 12), and the rejection by name. -/
inductive Refusal where
  /-- raised by `exec` for an instruction without a meaning: none is left. Safe. -/
  | notModelled (mnemonic : String)
  /-- raised by a register access that is not 32-bit or not aligned to 4 (20_memory.md R68). Safe. -/
  | accessForm
  /-- raised by a push after the end mark (70_reset_and_hazards.md R297). Safe. -/
  | pushAfterEos
  /-- raised by a second setting of the end mark (45_sequencer.md R240: once). Safe. -/
  | eosTwice
  /-- raised by a take from an empty `OUTQ` (45_sequencer.md R240). Safe. -/
  | takeFromEmpty
  deriving DecidableEq, Repr

/-- A filter history at rest: `NTAP_MAX - 1` values `+0.0` (41_filter_datapaths.md R137). -/
def restHistory (cfg : Cfg) : List Num64 := List.replicate (cfg.ntapMax - 1) Fp.posZero

/-- The reset values of 10_state.md R39 for a block with parameters `cfg`. The block buffer's contents are
unspecified: no byte is listed (log entry 9). -/
def State.resetOf (cfg : Cfg) : State :=
  { cfg := cfg
    v := Vector.replicate 8 []
    z := Vector.replicate 2 []
    xh := Vector.replicate 16 (restHistory cfg)
    yh := Vector.replicate 16 (restHistory cfg)
    blk := []
    fill := 0
    config := 0
    remain := 0
    total := 0
    blkidx := 0
    ostate := .idle
    upc := 0
    consumed := 0
    outcnt := 0
    readcnt := 0
    forceEmpty := false
    cause := 0
    errBlock := 0
    errOffset := 0
    errUpc := 0
    inq := []
    eos := false
    outq := []
    turns := []
    hostRead := none
    hostByte := none }

/-- The machine right after reset (10_state.md R39, 70_reset_and_hazards.md R281). -/
def State.reset : State := State.resetOf hardwareCfg

end Sys2Proof.Machine
end

