-- ==== Sys2Proof/Machine/Numerics.lean ====
section
/-!
DEFINITION. The numerics record (00_scope.md R10, R12): the operators of the rules as fields, so that one set of
datapath functions has a binary64 reading, which the machine runs, and an exact reading (Machine/Exact.lean).
-/
namespace Sys2Proof.Machine

/-- The operators on `Num` that the rules write (00_scope.md R9, R11 to R13). Comparisons answer a Bool. -/
structure Numerics (α : Type) where
  zero : α
  one : α
  add : α → α → α
  sub : α → α → α
  mul : α → α → α
  div : α → α → α
  neg : α → α
  abs : α → α
  lt : α → α → Bool
  le : α → α → Bool
  eq : α → α → Bool
  isNaN : α → Bool
  ofInt : Int → α
  trunc : α → Nat
  rhz : α → Int
  pi : α
  twoPi : α
  atan2 : α → α → α
  analytic : List α → List (α × α)

/-- The machine's reading: binary64 (00_scope.md R9, log entry 3). -/
def binary64 : Numerics Num64 where
  zero := Fp.posZero
  one := Fp.one
  add := Fp.add
  sub := Fp.sub
  mul := Fp.mul
  div := Fp.div
  neg := Fp.neg
  abs := Fp.abs
  lt := Fp.lt
  le := Fp.le
  eq := Fp.eq
  isNaN := Fp.isNaN
  ofInt := Fp.ofInt
  trunc := Fp.trunc
  rhz := Fp.rhz
  pi := Fp.pi
  twoPi := Fp.twoPi
  atan2 := Fp.atan2
  analytic := Fp.analytic

end Sys2Proof.Machine
end

