-- ==== Sys2Proof/Machine/Datapath.lean ====
section
/-!
DEFINITION. What each micro-operation computes on sequences, over any numerics record (41_filter_datapaths.md to
44_audio_stage.md). No function here reads the state.
-/
namespace Sys2Proof.Machine

variable {α : Type}

/-! ## The recurrence (41_filter_datapaths.md R136) -/

/-- `acc + b[0] × h[0] + b[1] × h[1] + ...`, in increasing tap index; a history that ends early reads as zero
(log entry 15). -/
def addTaps (N : Numerics α) : List α → List α → α → α
  | [], _, acc => acc
  | b :: bs, h, acc => addTaps N bs h.tail (N.add acc (N.mul b (h.headD N.zero)))

/-- `acc - a[1] × h[0] - a[2] × h[1] - ...`, for the taps after `a[0]`. -/
def subTaps (N : Numerics α) : List α → List α → α → α
  | [], _, acc => acc
  | a :: as, h, acc => subTaps N as h.tail (N.sub acc (N.mul a (h.headD N.zero)))

/-- One output sample: numerator terms from `+0.0`, then denominator terms. -/
def df1Sample (N : Numerics α) (b a : List α) (x : α) (xh yh : List α) : α :=
  subTaps N a.tail yh (addTaps N b (x :: xh) N.zero)

/-- The outputs, and all inputs and outputs newest first in front of the histories. -/
def df1Run (N : Numerics α) (b a : List α) : List α → List α → List α → List α × List α × List α
  | [], xh, yh => ([], xh, yh)
  | x :: xs, xh, yh =>
    let y := df1Sample N b a x xh yh
    let r := df1Run N b a xs (x :: xh) (y :: yh)
    (y :: r.1, r.2.1, r.2.2)

/-- The `H` newest values of a history. -/
def newest (N : Numerics α) (H : Nat) (h : List α) : List α :=
  (List.range H).map (fun j => h.getD j N.zero)

/-- `df1(b, a, x, xh, yh)` with histories of length `H`: the outputs and the two new histories. -/
def df1 (N : Numerics α) (H : Nat) (b a x xh yh : List α) : List α × List α × List α :=
  let r := df1Run N b a x xh yh
  (r.1, newest N H r.2.1, newest N H r.2.2)

/-- Block mode: from the rest state, histories discarded (41_filter_datapaths.md R137). -/
def df1Block (N : Numerics α) (H : Nat) (b a x : List α) : List α :=
  (df1 N H b a x (List.replicate H N.zero) (List.replicate H N.zero)).1

/-! ## Trims and decimation -/

/-- `s[n .. len(s))` (41_filter_datapaths.md R142). -/
def trimHead {β : Type} (n : Nat) (s : List β) : List β := s.drop n

/-- `s[n .. len(s) ∸ n)` (42_fm_demodulator.md R166). -/
def chopEnds {β : Type} (n : Nat) (s : List β) : List β := (s.take (s.length - n)).drop n

/-- `s[0], s[n], s[2n], ...`, `⌈len(s) / n⌉` samples, for `n ≥ 1` (44_audio_stage.md R201). -/
def decimate (N : Numerics α) (n : Nat) (s : List α) : List α :=
  (List.range ((s.length + n - 1) / n)).map (fun j => s.getD (n * j) N.zero)

/-! ## The demodulator (42_fm_demodulator.md) -/

/-- The analytic signal of the bounded window, the first `min(len(s), HLEN)` samples (R164). -/
def analyticWindow (N : Numerics α) (hlen : Nat) (s : List α) : List (α × α) := N.analytic (s.take hlen)

/-- The instantaneous phase of one pair (R170). -/
def phaseOf (N : Numerics α) (p : α × α) : α :=
  if N.eq p.1 N.zero && N.eq p.2 N.zero then N.zero
  else if N.eq p.2 N.zero && N.lt p.1 N.zero then N.pi
  else
    let q := N.atan2 p.2 p.1
    if N.eq q (N.neg N.pi) then N.pi else q

/-- First differences (R171). -/
def differences (N : Numerics α) (s : List α) : List α :=
  List.zipWith (fun a b => N.sub b a) s s.tail

/-- The sign correction of the first difference (R172). -/
def fixFirst (N : Numerics α) : List α → List α
  | [] => []
  | d :: ds => (if N.lt d (N.neg N.pi) then N.add d N.twoPi else d) :: ds

/-- The turns by which one jump changes the correction (R173). -/
def unwrapTurns (N : Numerics α) (e : α) : Int :=
  if N.isNaN e || N.le (N.abs e) N.pi then 0 else N.rhz (N.div e N.twoPi)

/-- An element corrected by `Q` turns (R173). -/
def unwrapOut (N : Numerics α) (Q : Int) (d : α) : α := N.sub d (N.mul (N.ofInt Q) N.twoPi)

/-- The elements after `prev`, with the correction so far (R173). -/
def unwrapFrom (N : Numerics α) (prev : α) (Q : Int) : List α → List α
  | [] => []
  | d :: ds =>
    let Q' := Q + unwrapTurns N (N.sub d prev)
    unwrapOut N Q' d :: unwrapFrom N d Q' ds

/-- The unwrap of the difference sequence (R173). -/
def unwrapSeq (N : Numerics α) : List α → List α
  | [] => []
  | d :: ds => unwrapOut N 0 d :: unwrapFrom N d 0 ds

/-- The FM-to-Hz scaler: one gain, one multiplication a sample (R174). -/
def scaleHz (N : Numerics α) (F : α) (s : List α) : List α :=
  let g := N.div F N.twoPi
  s.map (fun x => N.mul x g)

/-- One quarter of the carrier scale (R175). -/
def quarterOf (N : Numerics α) (F : α) : α := N.div F (N.ofInt 4)

/-- One sweep down: every sample above `F` moves by `F` (R176). -/
def sweepDown (N : Numerics α) (F : α) (s : List α) : List α :=
  s.map (fun x => if N.lt F x then N.sub x F else x)

/-- One sweep up: every sample below zero moves by `F` (R176). -/
def sweepUp (N : Numerics α) (F : α) (s : List α) : List α :=
  s.map (fun x => if N.lt x N.zero then N.add x F else x)

/-- Some sample is above `F` or below zero (R176). -/
def outOfRange (N : Numerics α) (F : α) (s : List α) : Bool :=
  s.any (fun x => N.lt F x) || s.any (fun x => N.lt x N.zero)

/-- The bounded correction pass with `left` sweeps left (R176). -/
def wrapCorrect (N : Numerics α) (F : α) : Nat → List α → Except Cause (List α)
  | left, s =>
    if s.any N.isNaN then .error .numeric
    else if !outOfRange N F s then .ok s
    else match left with
      | 0 => .error .decodeNonconverge
      | n + 1 => wrapCorrect N F n (sweepUp N F (sweepDown N F s))

/-! ## Levels -/

/-- Hz to IRE (43_video_stage.md R187). -/
def toIre (N : Numerics α) (minn scale : α) (s : List α) : List α :=
  s.map (fun x => N.div (N.sub x minn) scale)

/-- The 16-bit code of a scaled sample: clip, then drop the fraction (43_video_stage.md R188). -/
def clipCode (N : Numerics α) (c : α) : Nat :=
  let c1 := if N.lt c (N.ofInt 0) then N.ofInt 0 else c
  let c2 := if N.lt (N.ofInt 65535) c1 then N.ofInt 65535 else c1
  N.trunc c2

/-- The codes of a sequence, or NUMERIC when a scaled sample is NaN (43_video_stage.md R188). -/
def videoCodes (N : Numerics α) (scale : α) (s : List α) : Except Cause (List Nat) :=
  let c := s.map (fun x => N.mul x scale)
  if c.any N.isNaN then .error .numeric else .ok (c.map (clipCode N))

/-- Subtraction of the subcarrier centre (44_audio_stage.md R202). -/
def subtractCenter (N : Numerics α) (center : α) (s : List α) : List α := s.map (fun x => N.sub x center)

/-- The clip of one sample to the deviation limit (44_audio_stage.md R203). -/
def clipDeviation (N : Numerics α) (x : α) : α :=
  let D := N.ofInt Config.devClip
  if N.lt x (N.neg D) then N.neg D else if N.lt D x then D else x

/-- The byte value as a `Num`, no centring and no scaling (43_video_stage.md R186). -/
def sampleOfByte (N : Numerics α) (b : Byte) : α := N.ofInt (b.toNat : Int)

end Sys2Proof.Machine
end

