-- ==== Sys2Proof/Machine/Flags.lean ====
section
/-!
DEFINITION. The bits of CONFIG, STATUS and the budget test. There are no condition codes; the one status bit is
FORCE_EMPTY (10_state.md R35).
-/
namespace Sys2Proof.Machine

/-! ## CONFIG (10_state.md R26) -/

/-- The bits of CONFIG that exist: 31:8 are hard-wired 0. -/
def configMask : BitVec 32 := 0x000000FF

def State.modeAudio (s : State) : Bool := s.config.getLsbD 0
def State.deemphAlt (s : State) : Bool := s.config.getLsbD 1
def State.notchEn (s : State) : Bool := s.config.getLsbD 2
def State.wide (s : State) : Bool := s.config.getLsbD 3
def State.lpfSel (s : State) : Nat := s.config.toNat / 2 ^ 4 % 2 ^ 3
def State.limitEn (s : State) : Bool := s.config.getLsbD 7

/-! ## STATUS (10_state.md R28) -/

def OState.code : OState → BitVec 32
  | .idle => 0
  | .filling => 1
  | .processing => 2
  | .draining => 3
  | .done => 4
  | .fault => 5

def State.statusWord (s : State) : BitVec 32 := s.ostate.code ||| (if s.forceEmpty then 8 else 0)

/-! ## Causes (60_exceptions.md R251) -/

def Cause.code : Cause → BitVec 32
  | .configDesign => 1
  | .decodeNonconverge => 2
  | .illegalUop => 3
  | .geometry => 4
  | .numeric => 5
  | .slotKind => 6

/-! ## The budget (45_sequencer.md R230, R235) -/

/-- "Negative" means bit 63 set. -/
def budgetNegative (r : BitVec 64) : Bool := r.msb

end Sys2Proof.Machine
end

