-- ==== Sys2Proof/Machine/Ops.lean ====
section
/-!
DEFINITION. The named operations over the block buffer, the registers and the queues, the completion of a
micro-operation, and fault entry.
-/
namespace Sys2Proof.Machine

/-! ## The block buffer (10_state.md R24) -/

/-- The byte at an index, if one was ever written there. -/
def Memory.read : Memory → Nat → Option Byte
  | [], _ => none
  | (a, b) :: m, j => if j = a then some b else Memory.read m j

/-- `BLK[j] <- b`. -/
def Memory.write : Memory → Nat → Byte → Memory
  | [], j, b => [(j, b)]
  | (a, c) :: m, j, b =>
    if j < a then (j, b) :: (a, c) :: m
    else if j = a then (j, b) :: m
    else (a, c) :: Memory.write m j b

/-- Make an index hold no known byte. -/
def Memory.erase (m : Memory) (j : Nat) : Memory := m.filter (fun p => decide (p.1 ≠ j))

/-- Write a known or an unknown byte. -/
def Memory.put (m : Memory) (j : Nat) : Option Byte → Memory
  | some b => m.write j b
  | none => m.erase j

/-- The canonical form: indices strictly rising. An unlisted index reads as no byte, so no entry can equal it. -/
abbrev Memory.wf (m : Memory) : Prop := m.Pairwise (fun x y => x.1 < y.1)

/-- `for j in 0 .. n): BLK[j] <- BLK[j + c]` (45_sequencer.md R222). -/
def Memory.slide (m : Memory) (n c : Nat) : Memory :=
  (List.range n).foldl (fun acc j => acc.put j (acc.read (j + c))) m

/-- The byte a read of `BLK[j]` gives; where none was written, the free byte (log entry 9). -/
def Memory.byteAt (m : Memory) (j : Nat) : Byte := (m.read j).getD (Config.blkFree j)

/-- The bytes `BLK[0 .. n)`. -/
def Memory.bytes (m : Memory) (n : Nat) : List Byte := (List.range n).map m.byteAt

/-! ## Registers (10_state.md R21 to R23) -/

def State.readV (s : State) (i : VReg) : List Num64 := s.v.get i
def State.readZ (s : State) (i : ZReg) : List (Num64 × Num64) := s.z.get i
def State.readXh (s : State) (t : RunState) : List Num64 := s.xh.get t
def State.readYh (s : State) (t : RunState) : List Num64 := s.yh.get t

/-- `V[i] <- xs`. -/
def State.writeV (s : State) (i : VReg) (xs : List Num64) : State :=
  { s with v := s.v.set i.val xs i.isLt }

/-- `Z[i] <- xs`. -/
def State.writeZ (s : State) (i : ZReg) (xs : List (Num64 × Num64)) : State :=
  { s with z := s.z.set i.val xs i.isLt }

/-- `XH[t] <- xs ; YH[t] <- ys`. -/
def State.writeRun (s : State) (t : RunState) (xs ys : List Num64) : State :=
  { s with xh := s.xh.set t.val xs t.isLt, yh := s.yh.set t.val ys t.isLt }

/-- The history length, `NTAP_MAX - 1` (10_state.md R23). -/
def State.histLen (s : State) : Nat := s.cfg.ntapMax - 1

/-! ## Output (20_memory.md R63, R67) -/

/-- A 16-bit code, low byte first. -/
def codeBytes (u : Nat) : List Byte := [BitVec.ofNat 8 u, BitVec.ofNat 8 (u / 2 ^ 8)]

/-- A binary32 pattern, low byte first. -/
def wordBytes (p : BitVec 32) : List Byte :=
  [p.extractLsb' 0 8, p.extractLsb' 8 8, p.extractLsb' 16 8, p.extractLsb' 24 8]

/-- All bytes of one EMIT16 or EMITF and the count of samples or frames. -/
def State.emit (s : State) (bytes : List Byte) (n : Nat) : State :=
  { s with outq := s.outq ++ bytes, outcnt := BitVec.ofNat 32 n }

/-! ## Completion and fault entry -/

/-- `upc <- upc + 1`, modulo 128 (10_state.md R32). -/
def State.advance (s : State) : State := { s with upc := s.upc + 1 }

/-- The state after a micro-operation that completed with the effect `s` (00_scope.md R17). -/
def complete (s : State) : State := s.advance

/-- Fault entry (60_exceptions.md R256): the record and OSTATE, nothing else. -/
def State.takeFault (s : State) (c : Cause) (upcRecord : BitVec 32) : State :=
  { s with
    cause := c.code
    errBlock := s.blkidx
    errOffset := s.total
    errUpc := upcRecord
    ostate := .fault }

/-- `raise` in PROCESSING: ERR_UPC is `upc` (60_exceptions.md R256). -/
def raise (c : Cause) (s : State) : State := s.takeFault c (s.upc.setWidth 32)

/-- `raise` in the START check: ERR_UPC is 0x7F (60_exceptions.md R256). -/
def raiseAtStart (c : Cause) (s : State) : State := s.takeFault c 0x7F

/-- Leaving FAULT, the only way back (60_exceptions.md R258, 70_reset_and_hazards.md R281): every piece of the block's
state at its reset value. The parameters, the transitions still to come and what the host has received are not
the block's state. -/
def State.resetBlock (s : State) : State :=
  { State.resetOf s.cfg with turns := s.turns, hostRead := s.hostRead, hostByte := s.hostByte }

end Sys2Proof.Machine
end

