-- ==== Sys2Proof/Machine/Operands.lean ====
section
/-!
DEFINITION. Operand forms: the slot field, the carrier scale, the constants that CONFIG or a selector picks.
-/
namespace Sys2Proof.Machine

/-- One of a pair of constants. -/
def pick (p : Vector Num64 2) (second : Bool) : Num64 := p.get (if second then 1 else 0)

/-! ## The slot field (40_coefficient_rom.md R123, R124) -/

/-- `slot(f)`. A value that fits no slot field is no operand of a well-formed instruction and resolves as a
reserved one. -/
def resolveSlot (s : State) (f : Nat) : Except Cause (Fin 16) :=
  if h : f < 16 then .ok ⟨f, h⟩
  else if f = 30 then
    if h : s.lpfSel ≤ 4 then .ok ⟨1 + s.lpfSel, by omega⟩ else .error .configDesign
  else if f = 31 then .ok (if s.deemphAlt then 7 else 6)
  else .error .illegalUop

/-- The slot a micro-operation reads: resolved, then checked for its valid flag (R124). -/
def readSlot (s : State) (f : Nat) : Except Cause Slot :=
  match resolveSlot s f with
  | .error c => .error c
  | .ok c => if (s.cfg.rom.get c).valid then .ok (s.cfg.rom.get c) else .error .configDesign

/-- The same for the FIR datapath: a denominator longer than 1 is SLOT_KIND (41_filter_datapaths.md R138). -/
def readFirSlot (s : State) (f : Nat) : Except Cause Slot :=
  match readSlot s f with
  | .error c => .error c
  | .ok sl => if slotIsFir sl then .ok sl else .error .slotKind

/-! ## Constants -/

/-- `Fsel(sel)` (42_fm_demodulator.md R175). -/
def carrierScale (s : State) : Scale → Num64
  | .full => s.cfg.fC
  | .quarter => quarterOf binary64 s.cfg.fC

/-- `AUD_CENTER[sel]` (44_audio_stage.md R202). -/
def audioCenter (s : State) : Channel → Num64
  | .left => pick s.cfg.audCenter false
  | .right => pick s.cfg.audCenter true

/-- `MINN[CONFIG.WIDE]` (43_video_stage.md R187). -/
def ireMin (s : State) : Num64 := pick s.cfg.minn s.wide

/-- `HZ_IRE_SCALE[CONFIG.WIDE]` (43_video_stage.md R187). -/
def ireScale (s : State) : Num64 := pick s.cfg.hzIreScale s.wide

/-- `OUT_SCALE[CONFIG.WIDE]` (43_video_stage.md R188). -/
def outputScale (s : State) : Num64 := pick s.cfg.outScale s.wide

end Sys2Proof.Machine
end

