-- ==== Sys2Proof/Machine/Control.lean ====
section
/-!
DEFINITION. The control micro-operations SKIPZ, ADV, END (45_sequencer.md R221 to R223).
-/
namespace Sys2Proof.Machine

/-- `SKIPZ cbit` (45_sequencer.md R221). -/
def execSkipz (cbit : Fin 8) (s : State) : Host.Outcome State Fault Refusal :=
  .next (if s.config.getLsbD cbit.val then { s with upc := s.upc + 1 } else { s with upc := s.upc + 2 })

/-- `ADV imm` (45_sequencer.md R223). The product is of naturals, without wrap. -/
def execAdv (imm : Nat) (s : State) : Host.Outcome State Fault Refusal :=
  let c := imm * s.outcnt.toNat
  .next (
    if imm = 0 then raise .illegalUop s
    else if c = 0 ∨ s.cfg.blockLen < c then raise .geometry s
    else complete { s with consumed := BitVec.ofNat 32 c })

/-- The slide by `c` bytes, the cursor, and DRAINING (45_sequencer.md R222, R229). -/
def State.endBlock (s : State) (c : Nat) : State :=
  { s with
    blk := s.blk.slide (s.cfg.blockLen - c) c
    fill := s.cfg.blockLen - c
    total := s.total + BitVec.ofNat 64 c
    blkidx := s.blkidx + 1
    ostate := .draining }

/-- `END` (45_sequencer.md R222): the slide, the cursor, DRAINING. `upc` stays. -/
def execEnd (s : State) : Host.Outcome State Fault Refusal :=
  let c := s.consumed.toNat
  .next (if c = 0 then raise .geometry s else s.endBlock c)

end Sys2Proof.Machine
end

