-- ==== Sys2Proof/Machine/Demod.lean ====
section
/-!
DEFINITION. The analytic-signal FM demodulator: ANLT, CHOP, ANGLE, DIFF, FIX0, UNWRAP, SCLHZ, WRAPC
(42_fm_demodulator.md R164 to R176).
-/
namespace Sys2Proof.Machine

/-- `ANLT Zd, Vs` (42_fm_demodulator.md R164). -/
def execAnlt (rd : ZReg) (rs : VReg) (s : State) : Host.Outcome State Fault Refusal :=
  .next (complete (s.writeZ rd (analyticWindow binary64 s.cfg.hlen (s.readV rs))))

/-- `CHOP Zd, Zs, imm` (42_fm_demodulator.md R166). -/
def execChop (rd rs : ZReg) (imm : Nat) (s : State) : Host.Outcome State Fault Refusal :=
  .next (complete (s.writeZ rd (chopEnds imm (s.readZ rs))))

/-- `ANGLE Vd, Zs` (42_fm_demodulator.md R170). -/
def execAngle (rd : VReg) (rs : ZReg) (s : State) : Host.Outcome State Fault Refusal :=
  .next (complete (s.writeV rd ((s.readZ rs).map (phaseOf binary64))))

/-- `DIFF Vd, Vs` (42_fm_demodulator.md R171). -/
def execDiff (rd rs : VReg) (s : State) : Host.Outcome State Fault Refusal :=
  .next (complete (s.writeV rd (differences binary64 (s.readV rs))))

/-- `FIX0 Vd, Vs` (42_fm_demodulator.md R172). -/
def execFix0 (rd rs : VReg) (s : State) : Host.Outcome State Fault Refusal :=
  .next (complete (s.writeV rd (fixFirst binary64 (s.readV rs))))

/-- `UNWRAP Vd, Vs` (42_fm_demodulator.md R173). -/
def execUnwrap (rd rs : VReg) (s : State) : Host.Outcome State Fault Refusal :=
  .next (complete (s.writeV rd (unwrapSeq binary64 (s.readV rs))))

/-- `SCLHZ Vd, Vs, sel` (42_fm_demodulator.md R174). -/
def execSclhz (rd rs : VReg) (sel : Scale) (s : State) : Host.Outcome State Fault Refusal :=
  .next (complete (s.writeV rd (scaleHz binary64 (carrierScale s sel) (s.readV rs))))

/-- `WRAPC Vd, Vs, sel` (42_fm_demodulator.md R176). -/
def execWrapc (rd rs : VReg) (sel : Scale) (s : State) : Host.Outcome State Fault Refusal :=
  .next (match wrapCorrect binary64 (carrierScale s sel) s.cfg.wrapIterMax (s.readV rs) with
    | .error c => raise c s
    | .ok xs => complete (s.writeV rd xs))

end Sys2Proof.Machine
end

