-- ==== Sys2Proof/Machine/Filter.lean ====
section
/-!
DEFINITION. The filter datapaths FIR.B, FIR.S, IIR.B, IIR.S and the trims TRIMH, TRIMHK, DECIM
(41_filter_datapaths.md R138 to R143, 44_audio_stage.md R201).
-/
namespace Sys2Proof.Machine

/-- Block mode: from rest, no run-state read or written (41_filter_datapaths.md R137). -/
def filterBlock (rd rs : VReg) (b a : List Num64) (s : State) : State :=
  s.writeV rd (df1Block binary64 s.histLen b a (s.readV rs))

/-- Streaming mode: from run-state `t` and back into it (41_filter_datapaths.md R135). -/
def filterStream (rd rs : VReg) (t : RunState) (b a : List Num64) (s : State) : State :=
  let r := df1 binary64 s.histLen b a (s.readV rs) (s.readXh t) (s.readYh t)
  (s.writeV rd r.1).writeRun t r.2.1 r.2.2

/-- The denominator of the FIR datapath, `[1]`. -/
def firDenominator : List Num64 := [Fp.one]

/-- `FIR.B Vd, Vs, slot` (41_filter_datapaths.md R138). -/
def execFirB (rd rs : VReg) (slot : Nat) (s : State) : Host.Outcome State Fault Refusal :=
  .next (match readFirSlot s slot with
    | .error c => raise c s
    | .ok sl => complete (filterBlock rd rs sl.b firDenominator s))

/-- `FIR.S Vd, Vs, t, slot` (41_filter_datapaths.md R139). -/
def execFirS (rd rs : VReg) (t : RunState) (slot : Nat) (s : State) : Host.Outcome State Fault Refusal :=
  .next (match readFirSlot s slot with
    | .error c => raise c s
    | .ok sl => complete (filterStream rd rs t sl.b firDenominator s))

/-- `IIR.B Vd, Vs, slot` (41_filter_datapaths.md R140). -/
def execIirB (rd rs : VReg) (slot : Nat) (s : State) : Host.Outcome State Fault Refusal :=
  .next (match readSlot s slot with
    | .error c => raise c s
    | .ok sl => complete (filterBlock rd rs sl.b sl.a s))

/-- `IIR.S Vd, Vs, t, slot` (41_filter_datapaths.md R141). -/
def execIirS (rd rs : VReg) (t : RunState) (slot : Nat) (s : State) : Host.Outcome State Fault Refusal :=
  .next (match readSlot s slot with
    | .error c => raise c s
    | .ok sl => complete (filterStream rd rs t sl.b sl.a s))

/-- `TRIMH Vd, Vs, imm` (41_filter_datapaths.md R142). -/
def execTrimh (rd rs : VReg) (imm : Nat) (s : State) : Host.Outcome State Fault Refusal :=
  .next (complete (s.writeV rd (trimHead imm (s.readV rs))))

/-- `TRIMHK Vd, Vs, k, slot` (41_filter_datapaths.md R143). -/
def execTrimhk (rd rs : VReg) (k slot : Nat) (s : State) : Host.Outcome State Fault Refusal :=
  .next (match readSlot s slot with
    | .error c => raise c s
    | .ok sl => complete (s.writeV rd (trimHead (k * sl.b.length) (s.readV rs))))

/-- `DECIM Vd, Vs, imm` (44_audio_stage.md R201). -/
def execDecim (rd rs : VReg) (imm : Nat) (s : State) : Host.Outcome State Fault Refusal :=
  .next (
    if imm = 0 then raise .illegalUop s
    else complete (s.writeV rd (decimate binary64 imm (s.readV rs))))

end Sys2Proof.Machine
end

