-- ==== Sys2Proof/Machine/Level.lean ====
section
/-!
DEFINITION. The level operations SUBCF, CLIPDEV (44_audio_stage.md R202, R203) and IREMAP (43_video_stage.md R187).
-/
namespace Sys2Proof.Machine

/-- `SUBCF Vd, Vs, sel` (44_audio_stage.md R202). -/
def execSubcf (rd rs : VReg) (sel : Channel) (s : State) : Host.Outcome State Fault Refusal :=
  .next (complete (s.writeV rd (subtractCenter binary64 (audioCenter s sel) (s.readV rs))))

/-- `CLIPDEV Vd, Vs` (44_audio_stage.md R203). -/
def execClipdev (rd rs : VReg) (s : State) : Host.Outcome State Fault Refusal :=
  .next (complete (s.writeV rd ((s.readV rs).map (clipDeviation binary64))))

/-- `IREMAP Vd, Vs` (43_video_stage.md R187). -/
def execIremap (rd rs : VReg) (s : State) : Host.Outcome State Fault Refusal :=
  .next (complete (s.writeV rd (toIre binary64 (ireMin s) (ireScale s) (s.readV rs))))

end Sys2Proof.Machine
end

