-- ==== Sys2Proof/Machine/Stream.lean ====
section
/-!
DEFINITION. The micro-operations that load the block and emit output: LDBLK, EMIT16 (43_video_stage.md R186, R188)
and EMITF (44_audio_stage.md R204).
-/
namespace Sys2Proof.Machine

/-- `LDBLK Vd` (43_video_stage.md R186). -/
def execLdblk (rd : VReg) (s : State) : Host.Outcome State Fault Refusal :=
  .next (complete (s.writeV rd ((s.blk.bytes s.fill).map (sampleOfByte binary64))))

/-- `EMIT16 Vs` (43_video_stage.md R188). The NaN test comes before any push. -/
def execEmit16 (rs : VReg) (s : State) : Host.Outcome State Fault Refusal :=
  .next (match videoCodes binary64 (outputScale s) (s.readV rs) with
    | .error c => raise c s
    | .ok codes => complete (s.emit (codes.flatMap codeBytes) codes.length))

/-- The bytes of one stereo frame, left first (44_audio_stage.md R204). -/
def frameBytes (p : Num64 × Num64) : List Byte :=
  wordBytes (Fp.toBinary32 p.1) ++ wordBytes (Fp.toBinary32 p.2)

/-- The frames of two channels: the shorter one decides (44_audio_stage.md R204). -/
def framesOf (left right : List Num64) : List (Num64 × Num64) := List.zip left right

/-- `EMITF Vs, Vt` (44_audio_stage.md R204). The NaN test covers the emitted samples only. -/
def execEmitf (rs rt : VReg) (s : State) : Host.Outcome State Fault Refusal :=
  let frames := framesOf (s.readV rs) (s.readV rt)
  .next (
    if frames.any (fun p => Fp.isNaN p.1 || Fp.isNaN p.2) then raise .numeric s
    else complete (s.emit (frames.flatMap frameBytes) frames.length))

end Sys2Proof.Machine
end

