-- ==== Sys2Proof/Machine/Dispatch.lean ====
section
/-! DEFINITION. exec: one arm per constructor of Instr, one direct call of its meaning. -/
namespace Sys2Proof.Machine

def exec (i : Instr) (s : State) : Host.Outcome State Fault Refusal :=
  match i with
  -- control (45_sequencer.md)
  | .endProg => Sys2Proof.Machine.execEnd s
  | .skipz cbit => Sys2Proof.Machine.execSkipz cbit s
  | .adv imm => Sys2Proof.Machine.execAdv imm s
  -- stream (43_video_stage.md, 44_audio_stage.md)
  | .ldblk rd => Sys2Proof.Machine.execLdblk rd s
  | .emit16 rs => Sys2Proof.Machine.execEmit16 rs s
  | .emitf rs rt => Sys2Proof.Machine.execEmitf rs rt s
  -- filters and trims (41_filter_datapaths.md, 44_audio_stage.md)
  | .firB rd rs slot => Sys2Proof.Machine.execFirB rd rs slot s
  | .firS rd rs t slot => Sys2Proof.Machine.execFirS rd rs t slot s
  | .iirB rd rs slot => Sys2Proof.Machine.execIirB rd rs slot s
  | .iirS rd rs t slot => Sys2Proof.Machine.execIirS rd rs t slot s
  | .trimh rd rs imm => Sys2Proof.Machine.execTrimh rd rs imm s
  | .trimhk rd rs k slot => Sys2Proof.Machine.execTrimhk rd rs k slot s
  | .decim rd rs imm => Sys2Proof.Machine.execDecim rd rs imm s
  -- demodulator (42_fm_demodulator.md)
  | .anlt rd rs => Sys2Proof.Machine.execAnlt rd rs s
  | .chop rd rs imm => Sys2Proof.Machine.execChop rd rs imm s
  | .angle rd rs => Sys2Proof.Machine.execAngle rd rs s
  | .diff rd rs => Sys2Proof.Machine.execDiff rd rs s
  | .fix0 rd rs => Sys2Proof.Machine.execFix0 rd rs s
  | .unwrap rd rs => Sys2Proof.Machine.execUnwrap rd rs s
  | .sclhz rd rs sel => Sys2Proof.Machine.execSclhz rd rs sel s
  | .wrapc rd rs sel => Sys2Proof.Machine.execWrapc rd rs sel s
  -- levels (43_video_stage.md, 44_audio_stage.md)
  | .subcf rd rs sel => Sys2Proof.Machine.execSubcf rd rs sel s
  | .clipdev rd rs => Sys2Proof.Machine.execClipdev rd rs s
  | .iremap rd rs => Sys2Proof.Machine.execIremap rd rs s

end Sys2Proof.Machine
end

