-- ==== Sys2Proof/Machine/HostPort.lean ====
section
/-!
DEFINITION. The host's side: the register space (10_state.md R25 to R30, R41), the START command and its check
(45_sequencer.md R225, R226), and the host's actions (R240).
-/
namespace Sys2Proof.Machine

/-! ## The register space (10_state.md R27) -/

/-- The value a MemRead returns. CTRL reads 0; CONFIG reads its hard-wired bits as 0; offsets 0x40 and above
read 0. -/
def State.readReg (s : State) (addr : Nat) : BitVec 32 :=
  match addr with
  | 0x04 => s.config &&& configMask
  | 0x08 => s.statusWord
  | 0x0C => s.cause
  | 0x10 => s.remain.extractLsb' 0 32
  | 0x14 => s.remain.extractLsb' 32 32
  | 0x18 => s.total.extractLsb' 0 32
  | 0x1C => s.total.extractLsb' 32 32
  | 0x20 => s.blkidx.extractLsb' 0 32
  | 0x24 => s.blkidx.extractLsb' 32 32
  | 0x28 => s.errBlock.extractLsb' 0 32
  | 0x2C => s.errBlock.extractLsb' 32 32
  | 0x30 => s.errOffset.extractLsb' 0 32
  | 0x34 => s.errOffset.extractLsb' 32 32
  | 0x38 => s.errUpc
  | 0x3C => s.consumed
  | _ => 0

/-! ## START (45_sequencer.md R225, R226) -/

/-- `RomValid(c)`. -/
def State.romValid (s : State) (c : Fin 16) : Bool := (s.cfg.rom.get c).valid

/-- The START check fails: one of the conditions of R226 for the selected mode holds. All raise CONFIG_DESIGN. -/
def State.startFails (s : State) : Bool :=
  if !s.modeAudio then
    if h : s.lpfSel ≤ 4 then
      !s.romValid 0 ||
      !s.romValid ⟨1 + s.lpfSel, by omega⟩ ||
      !s.romValid (if s.deemphAlt then 7 else 6) ||
      (s.notchEn && !s.romValid 8)
    else true
  else !s.romValid 9 || !s.romValid 10 || !s.romValid 11 || !s.romValid 12

/-- The START command in IDLE (R225). -/
def State.start (s : State) : State :=
  if s.startFails then raiseAtStart .configDesign s else { s with ostate := .filling }

/-- The effect of a MemWrite: CTRL, CONFIG and the limit act in IDLE only; every other write is ignored
(10_state.md R25, R26, R27, R41). -/
def State.writeReg (s : State) (addr : Nat) (v : Word) : State :=
  if s.ostate = .idle then
    match addr with
    | 0x00 => if v.getLsbD 0 then s.start else s
    | 0x04 => { s with config := v &&& configMask }
    | 0x10 => { s with remain := s.remain.extractLsb' 32 32 ++ v }
    | 0x14 => { s with remain := v ++ s.remain.extractLsb' 0 32 }
    | _ => s
  else s

/-! ## Actions (45_sequencer.md R240) -/

/-- The form of a register access: 32 bits, aligned to 4 (20_memory.md R68). -/
def accessOk (addr width : Nat) : Bool := decide (width = 4) && decide (addr % 4 = 0)

/-- One host action, atomic. -/
def hostStep (a : HostAction) (s : State) : Host.Outcome State Fault Refusal :=
  match a with
  | .memRead addr width =>
    if accessOk addr width then .next { s with hostRead := some (s.readReg addr) }
    else .refused .accessForm
  | .memWrite addr width v =>
    if accessOk addr width then .next (s.writeReg addr v) else .refused .accessForm
  | .pushByte b => if s.eos then .refused .pushAfterEos else .next { s with inq := s.inq ++ [b] }
  | .setEos => if s.eos then .refused .eosTwice else .next { s with eos := true }
  | .takeByte =>
    match s.outq with
    | [] => .refused .takeFromEmpty
    | b :: rest => .next { s with outq := rest, hostByte := some b }
  | .assertReset => .next s.resetBlock

end Sys2Proof.Machine
end

