-- ==== Sys2Proof/Machine/Sequencer.lean ====
section
/-!
DEFINITION. The agent SEQ: the orchestrator state machine and the micro-operation cycle (45_sequencer.md R216 to
R232).
-/
namespace Sys2Proof.Machine

/-! ## FILLING (45_sequencer.md R227, R228) -/

/-- Entry to PROCESSING (R228). -/
def State.enterProcessing (s : State) : State :=
  { s with
    v := Vector.replicate 8 []
    z := Vector.replicate 2 []
    outcnt := 0
    consumed := 0
    upc := if s.modeAudio then 32 else 0
    ostate := .processing }

/-- One byte from `INQ` into the block buffer (R227 case 3). -/
def State.takeInput (s : State) (b : Byte) (rest : List Byte) : State :=
  { s with inq := rest, blk := s.blk.write s.fill b, fill := s.fill + 1, readcnt := s.readcnt + 1 }

/-- One FILLING step: the first case of R227 that applies. -/
def fillingStep (s : State) : Host.Outcome State Fault Refusal :=
  if s.fill = s.cfg.blockLen then .next s.enterProcessing
  else if s.forceEmpty then .next { s with ostate := .done }
  else match s.inq with
    | b :: rest => .next (s.takeInput b rest)
    | [] => if s.eos then .next { s with ostate := .done } else .fault .blockedOnInput

/-! ## PROCESSING (45_sequencer.md R220) -/

/-- `UPROG[upc]` (20_memory.md R66). -/
def State.fetch (s : State) : Word := s.cfg.uprog.get s.upc.toFin

/-- Fetch, decode, execute. An illegal word raises ILLEGAL_UOP. The meanings advance `upc` themselves. -/
def processingStep (s : State) : Host.Outcome State Fault Refusal :=
  match decode s.fetch with
  | .error _ => .next (raise .illegalUop s)
  | .ok i => exec i s

/-! ## DRAINING (45_sequencer.md R230) -/

/-- The budget after a round: `REMAIN - READCNT` modulo 2^64. -/
def State.budgetAfter (s : State) : BitVec 64 := s.remain - s.readcnt.setWidth 64

/-- The budget step (R230). -/
def drainingStep (s : State) : State :=
  if s.limitEn then
    { s with
      remain := s.budgetAfter
      forceEmpty := s.forceEmpty || budgetNegative s.budgetAfter
      readcnt := 0
      ostate := .filling }
  else { s with readcnt := 0, ostate := .filling }

/-! ## The step of SEQ (45_sequencer.md R216) -/

/-- One step of SEQ. Where none is enabled, the named stop (R242, log entry 10). -/
def seqStep (s : State) : Host.Outcome State Fault Refusal :=
  match s.ostate with
  | .idle => .fault .waitingForStart
  | .filling => fillingStep s
  | .processing => processingStep s
  | .draining => .next (drainingStep s)
  | .done => .fault .runDone
  | .fault => .fault .runAborted

end Sys2Proof.Machine
end

