-- ==== Sys2Proof/Machine/Step.lean ====
section
/-!
DEFINITION. One transition of the system (45_sequencer.md R215): the next entry of `turns` says whose it is; with none
left, SEQ moves.
-/
namespace Sys2Proof.Machine

/-- One transition. -/
def step (s : State) : Host.Outcome State Fault Refusal :=
  match s.turns with
  | [] => seqStep s
  | .seq :: rest => seqStep { s with turns := rest }
  | .host a :: rest => hostStep a { s with turns := rest }

/-- `s` with an instruction's word where the next step fetches: in `UPROG` at `upc`, with the orchestrator in
PROCESSING and no host action first (log entry 17). -/
def State.withFetchWord (s : State) (nbits w : Nat) : State :=
  { s with
    cfg := { s.cfg with uprog := s.cfg.uprog.set s.upc.toNat (BitVec.ofNat 32 (w % 2 ^ nbits)) s.upc.isLt }
    ostate := .processing
    turns := [] }

end Sys2Proof.Machine
end

