-- ==== Sys2Proof/Machine/Exact.lean ====
section
/-!
DEFINITION. The exact reading (00_scope.md R10): the same datapath functions over the real numbers. The machine does
not run it; statements about the exact reading are about this record.
-/
namespace Sys2Proof.Machine

noncomputable section

/-- The integer nearest to a real, a tie to the one of smaller magnitude (00_scope.md R13). -/
def rhzExact (t : ℝ) : Int := if 0 ≤ t then ⌈t - 1 / 2⌉ else ⌊t + 1 / 2⌋

/-- The spectrum weights of the analytic signal of a window of length `N` (42_fm_demodulator.md R165). -/
def spectrumWeight (N k : Nat) : ℝ :=
  if k = 0 then 1 else if 2 * k = N then 1 else if 2 * k < N then 2 else 0

/-- `e^(2πi·k·n/N)`. -/
def rootPower (N k n : Nat) : ℂ := Complex.exp (2 * Real.pi * Complex.I * k * n / N)

/-- The discrete Fourier transform of a real window, `X[k]` (42_fm_demodulator.md R165). -/
def dftExact (w : List ℝ) (k : Nat) : ℂ :=
  ∑ n ∈ Finset.range w.length, (w.getD n 0 : ℂ) * (rootPower w.length k n)⁻¹

/-- `z[n]`, the analytic signal's complex value (42_fm_demodulator.md R165). -/
def analyticValue (w : List ℝ) (n : Nat) : ℂ :=
  (1 / (w.length : ℂ)) *
    ∑ k ∈ Finset.range w.length, (spectrumWeight w.length k : ℂ) * dftExact w k * rootPower w.length k n

/-- `analytic(w)` in the exact reading (42_fm_demodulator.md R165). -/
def analyticExact (w : List ℝ) : List (ℝ × ℝ) :=
  (List.range w.length).map (fun n => ((analyticValue w n).re, (analyticValue w n).im))

/-- The exact reading of the operators (00_scope.md R10, R11). The reals hold no NaN. -/
def exactReals : Numerics ℝ where
  zero := 0
  one := 1
  add := fun a b => a + b
  sub := fun a b => a - b
  mul := fun a b => a * b
  div := fun a b => a / b
  neg := fun a => -a
  abs := fun a => |a|
  lt := fun a b => decide (a < b)
  le := fun a b => decide (a ≤ b)
  eq := fun a b => decide (a = b)
  isNaN := fun _ => false
  ofInt := fun n => (n : ℝ)
  trunc := fun a => ⌊a⌋₊
  rhz := rhzExact
  pi := Real.pi
  twoPi := 2 * Real.pi
  atan2 := fun y x => Complex.arg ⟨x, y⟩
  analytic := analyticExact

/-- The real number that a finite datum is (00_scope.md R9). -/
def realOf (x : Num64) : ℝ :=
  (if Fp.signBit x then -1 else 1) * (Fp.significand x : ℝ) * (2 : ℝ) ^ Fp.ulpExp x

/-- One unit in the last place of binary64 at a real value. -/
def ulpAt (t : ℝ) : ℝ := if t = 0 then (2 : ℝ) ^ (-1074 : ℤ) else (2 : ℝ) ^ max (Int.log 2 |t| - 52) (-1074)

end

end Sys2Proof.Machine
end

