-- ==== Sys2Proof/Safety.lean ====
section
/-!
DEFINITION. The terms in which claims are made: frames, fault entry seen from outside, the machine's invariant, the
rules' own index-by-index readings, the counts of a run, and the premises about the parameters.
-/
namespace Sys2Proof.Machine

/-! ## Frames: what stays from `s` to `t` -/

/-- Every real vector register but `rd`. -/
def KeepsVBut (rd : VReg) (s t : State) : Prop := ∀ j, j ≠ rd → t.readV j = s.readV j
def KeepsV (s t : State) : Prop := ∀ j, t.readV j = s.readV j
def KeepsZBut (rd : ZReg) (s t : State) : Prop := ∀ j, j ≠ rd → t.readZ j = s.readZ j
def KeepsZ (s t : State) : Prop := ∀ j, t.readZ j = s.readZ j
/-- Every filter run-state but number `r`. -/
def KeepsRunsBut (r : RunState) (s t : State) : Prop :=
  ∀ j, j ≠ r → t.readXh j = s.readXh j ∧ t.readYh j = s.readYh j
def KeepsRuns (s t : State) : Prop := ∀ j, t.readXh j = s.readXh j ∧ t.readYh j = s.readYh j
/-- Every byte of the block buffer, and the fill level. -/
def KeepsBlock (s t : State) : Prop := t.fill = s.fill ∧ ∀ a, t.blk.read a = s.blk.read a
def KeepsOutput (s t : State) : Prop := t.outq = s.outq ∧ t.outcnt = s.outcnt
def KeepsCursor (s t : State) : Prop :=
  t.total = s.total ∧ t.blkidx = s.blkidx ∧ t.consumed = s.consumed
/-- The parameters, CONFIG, the budget, the input side and the host's side: nothing a micro-operation can write. -/
def KeepsHostSide (s t : State) : Prop :=
  t.cfg = s.cfg ∧ t.config = s.config ∧ t.remain = s.remain ∧ t.readcnt = s.readcnt ∧
  t.forceEmpty = s.forceEmpty ∧ t.inq = s.inq ∧ t.eos = s.eos ∧ t.turns = s.turns ∧
  t.hostRead = s.hostRead ∧ t.hostByte = s.hostByte
def KeepsFaultRecord (s t : State) : Prop :=
  t.cause = s.cause ∧ t.errBlock = s.errBlock ∧ t.errOffset = s.errOffset ∧ t.errUpc = s.errUpc
/-- Everything outside the registers, the run-states, the output and the cursor. -/
def KeepsRest (s t : State) : Prop :=
  KeepsBlock s t ∧ KeepsHostSide s t ∧ KeepsFaultRecord s t ∧ t.ostate = s.ostate

/-- A completed micro-operation that writes the real register `rd` only; `upc` advances by one. -/
def WritesOnlyV (rd : VReg) (s t : State) : Prop :=
  KeepsVBut rd s t ∧ KeepsZ s t ∧ KeepsRuns s t ∧ KeepsOutput s t ∧ KeepsCursor s t ∧ KeepsRest s t ∧
  t.upc = s.upc + 1

/-- The same for the complex register `rd`. -/
def WritesOnlyZ (rd : ZReg) (s t : State) : Prop :=
  KeepsV s t ∧ KeepsZBut rd s t ∧ KeepsRuns s t ∧ KeepsOutput s t ∧ KeepsCursor s t ∧ KeepsRest s t ∧
  t.upc = s.upc + 1

/-- The same for the real register `rd` and the filter run-state `r`. -/
def WritesOnlyVAndRun (rd : VReg) (r : RunState) (s t : State) : Prop :=
  KeepsVBut rd s t ∧ KeepsZ s t ∧ KeepsRunsBut r s t ∧ KeepsOutput s t ∧ KeepsCursor s t ∧ KeepsRest s t ∧
  t.upc = s.upc + 1

/-- The same for an output micro-operation: only OUTQ and OUTCNT. -/
def WritesOnlyOutput (s t : State) : Prop :=
  KeepsV s t ∧ KeepsZ s t ∧ KeepsRuns s t ∧ KeepsCursor s t ∧ KeepsRest s t ∧ t.upc = s.upc + 1

/-- Fault entry seen from outside (60_exceptions.md R256): the record and OSTATE; every other piece of state keeps
its value, `upc` included. -/
def FaultTaken (code upcRecord : BitVec 32) (s t : State) : Prop :=
  t.cause = code ∧ t.errBlock = s.blkidx ∧ t.errOffset = s.total ∧ t.errUpc = upcRecord ∧ t.ostate = .fault ∧
  t.upc = s.upc ∧ KeepsV s t ∧ KeepsZ s t ∧ KeepsRuns s t ∧ KeepsOutput s t ∧ KeepsCursor s t ∧ KeepsBlock s t ∧
  KeepsHostSide s t

/-! ## The step of SEQ -/

/-- A step of SEQ is enabled (45_sequencer.md R216, R227, R242). -/
def seqEnabled (s : State) : Bool :=
  match s.ostate with
  | .filling => decide (s.fill = s.cfg.blockLen) || s.forceEmpty || !s.inq.isEmpty || s.eos
  | .processing => true
  | .draining => true
  | .idle => false
  | .done => false
  | .fault => false

/-- A run has ended (45_sequencer.md R238). -/
def State.terminal (s : State) : Bool := decide (s.ostate = .done) || decide (s.ostate = .fault)

/-! ## The invariant -/

/-- What holds after every transition: legal parameters, capacities, the block buffer's form and contents, the
counters' bounds, the hard-wired bits, the fault record (10_state.md R21 to R24, R26, R29, R34; 45_sequencer.md
R227, R234; 60_exceptions.md R251). -/
structure StateInv (s : State) : Prop where
  legal : cfgLegal s.cfg = true
  vCapacity : ∀ i, (s.readV i).length ≤ s.cfg.blockLen
  zCapacity : ∀ i, (s.readZ i).length ≤ s.cfg.blockLen
  xhLength : ∀ t, (s.readXh t).length = s.histLen
  yhLength : ∀ t, (s.readYh t).length = s.histLen
  blkCanonical : s.blk.wf
  blkKnown : ∀ j, j < s.fill → (s.blk.read j).isSome = true
  blkBounded : ∀ j, (s.blk.read j).isSome = true → j < s.cfg.blockLen
  fillBound : s.fill ≤ s.cfg.blockLen
  fullInProcessing : s.ostate = .processing → s.fill = s.cfg.blockLen
  roomInDraining : s.ostate = .draining → s.fill < s.cfg.blockLen
  consumedBound : s.consumed.toNat ≤ s.cfg.blockLen
  outcntBound : s.outcnt.toNat ≤ s.cfg.blockLen
  readcntBound : s.readcnt.toNat ≤ s.cfg.blockLen
  readcntFill : s.ostate ≠ .draining → s.readcnt.toNat ≤ s.fill
  configReserved : s.config &&& ~~~configMask = 0
  forceEmptyRoom : s.forceEmpty = true → (s.ostate = .filling ∧ s.fill < s.cfg.blockLen) ∨ s.ostate = .done
  causeRecorded : s.ostate = .fault ↔ s.cause ≠ 0
  causeRange : s.cause.toNat ≤ 6

/-! ## The slot field, read as the rule writes it (40_coefficient_rom.md R123) -/

/-- The slot field `f` names slot `c`. -/
def NamesSlot (s : State) (f : Nat) (c : Fin 16) : Prop :=
  (f ≤ 15 ∧ c.val = f) ∨
  (f = 30 ∧ s.lpfSel ≤ 4 ∧ c.val = 1 + s.lpfSel) ∨
  (f = 31 ∧ c.val = 6 + (if s.deemphAlt then 1 else 0))

/-- The slot field `f` names the slot `c` and the slot is valid (R124). -/
def NamesValidSlot (s : State) (f : Nat) (c : Slot) : Prop :=
  ∃ n, NamesSlot s f n ∧ s.cfg.rom.get n = c ∧ c.valid = true

/-- The five micro-operations that read a slot through the field `f`. -/
def slotReaders (rd rs : VReg) (t : RunState) (k f : Nat) : List Instr :=
  [.firB rd rs f, .firS rd rs t f, .iirB rd rs f, .iirS rd rs t f, .trimhk rd rs k f]

/-- The codes that a micro-operation can raise when it executes (60_exceptions.md R251). -/
def faultCodes : Instr → List (BitVec 32)
  | .endProg => [4]
  | .skipz _ => []
  | .adv _ => [3, 4]
  | .ldblk _ => []
  | .emit16 _ => [5]
  | .emitf _ _ => [5]
  | .firB _ _ _ => [1, 3, 6]
  | .firS _ _ _ _ => [1, 3, 6]
  | .iirB _ _ _ => [1, 3]
  | .iirS _ _ _ _ => [1, 3]
  | .trimh _ _ _ => []
  | .trimhk _ _ _ _ => [1, 3]
  | .decim _ _ _ => [3]
  | .anlt _ _ => []
  | .chop _ _ _ => []
  | .angle _ _ => []
  | .diff _ _ => []
  | .fix0 _ _ => []
  | .unwrap _ _ => []
  | .sclhz _ _ _ => []
  | .wrapc _ _ _ => [2, 5]
  | .subcf _ _ _ => []
  | .clipdev _ _ => []
  | .iremap _ _ => []

/-! ## START and reset, read as the rules write them -/

/-- Slot number `n` of the ROM is not valid. -/
def NotValid (s : State) (n : Nat) : Prop := ∃ c : Fin 16, c.val = n ∧ (s.cfg.rom.get c).valid = false

/-- The START check raises (45_sequencer.md R226): conditions 1 to 5 in video mode, 6 to 9 in audio mode. -/
def StartCheckRaises (s : State) : Prop :=
  (s.modeAudio = false ∧
    (4 < s.lpfSel ∨ NotValid s 0 ∨ NotValid s (1 + s.lpfSel) ∨ NotValid s (6 + (if s.deemphAlt then 1 else 0)) ∨
      (s.notchEn = true ∧ NotValid s 8))) ∨
  (s.modeAudio = true ∧ (NotValid s 9 ∨ NotValid s 10 ∨ NotValid s 11 ∨ NotValid s 12))

/-- The reset table (10_state.md R39), but for the unspecified contents of BLK. -/
def ResetValues (s : State) : Prop :=
  s.ostate = .idle ∧ s.upc = 0 ∧ s.config = 0 ∧ s.remain = 0 ∧ s.total = 0 ∧ s.blkidx = 0 ∧
  s.consumed = 0 ∧ s.outcnt = 0 ∧ s.readcnt = 0 ∧ s.forceEmpty = false ∧
  s.cause = 0 ∧ s.errBlock = 0 ∧ s.errOffset = 0 ∧ s.errUpc = 0 ∧ s.fill = 0 ∧
  (∀ i, s.readV i = []) ∧ (∀ i, s.readZ i = []) ∧
  (∀ t, s.readXh t = List.replicate (s.cfg.ntapMax - 1) 0) ∧
  (∀ t, s.readYh t = List.replicate (s.cfg.ntapMax - 1) 0) ∧
  s.inq = [] ∧ s.outq = [] ∧ s.eos = false

/-! ## The recurrence, read index by index (41_filter_datapaths.md R136) -/

/-- `xin(j)` and `yout(j)`: element `j` of the sequence, or of the history for `j < 0`. -/
def sampleAt (x xh : List Num64) (j : Int) : Num64 :=
  if 0 ≤ j then x.getD j.toNat Fp.posZero else xh.getD (-1 - j).toNat Fp.posZero

/-- The numerator loop. -/
def numeratorSum (b x xh : List Num64) (i : Nat) : Num64 :=
  (List.range b.length).foldl
    (fun acc k => Fp.add acc (Fp.mul (b.getD k Fp.posZero) (sampleAt x xh ((i : Int) - k)))) Fp.posZero

/-- The denominator loop, from the numerator's result. -/
def denominatorSum (a y yh : List Num64) (i : Nat) (acc : Num64) : Num64 :=
  (List.range' 1 (a.length - 1)).foldl
    (fun acc k => Fp.sub acc (Fp.mul (a.getD k Fp.posZero) (sampleAt y yh ((i : Int) - k)))) acc

/-- `(y, xh', yh')` is what `df1(b, a, x, xh, yh)` returns with histories of length `H`. -/
structure Df1Rule (H : Nat) (b a x xh yh y xh' yh' : List Num64) : Prop where
  length : y.length = x.length
  sample : ∀ i, i < x.length → y.getD i Fp.posZero = denominatorSum a y yh i (numeratorSum b x xh i)
  xhLength : xh'.length = H
  yhLength : yh'.length = H
  xhSample : ∀ j, j < H → xh'.getD j Fp.posZero = sampleAt x xh ((x.length : Int) - 1 - j)
  yhSample : ∀ j, j < H → yh'.getD j Fp.posZero = sampleAt y yh ((x.length : Int) - 1 - j)

/-! ## The demodulator's loops, read as the rules write them -/

/-- `q` is `rhz(t)` (00_scope.md R13): an integer nearest to `t`, and of two nearest ones the smaller in magnitude. -/
def IsRhz (t : ℝ) (q : Int) : Prop :=
  ∀ p : Int, |(q : ℝ) - t| ≤ |(p : ℝ) - t| ∧ (|(p : ℝ) - t| = |(q : ℝ) - t| → |q| ≤ |p|)

/-- `q` is the change of the correction at the jump `e` (42_fm_demodulator.md R173). Where the quotient is not finite
the rule gives no `q` (log entry 8). -/
def IsTurnsOf (e : Num64) (q : Int) : Prop :=
  (Fp.isNaN e = true ∨ Fp.le (Fp.abs e) 0x400921FB54442D18 = true → q = 0) ∧
  (Fp.isNaN e = false → Fp.le (Fp.abs e) 0x400921FB54442D18 = false →
    Fp.isFinite (Fp.div e 0x401921FB54442D18) = true → IsRhz (realOf (Fp.div e 0x401921FB54442D18)) q)

/-- One iteration of WRAPC: a sweep down, then a sweep up (42_fm_demodulator.md R176). -/
def sweep {α : Type} (N : Numerics α) (F : α) (s : List α) : List α := sweepUp N F (sweepDown N F s)

/-- `k` iterations. -/
def sweeps {α : Type} (N : Numerics α) (F : α) : Nat → List α → List α
  | 0, s => s
  | k + 1, s => sweeps N F k (sweep N F s)

/-- WRAPC leaves its loop after `k` iterations: no NaN up to then, a violation before, none after. -/
def ConvergesIn {α : Type} (N : Numerics α) (F : α) (k : Nat) (v : List α) : Prop :=
  (∀ j, j ≤ k → (sweeps N F j v).any N.isNaN = false) ∧
  (∀ j, j < k → outOfRange N F (sweeps N F j v) = true) ∧
  outOfRange N F (sweeps N F k v) = false

/-- The sweeps one sample needs in the exact reading (42_fm_demodulator.md R177). -/
noncomputable def sweepsNeeded (F x : ℝ) : Nat :=
  if F < x then ⌈x / F⌉₊ - 1 else if x < 0 then ⌈-x / F⌉₊ else 0

/-- Where those sweeps take it (42_fm_demodulator.md R177). -/
noncomputable def wrappedValue (F x : ℝ) : ℝ :=
  if F < x then x - sweepsNeeded F x * F else if x < 0 then x + sweepsNeeded F x * F else x

/-! ## Output, read as the rules write it -/

/-- The 16-bit code of a scaled sample (43_video_stage.md R188): clipped to [0, 65535], then the fraction dropped. -/
def IsCodeOf (c : Num64) (u : Nat) : Prop :=
  (Fp.isFinite c = true → u = ⌊max 0 (min 65535 (realOf c))⌋₊) ∧
  (Fp.isInf c = true → u = if Fp.signBit c then 0 else 65535)

/-- The low `n` bytes of a number, low byte first (20_memory.md R67). -/
def littleEndian (n v : Nat) : List Byte := (List.range n).map (fun i => BitVec.ofNat 8 (v / 2 ^ (8 * i)))

/-! ## Rounding (00_scope.md R9) -/

/-- `r` is the binary64 datum of the real `x`: never a NaN; infinite exactly from the overflow threshold up; with the
sign of `x` where `x` is not 0; if finite, nearest among the finite data, and on a tie the one whose significand is
even. -/
def RoundsTo (r : Num64) (x : ℝ) : Prop :=
  Fp.isNaN r = false ∧
  (Fp.isInf r = true ↔ (2 : ℝ) ^ (1024 : ℕ) - 2 ^ (970 : ℕ) ≤ |x|) ∧
  (x ≠ 0 → (Fp.signBit r = true ↔ x < 0)) ∧
  (Fp.isFinite r = true →
    (∀ c, Fp.isFinite c = true → |realOf r - x| ≤ |realOf c - x|) ∧
    (∀ c, Fp.isFinite c = true → realOf c ≠ realOf r → |realOf c - x| = |realOf r - x| →
      Fp.significand r % 2 = 0))

/-- The exponent field, the significand and the value of a binary32 pattern. -/
def exponent32 (p : BitVec 32) : Nat := p.toNat / 2 ^ 23 % 2 ^ 8
def significand32 (p : BitVec 32) : Nat :=
  if exponent32 p = 0 then p.toNat % 2 ^ 23 else 2 ^ 23 + p.toNat % 2 ^ 23
noncomputable def realOf32 (p : BitVec 32) : ℝ :=
  (if p.msb then -1 else 1) * (significand32 p : ℝ) * (2 : ℝ) ^ (((max 1 (exponent32 p) : ℕ) : ℤ) - 150)

/-- `p` is the binary32 pattern of the real `x`, read as RoundsTo reads binary64 (00_scope.md R13). -/
def RoundsTo32 (p : BitVec 32) (x : ℝ) : Prop :=
  (exponent32 p = 255 ↔ (2 : ℝ) ^ (128 : ℕ) - 2 ^ (103 : ℕ) ≤ |x|) ∧
  (exponent32 p = 255 → p.toNat % 2 ^ 23 = 0) ∧
  (x ≠ 0 → (p.msb = true ↔ x < 0)) ∧
  (exponent32 p ≠ 255 →
    (∀ c, exponent32 c ≠ 255 → |realOf32 p - x| ≤ |realOf32 c - x|) ∧
    (∀ c, exponent32 c ≠ 255 → realOf32 c ≠ realOf32 p → |realOf32 c - x| = |realOf32 p - x| →
      significand32 p % 2 = 0))

/-! ## Counts of a run, from the parameters alone -/

/-- Length of the demodulator's result for a source of `n` samples (42_fm_demodulator.md R162). -/
def demodLength (hlen n : Nat) : Nat := (min n hlen - 2 * Config.edgeTrim) - 1

/-- The numerator tap count of a slot. -/
def tapCount (c : Cfg) (slot : Fin 16) : Nat := (c.rom.get slot).b.length

/-- Output samples per block of the video program (43_video_stage.md R190). -/
def videoCount (c : Cfg) (deemphAlt : Bool) : Nat :=
  demodLength c.hlen c.blockLen - Config.kDeemp * tapCount c (if deemphAlt then 7 else 6)

/-- Samples of one channel before the last decimation (44_audio_stage.md R209: n1, n4, m, N, f, g). -/
def audioSamples (c : Cfg) (bandPass : Fin 16) : Nat :=
  let n1 := c.blockLen - Config.kRf * tapCount c 9
  let n4 := (n1 + Config.dec1 - 1) / Config.dec1
  demodLength c.hlen (n4 - Config.kAbp * tapCount c bandPass) - Config.tAlpf

/-- Frames per block of the audio program (44_audio_stage.md R209). -/
def audioFrames (c : Cfg) : Nat :=
  min ((audioSamples c 10 + Config.dec2 - 1) / Config.dec2) ((audioSamples c 11 + Config.dec2 - 1) / Config.dec2)

/-- The declared transients in raw samples, for equal band-pass lengths `lb` (44_audio_stage.md R210). -/
def audioTransients (lrf lb : Nat) : Nat :=
  Config.kRf * lrf + Config.dec1 * (lb + Config.edgeTrim + 1 + Config.edgeTrim + Config.tAlpf)

/-- The parameters let a video run (an audio run) make progress (00_scope.md R8). -/
def videoProgresses (c : Cfg) (deemphAlt : Bool) : Bool := decide (1 ≤ videoCount c deemphAlt)
def audioProgresses (c : Cfg) : Bool := decide (1 ≤ audioFrames c)

/-! ## Premises about the parameters that the block does not check -/

/-- Every root of the denominator polynomial lies strictly inside the unit circle (40_coefficient_rom.md R126). -/
def StableSlot (c : Slot) : Prop :=
  ∀ w : ℂ, ((c.a.zipIdx.map (fun p => (realOf p.1 : ℂ) * w ^ (c.a.length - 1 - p.2))).sum = 0) → ‖w‖ < 1

/-- Every valid slot is stable: a premise about the ROM (40_coefficient_rom.md R126). -/
def StableRom (c : Cfg) : Prop := ∀ n, (c.rom.get n).valid = true → StableSlot (c.rom.get n)

/-- The accuracy that 93_implementation_defined.md U1 asks of `atan2_N`: within one unit in the last place. A premise
about the free value (log entry 5). -/
def Atan2Accurate : Prop :=
  ∀ y x, Fp.isFinite y = true → Fp.isFinite x = true → ¬(realOf y = 0 ∧ realOf x = 0) →
    |realOf (Fp.atan2 y x) - Complex.arg ⟨realOf x, realOf y⟩| ≤ ulpAt (Complex.arg ⟨realOf x, realOf y⟩)

end Sys2Proof.Machine
end

