-- ==== Sys2Proof/Certificates/Slice0/Obligations.lean ====
section
/-!
DEFINITION. The statements for the provers. Each docstring names the rules of spec/ that the statement formalises, and
the log entry where it rests on a choice of the model.
-/

open Sys2Proof Sys2Proof.Machine

/-! ## Encoding -/

/-- Every well-formed instruction is read back from its word (30_encoding.md R91, R92, R96, R101). -/
def Obligations.DecodeOfEncodeIsIdentity : Prop :=
  ∀ i : Instr, i.wellFormed = true → decode (encode i) = .ok i

/-- Every word that decodes is the word of what it decodes to: no two words share an instruction and no bit of a
legal word is ignored (30_encoding.md R91, R92, R97). -/
def Obligations.EncodeOfDecodeIsIdentity : Prop :=
  ∀ (w : Word) (i : Instr), decode w = .ok i → i.wellFormed = true ∧ encode i = w

/-- A word decodes to a row's micro-operation exactly when it matches the row; the rows are disjoint; a word that
matches none is illegal (30_encoding.md R96, R101). -/
def Obligations.DecodeAgreesWithOpcodeTable : Prop :=
  (∀ w, ∀ row ∈ opcodeTable,
    (w &&& row.mask = row.pattern ↔ ∃ i, decode w = .ok i ∧ i.mnemonic = row.mnemonic)) ∧
  (∀ w, (∃ e, decode w = .error e) ↔ ∀ row ∈ opcodeTable, w &&& row.mask ≠ row.pattern) ∧
  opcodeTable.Pairwise (fun r q => ∀ w, ¬(w &&& r.mask = r.pattern ∧ w &&& q.mask = q.pattern))

/-- Words written out from the field layout decode to what they stand for (30_encoding.md R91, R96, R99). -/
def Obligations.ExampleWordsDecode : Prop :=
  decode 0x02000002 = .ok (.skipz 2) ∧
  decode 0x12012000 = .ok (.emitf 1 2) ∧
  decode 0x2110000D = .ok (.firS 1 0 0 13) ∧
  decode 0x3111081F = .ok (.trimhk 1 1 64 31) ∧
  decode 0x41000100 = .ok (.chop 0 0 256) ∧
  decode 0x50220001 = .ok (.subcf 2 2 .right) ∧
  decode 0x00000000 = .error .unlistedOp ∧
  decode 0x02000008 = .error .nonzeroField ∧
  decode 0x10800000 = .error .registerClass

/-! ## The step -/

/-- In PROCESSING the step executes the decoded word at `upc`, also when the list of turns names SEQ; the turn is
then used up (45_sequencer.md R220; the list of turns is log entry 11). -/
def Obligations.StepRunsDecodedInstruction : Prop :=
  ∀ (s : State) (i : Instr), s.ostate = .processing → decode (s.cfg.uprog.get s.upc.toFin) = .ok i →
    (s.turns = [] → step s = exec i s) ∧
    (∀ rest, s.turns = .seq :: rest → step s = exec i { s with turns := rest })

/-- An illegal word at `upc` raises ILLEGAL_UOP and changes nothing but the fault record and OSTATE
(30_encoding.md R97, 60_exceptions.md R254). -/
def Obligations.IllegalWordRaisesIllegalUop : Prop :=
  ∀ (s : State) (e : IllegalWord), s.ostate = .processing → s.turns = [] →
    decode (s.cfg.uprog.get s.upc.toFin) = .error e →
    ∃ t, step s = .next t ∧ FaultTaken 3 (s.upc.setWidth 32) s t

/-- The invariant holds after every step, of SEQ or of the host, from every state that meets it: capacities, history
lengths, the block buffer's form and contents, the counters' bounds, CONFIG's hard-wired bits, the fault record
(10_state.md R21 to R24, R26, R29, R34; 45_sequencer.md R227, R234). -/
def Obligations.EveryStepKeepsInvariant : Prop :=
  ∀ s t : State, StateInv s → step s = .next t → StateInv t

/-- The invariant holds after reset, for the hardware's parameters and for every legal record
(10_state.md R39, 70_reset_and_hazards.md R284). -/
def Obligations.InvariantHoldsAtReset : Prop :=
  StateInv State.reset ∧ ∀ c : Cfg, cfgLegal c = true → StateInv (State.resetOf c)

/-- No transition changes the parameters, the ROMs among them (10_state.md R38). -/
def Obligations.StepNeverChangesParameters : Prop :=
  ∀ s t : State, step s = .next t → t.cfg = s.cfg

/-- A step of SEQ is enabled exactly in PROCESSING, in DRAINING and in FILLING unless blocked; elsewhere the step is
a named stop, never a refusal (45_sequencer.md R216, R227, R242; the stops are log entry 10). -/
def Obligations.SeqStepsExactlyWhenEnabled : Prop :=
  ∀ s : State,
    ((∃ t, seqStep s = .next t) ↔
      (s.ostate = .processing ∨ s.ostate = .draining ∨
        (s.ostate = .filling ∧
          (s.fill = s.cfg.blockLen ∨ s.forceEmpty = true ∨ s.inq ≠ [] ∨ s.eos = true)))) ∧
    (s.ostate = .idle → seqStep s = .fault .waitingForStart) ∧
    (s.ostate = .filling → s.fill ≠ s.cfg.blockLen → s.forceEmpty = false → s.inq = [] → s.eos = false →
      seqStep s = .fault .blockedOnInput) ∧
    (s.ostate = .done → seqStep s = .fault .runDone) ∧
    (s.ostate = .fault → seqStep s = .fault .runAborted)

/-- In DONE and in FAULT nothing but reset changes a register, the block buffer or a counter: the host can only move
the queues and read (45_sequencer.md R231, R232; 60_exceptions.md R258). -/
def Obligations.OnlyResetLeavesTerminalStates : Prop :=
  ∀ s : State, s.ostate = .done ∨ s.ostate = .fault →
    (∀ t, seqStep s ≠ .next t) ∧
    (∀ a t, a ≠ .assertReset → hostStep a s = .next t →
      t = { s with inq := t.inq, eos := t.eos, outq := t.outq, hostRead := t.hostRead, hostByte := t.hostByte })

/-- A step of SEQ takes from INQ only its head byte and only in FILLING, appends to OUTQ only in PROCESSING and an
even number of bytes, and leaves the end mark (20_memory.md R62, R63, R68, R72). -/
def Obligations.QueuesMoveOnlyAsTheRulesSay : Prop :=
  ∀ s t : State, seqStep s = .next t →
    t.eos = s.eos ∧
    (t.inq = s.inq ∨ (s.ostate = .filling ∧ ∃ b, s.inq = b :: t.inq)) ∧
    (∃ bytes, t.outq = s.outq ++ bytes ∧ bytes.length % 2 = 0 ∧ (bytes ≠ [] → s.ostate = .processing))

/-- Bytes taken from INQ are in TOTAL or in the buffer: a step of SEQ keeps TOTAL + FILL + the bytes still in INQ,
modulo 2^64. The sentence is 45_sequencer.md R234 (a), which the spec marks as derived from R222 and R227. -/
def Obligations.InputBytesAreConserved : Prop :=
  ∀ s t : State, StateInv s → seqStep s = .next t →
    t.total + BitVec.ofNat 64 (t.fill + t.inq.length) = s.total + BitVec.ofNat 64 (s.fill + s.inq.length)

/-- A host action other than a register read or reset gives the same state before a step of SEQ as after it, so the
interleaving cannot be seen (45_sequencer.md R215, R240; 10_state.md R26). That the output does not depend on the
interleaving is R236, which the spec marks as derived from R216, R227 and R240. -/
def Obligations.HostActionsCommuteWithSeqSteps : Prop :=
  ∀ (a : HostAction) (s s' t : State), a ≠ .assertReset → (∀ addr width, a ≠ .memRead addr width) →
    hostStep a s = .next s' → seqStep s = .next t →
    ∃ u, seqStep s' = .next u ∧ hostStep a t = .next u

/-! ## Whole-machine rules about micro-operations -/

/-- A fault is precise: the faulting micro-operation has written the fault record and OSTATE and nothing else, and
raises only a code that the table gives it (45_sequencer.md R220; 60_exceptions.md R251, R256). -/
def Obligations.FaultsArePrecise : Prop :=
  ∀ (i : Instr) (s t : State), exec i s = .next t → s.ostate = .processing → t.ostate = .fault →
    ∃ code ∈ faultCodes i, FaultTaken code (s.upc.setWidth 32) s t

/-- Control moves by one word, or by two from SKIPZ, and `upc` stays exactly for END and for a fault (10_state.md R32;
45_sequencer.md R222, R239; 60_exceptions.md R256). -/
def Obligations.ControlMovesOnlyForward : Prop :=
  ∀ (i : Instr) (s t : State), exec i s = .next t →
    (t.upc = s.upc + 1 ∨ (t.upc = s.upc + 2 ∧ ∃ cbit, i = .skipz cbit) ∨
      (t.upc = s.upc ∧ (i = .endProg ∨ t.ostate = .fault))) ∧
    (i = .endProg → t.upc = s.upc) ∧
    (s.ostate ≠ .fault → t.ostate = .fault → t.upc = s.upc)

/-- What each store's writers are: no micro-operation reaches the host's side; only END changes the block buffer and
the cursor totals; only FIR.S and IIR.S write a run-state; only ANLT and CHOP write a complex register; only EMIT16
and EMITF reach the output; only ADV writes CONSUMED (10_state.md R22 to R24, R34; 20_memory.md R77; 45_sequencer.md
R243, R244). -/
def Obligations.EachStoreHasOnlyItsWriters : Prop :=
  ∀ (i : Instr) (s t : State), exec i s = .next t →
    KeepsHostSide s t ∧
    ((KeepsBlock s t ∧ t.total = s.total ∧ t.blkidx = s.blkidx) ∨ i = .endProg) ∧
    (KeepsRuns s t ∨ (∃ rd rs r f, i = .firS rd rs r f ∧ KeepsRunsBut r s t) ∨
      (∃ rd rs r f, i = .iirS rd rs r f ∧ KeepsRunsBut r s t)) ∧
    (KeepsZ s t ∨ (∃ rd rs, i = .anlt rd rs ∧ KeepsZBut rd s t) ∨
      (∃ rd rs n, i = .chop rd rs n ∧ KeepsZBut rd s t)) ∧
    (KeepsOutput s t ∨ (∃ rs, i = .emit16 rs) ∨ (∃ rs rt, i = .emitf rs rt)) ∧
    (t.consumed = s.consumed ∨ ∃ n, i = .adv n)

/-! ## The orchestrator (45_sequencer.md) -/

/-- The FILLING step with room in the buffer, case by case (R227 cases 2 to 5); case 3 as a whole with its frame. -/
def Obligations.FillingFollowsItsCases : Prop :=
  ∀ s : State, s.ostate = .filling → s.fill ≠ s.cfg.blockLen →
    (s.forceEmpty = true → seqStep s = .next { s with ostate := .done }) ∧
    (s.forceEmpty = false → s.inq = [] → s.eos = true → seqStep s = .next { s with ostate := .done }) ∧
    (s.forceEmpty = false → s.inq = [] → s.eos = false → ∀ t, seqStep s ≠ .next t) ∧
    (∀ b rest, s.forceEmpty = false → s.inq = b :: rest →
      ∃ t, seqStep s = .next t ∧ t.inq = rest ∧ t.fill = s.fill + 1 ∧ t.readcnt = s.readcnt + 1 ∧
        t.blk.read s.fill = some b ∧ (∀ a, a ≠ s.fill → t.blk.read a = s.blk.read a) ∧
        t = { s with inq := t.inq, fill := t.fill, readcnt := t.readcnt, blk := t.blk })

/-- Entry to PROCESSING when the block is full (R227 case 1, R228): the vector registers are empty, the two counters
0, `upc` at the mode's entry; run-states, block buffer, output, cursor totals and the host's side stay. -/
def Obligations.ProcessingEntryClearsTheRegisters : Prop :=
  ∀ s : State, s.ostate = .filling → s.fill = s.cfg.blockLen →
    ∃ t, seqStep s = .next t ∧ (∀ i, t.readV i = []) ∧ (∀ i, t.readZ i = []) ∧ t.outcnt = 0 ∧ t.consumed = 0 ∧
      t.upc = (if s.config.getLsbD 0 then 32 else 0) ∧ t.ostate = .processing ∧
      KeepsRuns s t ∧ KeepsBlock s t ∧ KeepsHostSide s t ∧ KeepsFaultRecord s t ∧ t.outq = s.outq ∧
      t.total = s.total ∧ t.blkidx = s.blkidx

/-- The budget step (R230, R235): REMAIN falls by READCNT modulo 2^64 when the limit is on, and a negative result sets
FORCE_EMPTY; READCNT is cleared; the state is FILLING; nothing else changes. -/
def Obligations.DrainingTakesTheBudgetStep : Prop :=
  ∀ s : State, s.ostate = .draining →
    (s.config.getLsbD 7 = true →
      ∃ t, seqStep s = .next t ∧ t.remain = s.remain - s.readcnt.setWidth 64 ∧
        (t.forceEmpty = true ↔ (t.remain.toInt < 0 ∨ s.forceEmpty = true)) ∧
        t = { s with remain := t.remain, forceEmpty := t.forceEmpty, readcnt := 0, ostate := .filling }) ∧
    (s.config.getLsbD 7 = false → seqStep s = .next { s with readcnt := 0, ostate := .filling })

/-- START (R225, R226): in IDLE a written bit 0 runs the check of the selected mode's slots; it raises CONFIG_DESIGN
with ERR_UPC 0x7F or goes to FILLING and changes nothing else. In any other state, or with bit 0 clear, the write has
no effect. -/
def Obligations.StartRunsTheCheck : Prop :=
  ∀ (s : State) (v : Word),
    (s.ostate = .idle → v.getLsbD 0 = true → StartCheckRaises s →
      ∃ t, hostStep (.memWrite 0 4 v) s = .next t ∧ FaultTaken 1 0x7F s t) ∧
    (s.ostate = .idle → v.getLsbD 0 = true → ¬StartCheckRaises s →
      hostStep (.memWrite 0 4 v) s = .next { s with ostate := .filling }) ∧
    (s.ostate ≠ .idle ∨ v.getLsbD 0 = false → hostStep (.memWrite 0 4 v) s = .next s)

/-- Register writes other than CTRL (10_state.md R26, R27, R41): in IDLE, CONFIG takes its eight bits and each LIMIT
half its half of REMAIN; everything else, and every write outside IDLE, is ignored. -/
def Obligations.HostWritesFollowTheMap : Prop :=
  ∀ (s : State) (v : Word),
    (s.ostate = .idle → hostStep (.memWrite 0x04 4 v) s = .next { s with config := v &&& 0x000000FF }) ∧
    (s.ostate = .idle → ∃ t, hostStep (.memWrite 0x10 4 v) s = .next t ∧ t.remain.extractLsb' 0 32 = v ∧
      t.remain.extractLsb' 32 32 = s.remain.extractLsb' 32 32 ∧ t = { s with remain := t.remain }) ∧
    (s.ostate = .idle → ∃ t, hostStep (.memWrite 0x14 4 v) s = .next t ∧ t.remain.extractLsb' 32 32 = v ∧
      t.remain.extractLsb' 0 32 = s.remain.extractLsb' 0 32 ∧ t = { s with remain := t.remain }) ∧
    (∀ addr, addr % 4 = 0 → addr ∉ [0x00, 0x04, 0x10, 0x14] → hostStep (.memWrite addr 4 v) s = .next s) ∧
    (∀ addr, addr % 4 = 0 → s.ostate ≠ .idle → hostStep (.memWrite addr 4 v) s = .next s)

/-- Register reads (10_state.md R25 to R30): an aligned read gives the register's value and changes nothing but what
the host has read; a 64-bit register is its high half then its low half; STATUS holds OSTATE's code and FORCE_EMPTY.
Outside the sixteen registers a read gives 0. -/
def Obligations.HostReadsFollowTheMap : Prop :=
  ∀ s : State, StateInv s →
    (∀ addr, addr % 4 = 0 →
      hostStep (.memRead addr 4) s = .next { s with hostRead := some (s.readReg addr) }) ∧
    s.readReg 0x00 = 0 ∧ s.readReg 0x04 = s.config ∧
    (s.readReg 0x08).extractLsb' 0 3 =
      (match s.ostate with
        | .idle => 0 | .filling => 1 | .processing => 2 | .draining => 3 | .done => 4 | .fault => 5) ∧
    (s.readReg 0x08).getLsbD 3 = s.forceEmpty ∧ (s.readReg 0x08).extractLsb' 4 28 = 0 ∧
    s.readReg 0x0C = s.cause ∧
    s.readReg 0x14 ++ s.readReg 0x10 = s.remain ∧ s.readReg 0x1C ++ s.readReg 0x18 = s.total ∧
    s.readReg 0x24 ++ s.readReg 0x20 = s.blkidx ∧ s.readReg 0x2C ++ s.readReg 0x28 = s.errBlock ∧
    s.readReg 0x34 ++ s.readReg 0x30 = s.errOffset ∧
    s.readReg 0x38 = s.errUpc ∧ s.readReg 0x3C = s.consumed ∧
    (∀ addr, 0x40 ≤ addr → s.readReg addr = 0)

/-- The queue actions (R240): a push appends, the end mark is set once, a take removes the head. What the host must
not do the model does not offer (R297; the refusals are log entry 12). -/
def Obligations.QueueActionsFollowTheTable : Prop :=
  ∀ s : State,
    (s.eos = false → ∀ b, hostStep (.pushByte b) s = .next { s with inq := s.inq ++ [b] }) ∧
    (s.eos = false → hostStep .setEos s = .next { s with eos := true }) ∧
    (∀ b rest, s.outq = b :: rest →
      hostStep .takeByte s = .next { s with outq := rest, hostByte := some b }) ∧
    (s.eos = true → ∀ b, hostStep (.pushByte b) s = .refused .pushAfterEos) ∧
    (s.eos = true → hostStep .setEos s = .refused .eosTwice) ∧
    (s.outq = [] → hostStep .takeByte s = .refused .takeFromEmpty) ∧
    (∀ addr width v, width ≠ 4 ∨ addr % 4 ≠ 0 →
      hostStep (.memRead addr width) s = .refused .accessForm ∧
      hostStep (.memWrite addr width v) s = .refused .accessForm)

/-! ## Reset -/

/-- The machine after reset has the values of the table, with the normative micro-program ROM (10_state.md R39;
20_memory.md R66). -/
def Obligations.ResetGivesTheTableValues : Prop :=
  ResetValues State.reset ∧ State.reset.cfg.uprog.toList = uprogWords

/-- Reset from any state (70_reset_and_hazards.md R280 to R282): the table's values, the parameters as before. That
the turns still to come and what the host has received stay is the model's choice (log entry 14). -/
def Obligations.ResetActionGivesTheTableValues : Prop :=
  ∀ s : State, ∃ t, hostStep .assertReset s = .next t ∧ ResetValues t ∧ t.cfg = s.cfg ∧ t.turns = s.turns ∧
    t.hostRead = s.hostRead ∧ t.hostByte = s.hostByte

/-! ## Control micro-operations (45_sequencer.md) -/

/-- SKIPZ (R221): `upc` moves by two when the bit of CONFIG is 0, else by one; nothing else changes. -/
def Obligations.SkipzTestsOneConfigBit : Prop :=
  ∀ (cbit : Fin 8) (s : State), ∃ t, exec (.skipz cbit) s = .next t ∧
    t.upc = (if s.config.getLsbD cbit.val then s.upc + 1 else s.upc + 2) ∧
    KeepsV s t ∧ KeepsZ s t ∧ KeepsRuns s t ∧ KeepsOutput s t ∧ KeepsCursor s t ∧ KeepsRest s t

/-- ADV (R223): CONSUMED is the product of naturals, if it is 1 to B; a zero multiplier raises ILLEGAL_UOP; a product
of 0 or above B raises GEOMETRY. -/
def Obligations.AdvReportsTheConsumedCount : Prop :=
  ∀ (imm : Nat) (s : State), cfgLegal s.cfg = true →
    (1 ≤ imm * s.outcnt.toNat → imm * s.outcnt.toNat ≤ s.cfg.blockLen →
      ∃ t, exec (.adv imm) s = .next t ∧ t.consumed.toNat = imm * s.outcnt.toNat ∧ t.upc = s.upc + 1 ∧
        t.total = s.total ∧ t.blkidx = s.blkidx ∧
        KeepsV s t ∧ KeepsZ s t ∧ KeepsRuns s t ∧ KeepsOutput s t ∧ KeepsRest s t) ∧
    (imm = 0 → ∃ t, exec (.adv imm) s = .next t ∧ FaultTaken 3 (s.upc.setWidth 32) s t) ∧
    (imm ≠ 0 → imm * s.outcnt.toNat = 0 ∨ s.cfg.blockLen < imm * s.outcnt.toNat →
      ∃ t, exec (.adv imm) s = .next t ∧ FaultTaken 4 (s.upc.setWidth 32) s t)

/-- END (R222, R229): the newest B - c bytes move to the front; FILL, TOTAL, BLKIDX and OSTATE follow; `upc` and all
else stay. With CONSUMED = 0 it raises GEOMETRY. That every byte at B - c and above stays is the model's choice (log
entry 23, DEDUCED; 10_state.md R24 calls those bytes unspecified). -/
def Obligations.EndSlidesTheBlock : Prop :=
  ∀ s : State,
    (s.consumed ≠ 0 → s.consumed.toNat ≤ s.cfg.blockLen →
      ∃ t, exec .endProg s = .next t ∧
        (∀ j, j < s.cfg.blockLen - s.consumed.toNat → t.blk.read j = s.blk.read (j + s.consumed.toNat)) ∧
        (∀ j, s.cfg.blockLen - s.consumed.toNat ≤ j → t.blk.read j = s.blk.read j) ∧
        t.fill = s.cfg.blockLen - s.consumed.toNat ∧ t.total = s.total + s.consumed.setWidth 64 ∧
        t.blkidx = s.blkidx + 1 ∧ t.ostate = .draining ∧ t.upc = s.upc ∧ t.consumed = s.consumed ∧
        KeepsV s t ∧ KeepsZ s t ∧ KeepsRuns s t ∧ KeepsOutput s t ∧ KeepsHostSide s t ∧ KeepsFaultRecord s t) ∧
    (s.consumed = 0 → ∃ t, exec .endProg s = .next t ∧ FaultTaken 4 (s.upc.setWidth 32) s t)

/-! ## Load and emit (43_video_stage.md, 44_audio_stage.md) -/

/-- LDBLK (R186): FILL samples; where the buffer holds a byte, the sample is that number exactly, as a non-negative
finite datum. -/
def Obligations.LdblkLoadsTheBytesExactly : Prop :=
  ∀ (rd : VReg) (s : State), ∃ t, exec (.ldblk rd) s = .next t ∧ WritesOnlyV rd s t ∧
    (t.readV rd).length = s.fill ∧
    (∀ j b, j < s.fill → s.blk.read j = some b →
      ∃ x, (t.readV rd)[j]? = some x ∧ Fp.isFinite x = true ∧ Fp.signBit x = false ∧ realOf x = (b.toNat : ℝ))

/-- EMIT16 (R188): without a NaN among the scaled samples, two bytes a sample, low byte first, of the clipped and
truncated code, all in one step; with one, NUMERIC before any byte. OUTCNT as a count modulo 2^32 is the model's choice
(log entry 16). -/
def Obligations.Emit16PushesClippedCodes : Prop :=
  ∀ (rs : VReg) (s : State), let scale := s.cfg.outScale.get (if s.config.getLsbD 3 then 1 else 0)
    ((∀ x ∈ s.readV rs, Fp.isNaN (Fp.mul x scale) = false) →
      ∃ t, ∃ codes : List Nat, exec (.emit16 rs) s = .next t ∧ WritesOnlyOutput s t ∧
        codes.length = (s.readV rs).length ∧
        (∀ (i : Nat) (x : Num64) (u : Nat), (s.readV rs)[i]? = some x → codes[i]? = some u →
          IsCodeOf (Fp.mul x scale) u) ∧
        t.outq = s.outq ++ codes.flatMap (littleEndian 2) ∧
        t.outcnt = BitVec.ofNat 32 (s.readV rs).length) ∧
    ((∃ x ∈ s.readV rs, Fp.isNaN (Fp.mul x scale) = true) →
      ∃ t, exec (.emit16 rs) s = .next t ∧ FaultTaken 5 (s.upc.setWidth 32) s t)

/-- EMITF (R204): the first `n` samples of both channels, `n` the shorter length, left then right, each the binary32
pattern low byte first; a NaN among them raises NUMERIC before any byte. OUTCNT as a count modulo 2^32 is the model's
choice (log entry 16). -/
def Obligations.EmitfPushesStereoFrames : Prop :=
  ∀ (rs rt : VReg) (s : State), let n := min (s.readV rs).length (s.readV rt).length
    ((∀ x ∈ (s.readV rs).take n ++ (s.readV rt).take n, Fp.isNaN x = false) →
      ∃ t, exec (.emitf rs rt) s = .next t ∧ WritesOnlyOutput s t ∧ t.outcnt = BitVec.ofNat 32 n ∧
        t.outq.length = s.outq.length + 8 * n ∧ t.outq.take s.outq.length = s.outq ∧
        (∀ (i : Nat) (x y : Num64), i < n → (s.readV rs)[i]? = some x → (s.readV rt)[i]? = some y →
          (t.outq.drop (s.outq.length + 8 * i)).take 8 =
            littleEndian 4 (Fp.toBinary32 x).toNat ++ littleEndian 4 (Fp.toBinary32 y).toNat)) ∧
    ((∃ x ∈ (s.readV rs).take n ++ (s.readV rt).take n, Fp.isNaN x = true) →
      ∃ t, exec (.emitf rs rt) s = .next t ∧ FaultTaken 5 (s.upc.setWidth 32) s t)

/-! ## Filters and trims (40_coefficient_rom.md, 41_filter_datapaths.md, 44_audio_stage.md) -/

/-- FIR.B and IIR.B on a valid slot (R136 to R138, R140): the recurrence from the rest state; FIR.B wants a slot of
FIR kind. -/
def Obligations.BlockFiltersFollowTheRecurrence : Prop :=
  ∀ (rd rs : VReg) (f : Nat) (s : State) (c : Slot), NamesValidSlot s f c →
    let H := s.cfg.ntapMax - 1
    let rest := List.replicate H (0x0000000000000000 : Num64)
    (∃ t xh yh, exec (.iirB rd rs f) s = .next t ∧ WritesOnlyV rd s t ∧
      Df1Rule H c.b c.a (s.readV rs) rest rest (t.readV rd) xh yh) ∧
    (c.a.length = 1 → ∃ t xh yh, exec (.firB rd rs f) s = .next t ∧ WritesOnlyV rd s t ∧
      Df1Rule H c.b [Fp.one] (s.readV rs) rest rest (t.readV rd) xh yh)

/-- FIR.S and IIR.S on a valid slot (R136, R139, R141): the recurrence from run-state `r`, which is left holding the
newest inputs and outputs. -/
def Obligations.StreamFiltersFollowTheRecurrence : Prop :=
  ∀ (rd rs : VReg) (r : RunState) (f : Nat) (s : State) (c : Slot), NamesValidSlot s f c →
    let H := s.cfg.ntapMax - 1
    (∃ t, exec (.iirS rd rs r f) s = .next t ∧ WritesOnlyVAndRun rd r s t ∧
      Df1Rule H c.b c.a (s.readV rs) (s.readXh r) (s.readYh r) (t.readV rd) (t.readXh r) (t.readYh r)) ∧
    (c.a.length = 1 → ∃ t, exec (.firS rd rs r f) s = .next t ∧ WritesOnlyVAndRun rd r s t ∧
      Df1Rule H c.b [Fp.one] (s.readV rs) (s.readXh r) (s.readYh r) (t.readV rd) (t.readXh r) (t.readYh r))

/-- The faults of the slot field, for all five micro-operations that have one (R123, R124, R138, R139; 30_encoding.md
R102): reserved fields ILLEGAL_UOP; the low-pass selector above 4 and an invalid slot CONFIG_DESIGN; FIR.B and FIR.S on
a valid slot of IIR kind SLOT_KIND. -/
def Obligations.SlotFieldFaults : Prop :=
  ∀ (rd rs : VReg) (r : RunState) (k f : Nat) (s : State), ∀ i ∈ slotReaders rd rs r k f,
    (16 ≤ f → f ≤ 29 → ∃ t, exec i s = .next t ∧ FaultTaken 3 (s.upc.setWidth 32) s t) ∧
    (f = 30 → 4 < s.lpfSel → ∃ t, exec i s = .next t ∧ FaultTaken 1 (s.upc.setWidth 32) s t) ∧
    (∀ n, NamesSlot s f n → (s.cfg.rom.get n).valid = false →
      ∃ t, exec i s = .next t ∧ FaultTaken 1 (s.upc.setWidth 32) s t) ∧
    (∀ c, NamesValidSlot s f c → c.a.length ≠ 1 → i = .firB rd rs f ∨ i = .firS rd rs r f →
      ∃ t, exec i s = .next t ∧ FaultTaken 6 (s.upc.setWidth 32) s t)

/-- Streaming over two blocks with carried histories is streaming over their concatenation, bit for bit, in every
reading of the operators. The sentence is 41_filter_datapaths.md R144, which the spec marks as derived from R136. The
histories hold NTAP_MAX - 1 values, so they reach every tap. -/
def Obligations.StreamingContinuesAcrossBlocks : Prop :=
  ∀ (α : Type) (N : Numerics α) (H : Nat) (b a x1 x2 xh yh : List α),
    b.length ≤ H + 1 → a.length ≤ H + 1 → xh.length = H → yh.length = H →
    let r1 := df1 N H b a x1 xh yh
    let r2 := df1 N H b a x2 r1.2.1 r1.2.2
    let r := df1 N H b a (x1 ++ x2) xh yh
    r.1 = r1.1 ++ r2.1 ∧ r.2.1 = r2.2.1 ∧ r.2.2 = r2.2.2

/-- On a valid slot of FIR kind the IIR forms do exactly what the FIR forms do, and block mode gives the output that
streaming gives from the rest state. The sentences are R145 and R146, which the spec marks as derived from R136 to
R138 and R140. -/
def Obligations.FirIsTheSpecialCase : Prop :=
  ∀ (rd rs : VReg) (r : RunState) (f : Nat) (s : State) (c : Slot), NamesValidSlot s f c → c.a.length = 1 →
    exec (.iirB rd rs f) s = exec (.firB rd rs f) s ∧
    exec (.iirS rd rs r f) s = exec (.firS rd rs r f) s ∧
    (s.readXh r = List.replicate (s.cfg.ntapMax - 1) 0 → s.readYh r = List.replicate (s.cfg.ntapMax - 1) 0 →
      ∃ t u, exec (.firB rd rs f) s = .next t ∧ exec (.firS rd rs r f) s = .next u ∧ t.readV rd = u.readV rd)

/-- TRIMH (R142): sample `j` of the result is sample `imm + j` of the source. -/
def Obligations.TrimhDropsTheFirstSamples : Prop :=
  ∀ (rd rs : VReg) (imm : Nat) (s : State), ∃ t, exec (.trimh rd rs imm) s = .next t ∧ WritesOnlyV rd s t ∧
    (t.readV rd).length = (s.readV rs).length - imm ∧ ∀ j, (t.readV rd)[j]? = (s.readV rs)[imm + j]?

/-- TRIMHK on a valid slot (R143): as TRIMH with `k` times the numerator tap count. -/
def Obligations.TrimhkDropsFilterLengths : Prop :=
  ∀ (rd rs : VReg) (k f : Nat) (s : State) (c : Slot), NamesValidSlot s f c →
    ∃ t, exec (.trimhk rd rs k f) s = .next t ∧ WritesOnlyV rd s t ∧
      (t.readV rd).length = (s.readV rs).length - k * c.b.length ∧
      ∀ j, (t.readV rd)[j]? = (s.readV rs)[k * c.b.length + j]?

/-- DECIM (R201): sample `j` of the result is sample `imm * j` of the source, as many as there are; a zero factor
raises ILLEGAL_UOP. -/
def Obligations.DecimKeepsEveryNthSample : Prop :=
  ∀ (rd rs : VReg) (imm : Nat) (s : State),
    (1 ≤ imm → ∃ t, exec (.decim rd rs imm) s = .next t ∧ WritesOnlyV rd s t ∧
      (t.readV rd).length = ((s.readV rs).length + imm - 1) / imm ∧
      ∀ j, (t.readV rd)[j]? = (s.readV rs)[imm * j]?) ∧
    (imm = 0 → ∃ t, exec (.decim rd rs imm) s = .next t ∧ FaultTaken 3 (s.upc.setWidth 32) s t)

/-! ## The demodulator (42_fm_demodulator.md) -/

/-- ANLT (R164): as many pairs as the bounded window has samples, the numerics record's analytic signal of that
window, with the windows of 0 and 1 samples as the rule gives them. The record's values are free (log entry 6). -/
def Obligations.AnltTakesTheBoundedWindow : Prop :=
  ∀ (rd : ZReg) (rs : VReg) (s : State), let w := (s.readV rs).take s.cfg.hlen
    ∃ t, exec (.anlt rd rs) s = .next t ∧ WritesOnlyZ rd s t ∧
      t.readZ rd = Fp.analytic w ∧ (t.readZ rd).length = min (s.readV rs).length s.cfg.hlen ∧
      (w = [] → t.readZ rd = []) ∧ (∀ x, w = [x] → t.readZ rd = [(x, 0x0000000000000000)])

/-- CHOP (R166): pair `j` of the result is pair `imm + j` of the source, up to `imm` pairs before its end. -/
def Obligations.ChopDropsBothEnds : Prop :=
  ∀ (rd rs : ZReg) (imm : Nat) (s : State), ∃ t, exec (.chop rd rs imm) s = .next t ∧ WritesOnlyZ rd s t ∧
    (t.readZ rd).length = (s.readZ rs).length - 2 * imm ∧
    ∀ j, imm + j < (s.readZ rs).length - imm → (t.readZ rd)[j]? = (s.readZ rs)[imm + j]?

/-- ANGLE (R170): the angle of each pair, with the rule's cases in its order; a NaN component gives a NaN. The value of
`atan2_N` is free inside its obligations (log entry 5). -/
def Obligations.AngleFollowsItsCases : Prop :=
  ∀ (rd : VReg) (rs : ZReg) (s : State), ∃ t, exec (.angle rd rs) s = .next t ∧ WritesOnlyV rd s t ∧
    (t.readV rd).length = (s.readZ rs).length ∧
    ∀ (i : Nat) (re im p : Num64), (s.readZ rs)[i]? = some (re, im) → (t.readV rd)[i]? = some p →
      let zero := (0x0000000000000000 : Num64)
      let allZero := Fp.eq re zero = true ∧ Fp.eq im zero = true
      let negReal := Fp.eq im zero = true ∧ Fp.lt re zero = true
      let q := Fp.atan2 im re
      (allZero → p = zero) ∧ (negReal → p = Fp.pi) ∧
      (¬allZero → ¬negReal → Fp.eq q (Fp.neg Fp.pi) = true → p = Fp.pi) ∧
      (¬allZero → ¬negReal → Fp.eq q (Fp.neg Fp.pi) = false → p = q) ∧
      (Fp.isNaN re = true ∨ Fp.isNaN im = true → Fp.isNaN p = true)

/-- Every angle of a pair without a NaN, an infinite component or not, lies in (-PI, PI] (R170), whatever the free value
of `atan2_N` is (log entry 5). -/
def Obligations.AnglesLieInTheHalfOpenRange : Prop :=
  ∀ (rd : VReg) (rs : ZReg) (s t : State), exec (.angle rd rs) s = .next t →
    ∀ (i : Nat) (re im p : Num64), (s.readZ rs)[i]? = some (re, im) → (t.readV rd)[i]? = some p →
      Fp.isNaN re = false → Fp.isNaN im = false →
      Fp.isFinite p = true ∧ realOf (Fp.neg Fp.pi) < realOf p ∧ realOf p ≤ realOf Fp.pi

/-- DIFF (R171): the difference of each sample and the one before it, one fewer than the source. -/
def Obligations.DiffSubtractsNeighbours : Prop :=
  ∀ (rd rs : VReg) (s : State), ∃ t, exec (.diff rd rs) s = .next t ∧ WritesOnlyV rd s t ∧
    (t.readV rd).length = (s.readV rs).length - 1 ∧
    ∀ (i : Nat) (x y : Num64), (s.readV rs)[i]? = some x → (s.readV rs)[i + 1]? = some y →
      (t.readV rd)[i]? = some (Fp.sub y x)

/-- FIX0 (R172): only the first sample can change, by one turn, and only when it is strictly below -PI. -/
def Obligations.Fix0CorrectsTheFirstOnly : Prop :=
  ∀ (rd rs : VReg) (s : State), ∃ t, exec (.fix0 rd rs) s = .next t ∧ WritesOnlyV rd s t ∧
    (t.readV rd).length = (s.readV rs).length ∧
    (∀ i, i ≠ 0 → (t.readV rd)[i]? = (s.readV rs)[i]?) ∧
    (∀ x, (s.readV rs)[0]? = some x →
      (t.readV rd)[0]? =
        some (if Fp.lt x (Fp.neg 0x400921FB54442D18) then Fp.add x 0x401921FB54442D18 else x))

/-- UNWRAP (R173): element `i` less the turns that the jumps up to `i` add, by one multiplication and one subtraction.
Jump `j` adds `q j`: none when it is NaN or at most PI in magnitude, otherwise the integer nearest to the jump in turns, a
tie to the smaller magnitude; for a quotient that is not finite the rule gives no `q` (log entry 8). `num(Q)` is exact
below 2^53 (00_scope.md R13), and beyond it the model's choice (log entry 7). -/
def Obligations.UnwrapAppliesTheAccumulatedTurns : Prop :=
  ∀ (rd rs : VReg) (s : State), ∃ t, exec (.unwrap rd rs) s = .next t ∧ WritesOnlyV rd s t ∧
    (t.readV rd).length = (s.readV rs).length ∧
    ∃ q : Nat → Int,
      (∀ (j : Nat) (x y : Num64), (s.readV rs)[j]? = some x → (s.readV rs)[j + 1]? = some y →
        IsTurnsOf (Fp.sub y x) (q j)) ∧
      ∀ (i : Nat) (d : Num64), (s.readV rs)[i]? = some d →
        let Q := ((List.range i).map q).sum
        (t.readV rd)[i]? = some (Fp.sub d (Fp.mul (Fp.ofInt Q) 0x401921FB54442D18)) ∧
        (Q.natAbs < 2 ^ 53 → Fp.isFinite (Fp.ofInt Q) = true ∧ realOf (Fp.ofInt Q) = (Q : ℝ))

/-- In the exact reading consecutive results of the unwrap differ by at most half a turn, and every element has moved
by whole turns (R173). -/
def Obligations.ExactUnwrapBoundsTheJumps : Prop :=
  ∀ d : List ℝ,
    (∀ (i : Nat) (x y : ℝ), (unwrapSeq exactReals d)[i]? = some x → (unwrapSeq exactReals d)[i + 1]? = some y →
      |y - x| ≤ Real.pi) ∧
    (∀ (i : Nat) (x : ℝ), d[i]? = some x → ∃ m : ℤ, (unwrapSeq exactReals d)[i]? = some (x - 2 * Real.pi * m)) ∧
    (unwrapSeq exactReals d)[0]? = d[0]?

/-- SCLHZ (R174, R175): every sample times the one gain, the full or the quarter carrier scale over one turn. -/
def Obligations.SclhzAppliesOneGain : Prop :=
  ∀ (rd rs : VReg) (sel : Scale) (s : State), ∃ t, exec (.sclhz rd rs sel) s = .next t ∧ WritesOnlyV rd s t ∧
    t.readV rd = (s.readV rs).map (fun x =>
      Fp.mul x (Fp.div (match sel with
        | .full => s.cfg.fC
        | .quarter => Fp.div s.cfg.fC (Fp.ofInt 4)) 0x401921FB54442D18))

/-- WRAPC (R175, R176): the first sweep count without a violation decides the result; a NaN met before it raises
NUMERIC; a violation still there after WRAP_ITER_MAX sweeps raises DECODE_NONCONVERGE. -/
def Obligations.WrapcFollowsItsLoop : Prop :=
  ∀ (rd rs : VReg) (sel : Scale) (s : State),
    let F := match sel with
      | .full => s.cfg.fC
      | .quarter => Fp.div s.cfg.fC (Fp.ofInt 4)
    let v := s.readV rs
    (∀ k, k ≤ s.cfg.wrapIterMax → ConvergesIn binary64 F k v →
      ∃ t, exec (.wrapc rd rs sel) s = .next t ∧ WritesOnlyV rd s t ∧ t.readV rd = sweeps binary64 F k v) ∧
    (∀ k, k ≤ s.cfg.wrapIterMax →
      (∀ j, j < k → (sweeps binary64 F j v).any Fp.isNaN = false ∧
        outOfRange binary64 F (sweeps binary64 F j v) = true) →
      (sweeps binary64 F k v).any Fp.isNaN = true →
      ∃ t, exec (.wrapc rd rs sel) s = .next t ∧ FaultTaken 5 (s.upc.setWidth 32) s t) ∧
    ((∀ j, j ≤ s.cfg.wrapIterMax → (sweeps binary64 F j v).any Fp.isNaN = false ∧
        outOfRange binary64 F (sweeps binary64 F j v) = true) →
      ∃ t, exec (.wrapc rd rs sel) s = .next t ∧ FaultTaken 2 (s.upc.setWidth 32) s t)

/-- After a WRAPC that does not fault every sample of the result lies in the closed range from 0 to the carrier scale.
The sentence is R178, which the spec marks as derived from R176. -/
def Obligations.WrapcResultIsInRange : Prop :=
  ∀ (rd rs : VReg) (sel : Scale) (s t : State), cfgLegal s.cfg = true → exec (.wrapc rd rs sel) s = .next t →
    s.ostate = .processing → t.ostate ≠ .fault →
    let F := match sel with
      | .full => s.cfg.fC
      | .quarter => Fp.div s.cfg.fC (Fp.ofInt 4)
    ∀ x ∈ t.readV rd, Fp.isFinite x = true ∧ 0 ≤ realOf x ∧ realOf x ≤ realOf F

/-- WRAPC in the exact reading, sample by sample: it converges exactly when no sample needs more sweeps than the cap,
and then each sample has moved by that many carrier scales. The sentences are R177, which the spec marks as derived
from R176. -/
def Obligations.ExactWrapcHasAClosedForm : Prop :=
  ∀ (F : ℝ) (cap : Nat) (v : List ℝ), 0 < F →
    ((∀ x ∈ v, sweepsNeeded F x ≤ cap) → wrapCorrect exactReals F cap v = .ok (v.map (wrappedValue F))) ∧
    ((∃ x ∈ v, cap < sweepsNeeded F x) → wrapCorrect exactReals F cap v = .error .decodeNonconverge) ∧
    (∀ x ∈ v, (0 ≤ x → x ≤ F → wrappedValue F x = x) ∧ (F < x → 0 < wrappedValue F x ∧ wrappedValue F x ≤ F) ∧
      (x < 0 → 0 ≤ wrappedValue F x ∧ wrappedValue F x < F))

/-- In the exact reading the real part of the analytic signal is the window, and the pairs are as many as the samples
(R165). -/
def Obligations.ExactAnalyticKeepsTheWindow : Prop :=
  ∀ w : List ℝ, (exactReals.analytic w).map Prod.fst = w

/-! ## Levels (43_video_stage.md, 44_audio_stage.md) -/

/-- SUBCF (R202): the selected channel's centre frequency taken from every sample. -/
def Obligations.SubcfSubtractsTheCentre : Prop :=
  ∀ (rd rs : VReg) (sel : Channel) (s : State), ∃ t, exec (.subcf rd rs sel) s = .next t ∧ WritesOnlyV rd s t ∧
    t.readV rd = (s.readV rs).map (fun x =>
      Fp.sub x (s.cfg.audCenter.get (match sel with | .left => 0 | .right => 1)))

/-- CLIPDEV (R203): a finite sample goes to the nearest number of the closed range of ±150000 and stays as it is
inside; an infinity goes to its end; a NaN stays. -/
def Obligations.ClipdevClipsToTheDeviation : Prop :=
  ∀ (rd rs : VReg) (s : State), ∃ t, exec (.clipdev rd rs) s = .next t ∧ WritesOnlyV rd s t ∧
    (t.readV rd).length = (s.readV rs).length ∧
    ∀ (i : Nat) (x y : Num64), (s.readV rs)[i]? = some x → (t.readV rd)[i]? = some y →
      (Fp.isFinite x = true → Fp.isFinite y = true ∧ realOf y = max (-150000) (min 150000 (realOf x)) ∧
        (|realOf x| ≤ 150000 → y = x)) ∧
      (Fp.isInf x = true → Fp.isFinite y = true ∧ realOf y = if Fp.signBit x then -150000 else 150000) ∧
      (Fp.isNaN x = true → y = x)

/-- IREMAP (R187): each sample less the bottom of the IRE range that CONFIG.WIDE selects, divided by its scale. -/
def Obligations.IremapMapsHzToIre : Prop :=
  ∀ (rd rs : VReg) (s : State), ∃ t, exec (.iremap rd rs) s = .next t ∧ WritesOnlyV rd s t ∧
    let w : Fin 2 := if s.config.getLsbD 3 then 1 else 0
    t.readV rd = (s.readV rs).map (fun x => Fp.div (Fp.sub x (s.cfg.minn.get w)) (s.cfg.hzIreScale.get w))

/-! ## Numbers (00_scope.md) -/

/-- Sum, difference and product of finite data are the exact result rounded once, to nearest with ties to even (R9); the
sign of a zero result is IEEE 754's, which the spec names and does not reproduce (log entry 3, PRESUMED). -/
def Obligations.SumsAndProductsAreCorrectlyRounded : Prop :=
  ∀ a b : Num64, Fp.isFinite a = true → Fp.isFinite b = true →
    RoundsTo (Fp.add a b) (realOf a + realOf b) ∧ RoundsTo (Fp.sub a b) (realOf a - realOf b) ∧
    RoundsTo (Fp.mul a b) (realOf a * realOf b) ∧
    (realOf a + realOf b = 0 → Fp.signBit (Fp.add a b) = (Fp.signBit a && Fp.signBit b)) ∧
    (realOf a - realOf b = 0 → Fp.signBit (Fp.sub a b) = (Fp.signBit a && !Fp.signBit b)) ∧
    Fp.signBit (Fp.mul a b) = (Fp.signBit a ^^ Fp.signBit b)

/-- The quotient of finite data by a divisor that is not zero is the exact quotient rounded once (R9), with the sign that
IEEE 754 gives it, which the spec names and does not reproduce (log entry 3, PRESUMED). -/
def Obligations.QuotientsAreCorrectlyRounded : Prop :=
  ∀ a b : Num64, Fp.isFinite a = true → Fp.isFinite b = true → realOf b ≠ 0 →
    RoundsTo (Fp.div a b) (realOf a / realOf b) ∧ Fp.signBit (Fp.div a b) = (Fp.signBit a ^^ Fp.signBit b)

/-- Comparisons of finite data compare the numbers, so the two zeros are equal; with a NaN every comparison is false;
the infinities lie outside all finite data (R9). -/
def Obligations.ComparisonsCompareTheNumbers : Prop :=
  ∀ a b : Num64,
    (Fp.isFinite a = true → Fp.isFinite b = true →
      (Fp.lt a b = true ↔ realOf a < realOf b) ∧ (Fp.le a b = true ↔ realOf a ≤ realOf b) ∧
      (Fp.eq a b = true ↔ realOf a = realOf b)) ∧
    (Fp.isNaN a = true ∨ Fp.isNaN b = true → Fp.lt a b = false ∧ Fp.le a b = false ∧ Fp.eq a b = false) ∧
    (Fp.isFinite a = true → Fp.isInf b = true →
      Fp.lt a b = !Fp.signBit b ∧ Fp.lt b a = Fp.signBit b ∧ Fp.eq a b = false)

/-- `f32` of a finite value is the nearest binary32, ties to even, with overflow to the infinity of its sign; an
infinity stays one of its sign; a NaN gives a NaN, whose bits are free (R13; log entry 4). -/
def Obligations.SingleConversionRoundsToNearest : Prop :=
  ∀ a : Num64,
    (Fp.isFinite a = true → RoundsTo32 (Fp.toBinary32 a) (realOf a)) ∧
    (Fp.isInf a = true → Fp.toBinary32 a = if Fp.signBit a then 0xFF800000 else 0x7F800000) ∧
    (Fp.isNaN a = true →
      exponent32 (Fp.toBinary32 a) = 255 ∧ (Fp.toBinary32 a).toNat % 2 ^ 23 ≠ 0)
end

