-- ==== Sys2Proof/Laws/Datapath.lean ====
section
/-!
SUPPORT. The lengths and the element-wise readings of the datapath functions.
-/
namespace Sys2Proof.Machine

variable {α : Type} (N : Numerics α)

/-! ## The recurrence -/

theorem df1Run_length (b a xs xh yh : List α) : (df1Run N b a xs xh yh).1.length = xs.length := by
  induction xs generalizing xh yh with
  | nil => rfl
  | cons x xs ih => simp [df1Run, ih]

/-- The inputs end up newest first in front of the input history. -/
theorem df1Run_inputs (b a xs xh yh : List α) : (df1Run N b a xs xh yh).2.1 = xs.reverse ++ xh := by
  induction xs generalizing xh yh with
  | nil => rfl
  | cons x xs ih => simp [df1Run, ih]

/-- The outputs end up newest first in front of the output history. -/
theorem df1Run_outputs (b a xs xh yh : List α) :
    (df1Run N b a xs xh yh).2.2 = (df1Run N b a xs xh yh).1.reverse ++ yh := by
  induction xs generalizing xh yh with
  | nil => rfl
  | cons x xs ih => simp [df1Run, ih]

@[simp] theorem newest_length (H : Nat) (h : List α) : (newest N H h).length = H := by simp [newest]

theorem newest_getElem? (H : Nat) (h : List α) (j : Nat) :
    (newest N H h)[j]? = if j < H then some (h.getD j N.zero) else none := by
  simp only [newest, List.getElem?_map]
  split <;> simp_all

@[simp] theorem df1_length (H : Nat) (b a xs xh yh : List α) : (df1 N H b a xs xh yh).1.length = xs.length :=
  df1Run_length N b a xs xh yh

@[simp] theorem df1_xh_length (H : Nat) (b a xs xh yh : List α) : (df1 N H b a xs xh yh).2.1.length = H := by
  simp [df1]

@[simp] theorem df1_yh_length (H : Nat) (b a xs xh yh : List α) : (df1 N H b a xs xh yh).2.2.length = H := by
  simp [df1]

@[simp] theorem df1Block_length (H : Nat) (b a xs : List α) : (df1Block N H b a xs).length = xs.length := by
  simp [df1Block]

/-! ## Trims, decimation, differences -/

@[simp] theorem trimHead_length {β : Type} (n : Nat) (s : List β) : (trimHead n s).length = s.length - n := by
  simp [trimHead]

@[simp] theorem chopEnds_length {β : Type} (n : Nat) (s : List β) :
    (chopEnds n s).length = s.length - 2 * n := by
  simp [chopEnds]; omega

@[simp] theorem decimate_length (n : Nat) (s : List α) : (decimate N n s).length = (s.length + n - 1) / n := by
  simp [decimate]

/-- Decimation never makes a sequence longer. -/
theorem decimate_length_le (n : Nat) (s : List α) : (decimate N n s).length ≤ s.length := by
  rw [decimate_length]
  rcases Nat.eq_zero_or_pos n with rfl | hn
  · simp
  · rcases Nat.eq_zero_or_pos s.length with hs | hs
    · rw [hs, Nat.div_eq_of_lt (by omega)]
    · have h1 : (s.length + n - 1) / n < s.length + 1 := by
        rw [Nat.div_lt_iff_lt_mul hn]
        have := Nat.le_mul_of_pos_right s.length hn
        rw [Nat.add_mul]
        omega
      omega

@[simp] theorem differences_length (s : List α) : (differences N s).length = s.length - 1 := by
  simp [differences]

@[simp] theorem fixFirst_length (s : List α) : (fixFirst N s).length = s.length := by
  cases s <;> simp [fixFirst]

@[simp] theorem unwrapFrom_length (p : α) (Q : Int) (s : List α) : (unwrapFrom N p Q s).length = s.length := by
  induction s generalizing p Q with
  | nil => rfl
  | cons d ds ih => simp [unwrapFrom, ih]

@[simp] theorem unwrapSeq_length (s : List α) : (unwrapSeq N s).length = s.length := by
  cases s <;> simp [unwrapSeq]

@[simp] theorem scaleHz_length (F : α) (s : List α) : (scaleHz N F s).length = s.length := by
  simp [scaleHz]

@[simp] theorem sweepDown_length (F : α) (s : List α) : (sweepDown N F s).length = s.length := by
  simp [sweepDown]

@[simp] theorem sweepUp_length (F : α) (s : List α) : (sweepUp N F s).length = s.length := by
  simp [sweepUp]

@[simp] theorem toIre_length (m c : α) (s : List α) : (toIre N m c s).length = s.length := by simp [toIre]

@[simp] theorem subtractCenter_length (c : α) (s : List α) : (subtractCenter N c s).length = s.length := by
  simp [subtractCenter]

/-! ## The correction pass -/

/-- All that a successful pass can answer: no NaN, nothing out of range, as many samples as before. -/
theorem wrapCorrect_ok {F : α} {n : Nat} {s t : List α} (h : wrapCorrect N F n s = .ok t) :
    t.any N.isNaN = false ∧ outOfRange N F t = false ∧ t.length = s.length := by
  induction n generalizing s with
  | zero =>
    unfold wrapCorrect at h
    split at h
    · cases h
    · split at h
      · cases h; simp_all
      · cases h
  | succ n ih =>
    unfold wrapCorrect at h
    split at h
    · cases h
    · split at h
      · cases h; simp_all
      · simpa using ih h

/-- All that a failing pass can answer: NUMERIC or DECODE_NONCONVERGE. -/
theorem wrapCorrect_error {F : α} {n : Nat} {s : List α} {c : Cause} (h : wrapCorrect N F n s = .error c) :
    c = .numeric ∨ c = .decodeNonconverge := by
  induction n generalizing s with
  | zero =>
    unfold wrapCorrect at h
    split at h
    · cases h; simp
    · split at h <;> cases h
      simp
  | succ n ih =>
    unfold wrapCorrect at h
    split at h
    · cases h; simp
    · split at h
      · cases h
      · exact ih h

/-- All that the conversion to codes can answer. -/
theorem videoCodes_ok {scale : α} {s : List α} {codes : List Nat} (h : videoCodes N scale s = .ok codes) :
    codes = s.map (fun x => clipCode N (N.mul x scale)) ∧
      (s.map (fun x => N.mul x scale)).any N.isNaN = false := by
  simp only [videoCodes] at h
  split at h
  · cases h
  · cases h
    simp_all

end Sys2Proof.Machine
end

