-- ==== Sys2Proof/Laws/Memory.lean ====
section
/-!
SUPPORT. The laws of the block buffer: what a read gives after a write, an erase, a put and a slide, and that each
keeps the canonical form.
-/
namespace Sys2Proof.Machine

@[simp] theorem Memory.read_nil (j : Nat) : Memory.read [] j = none := rfl

/-! ## Reading after one operation -/

/-- A write changes the byte at its index and no other. -/
theorem Memory.read_write (m : Memory) (j k : Nat) (b : Byte) :
    (m.write j b).read k = if k = j then some b else m.read k := by
  induction m with
  | nil => simp [Memory.write, Memory.read]
  | cons p m ih =>
    obtain ⟨a, c⟩ := p
    simp only [Memory.write]
    split
    · simp [Memory.read]
    · split
      · subst_vars
        simp only [Memory.read]
        split <;> rfl
      · simp only [Memory.read, ih]
        split
        · subst_vars
          rw [if_neg (by omega)]
        · rfl

/-- An erase empties its index and changes no other. -/
theorem Memory.read_erase (m : Memory) (j k : Nat) :
    (m.erase j).read k = if k = j then none else m.read k := by
  induction m with
  | nil => simp [Memory.erase, Memory.read]
  | cons p m ih =>
    obtain ⟨a, c⟩ := p
    by_cases h : a = j
    · subst h
      simp only [Memory.erase, List.filter_cons, ne_eq, not_true_eq_false, decide_false, Bool.false_eq_true,
        if_false, Memory.read] at ih ⊢
      rw [ih]
      split <;> rfl
    · simp only [Memory.erase, List.filter_cons, ne_eq, h, not_false_eq_true, decide_true, if_true,
        Memory.read] at ih ⊢
      rw [ih]
      split
      · subst_vars
        rw [if_neg h]
      · rfl

theorem Memory.read_put (m : Memory) (j k : Nat) (o : Option Byte) :
    (m.put j o).read k = if k = j then o else m.read k := by
  cases o with
  | none => exact Memory.read_erase m j k
  | some b => exact Memory.read_write m j k b

/-- The slide moves each of the first `n` bytes down by `c` and leaves the others. -/
theorem Memory.read_slide (m : Memory) (n c k : Nat) (hc : 1 ≤ c) :
    (m.slide n c).read k = if k < n then m.read (k + c) else m.read k := by
  unfold Memory.slide
  induction n generalizing k with
  | zero => simp
  | succ n ih =>
    rw [List.range_succ, List.foldl_append, List.foldl_cons, List.foldl_nil, Memory.read_put]
    split
    · subst_vars
      rw [ih, if_neg (by omega), if_pos (by omega)]
    · rw [ih]
      split <;> split <;> first | rfl | omega

/-! ## The canonical form -/

theorem Memory.wf_nil : Memory.wf [] := List.Pairwise.nil

theorem Memory.mem_write {m : Memory} {j : Nat} {b : Byte} {p : Host.Cell} (h : p ∈ m.write j b) :
    p = (j, b) ∨ p ∈ m := by
  induction m with
  | nil => simpa [Memory.write] using h
  | cons q m ih =>
    obtain ⟨a, c⟩ := q
    simp only [Memory.write] at h
    split at h
    · simpa using h
    · split at h
      · rcases List.mem_cons.mp h with h | h
        · exact .inl h
        · exact .inr (List.mem_cons_of_mem _ h)
      · rcases List.mem_cons.mp h with h | h
        · exact .inr (h ▸ List.mem_cons_self)
        · exact (ih h).imp id (List.mem_cons_of_mem _)

theorem Memory.wf_write {m : Memory} (h : m.wf) (j : Nat) (b : Byte) : (m.write j b).wf := by
  induction m with
  | nil => simp [Memory.write, Memory.wf]
  | cons q m ih =>
    obtain ⟨a, c⟩ := q
    obtain ⟨ha, hm⟩ := List.pairwise_cons.mp h
    simp only [Memory.write]
    split
    · rename_i hj
      refine List.pairwise_cons.mpr ⟨fun p hp => ?_, h⟩
      rcases List.mem_cons.mp hp with rfl | hp
      · exact hj
      · exact lt_trans hj (ha p hp)
    · split
      · subst_vars
        exact List.pairwise_cons.mpr ⟨fun p hp => ha p hp, hm⟩
      · refine List.pairwise_cons.mpr ⟨fun p hp => ?_, ih hm⟩
        rcases Memory.mem_write hp with rfl | hp
        · show a < j
          omega
        · exact ha p hp

theorem Memory.wf_erase {m : Memory} (h : m.wf) (j : Nat) : (m.erase j).wf := List.Pairwise.filter _ h

theorem Memory.wf_put {m : Memory} (h : m.wf) (j : Nat) (o : Option Byte) : (m.put j o).wf := by
  cases o with
  | none => exact Memory.wf_erase h j
  | some b => exact Memory.wf_write h j b

theorem Memory.wf_slide {m : Memory} (h : m.wf) (n c : Nat) : (m.slide n c).wf := by
  unfold Memory.slide
  induction n with
  | zero => simpa using h
  | succ n ih =>
    rw [List.range_succ, List.foldl_append, List.foldl_cons, List.foldl_nil]
    exact Memory.wf_put ih _ _

/-- An index below every listed one reads as no byte. -/
theorem Memory.read_of_lt {m : Memory} {j : Nat} (h : ∀ p ∈ m, j < p.1) : m.read j = none := by
  induction m with
  | nil => rfl
  | cons q m ih =>
    obtain ⟨a, c⟩ := q
    have := h (a, c) List.mem_cons_self
    simp only [Memory.read]
    rw [if_neg (by simp at this; omega)]
    exact ih fun p hp => h p (List.mem_cons_of_mem _ hp)

/-- Equal contents are equal data: two canonical memories that read alike are one list. -/
theorem Memory.ext_read {m n : Memory} (hm : m.wf) (hn : n.wf) (h : ∀ j, m.read j = n.read j) : m = n := by
  induction m generalizing n with
  | nil =>
    cases n with
    | nil => rfl
    | cons q n => simpa [Memory.read] using h q.1
  | cons p m ih =>
    cases n with
    | nil => simpa [Memory.read] using h p.1
    | cons q n =>
      obtain ⟨a, c⟩ := p
      obtain ⟨d, e⟩ := q
      obtain ⟨ha, hmt⟩ := List.pairwise_cons.mp hm
      obtain ⟨hd, hnt⟩ := List.pairwise_cons.mp hn
      have had : a = d := by
        rcases lt_trichotomy a d with hlt | heq | hgt
        · have hz : Memory.read ((d, e) :: n) a = none := Memory.read_of_lt fun p hp => by
            rcases List.mem_cons.mp hp with rfl | hp
            · exact hlt
            · exact lt_trans hlt (hd p hp)
          simpa [Memory.read] using (h a).trans hz
        · exact heq
        · have hz : Memory.read ((a, c) :: m) d = none := Memory.read_of_lt fun p hp => by
            rcases List.mem_cons.mp hp with rfl | hp
            · exact hgt
            · exact lt_trans hgt (ha p hp)
          simpa [Memory.read] using (h d).symm.trans hz
      subst had
      have hce : c = e := by simpa [Memory.read] using h a
      subst hce
      have hmn : m = n := ih hmt hnt fun j => by
        have hj := h j
        simp only [Memory.read] at hj
        split at hj
        · subst_vars
          rw [Memory.read_of_lt ha, Memory.read_of_lt hd]
        · exact hj
      rw [hmn]

/-- The bytes of a block are as many as asked for. -/
@[simp] theorem Memory.bytes_length (m : Memory) (n : Nat) : (m.bytes n).length = n := by simp [Memory.bytes]

theorem Memory.bytes_getElem? (m : Memory) (n j : Nat) :
    (m.bytes n)[j]? = if j < n then some (m.byteAt j) else none := by
  simp only [Memory.bytes, List.getElem?_map]
  split <;> simp_all

end Sys2Proof.Machine
end

