-- ==== Sys2Proof/Laws/State.lean ====
section
/-!
SUPPORT. One lemma per field per update of State, each true by rfl.
-/
namespace Sys2Proof.Machine

variable (s : State)

/-! ## writeV -/

@[simp] theorem State.writeV_cfg (i : VReg) (xs : List Num64) : (s.writeV i xs).cfg = s.cfg := rfl
@[simp] theorem State.writeV_v (i : VReg) (xs : List Num64) : (s.writeV i xs).v = s.v.set i.val xs i.isLt := rfl
@[simp] theorem State.writeV_z (i : VReg) (xs : List Num64) : (s.writeV i xs).z = s.z := rfl
@[simp] theorem State.writeV_xh (i : VReg) (xs : List Num64) : (s.writeV i xs).xh = s.xh := rfl
@[simp] theorem State.writeV_yh (i : VReg) (xs : List Num64) : (s.writeV i xs).yh = s.yh := rfl
@[simp] theorem State.writeV_blk (i : VReg) (xs : List Num64) : (s.writeV i xs).blk = s.blk := rfl
@[simp] theorem State.writeV_fill (i : VReg) (xs : List Num64) : (s.writeV i xs).fill = s.fill := rfl
@[simp] theorem State.writeV_config (i : VReg) (xs : List Num64) : (s.writeV i xs).config = s.config := rfl
@[simp] theorem State.writeV_remain (i : VReg) (xs : List Num64) : (s.writeV i xs).remain = s.remain := rfl
@[simp] theorem State.writeV_total (i : VReg) (xs : List Num64) : (s.writeV i xs).total = s.total := rfl
@[simp] theorem State.writeV_blkidx (i : VReg) (xs : List Num64) : (s.writeV i xs).blkidx = s.blkidx := rfl
@[simp] theorem State.writeV_ostate (i : VReg) (xs : List Num64) : (s.writeV i xs).ostate = s.ostate := rfl
@[simp] theorem State.writeV_upc (i : VReg) (xs : List Num64) : (s.writeV i xs).upc = s.upc := rfl
@[simp] theorem State.writeV_consumed (i : VReg) (xs : List Num64) : (s.writeV i xs).consumed = s.consumed := rfl
@[simp] theorem State.writeV_outcnt (i : VReg) (xs : List Num64) : (s.writeV i xs).outcnt = s.outcnt := rfl
@[simp] theorem State.writeV_readcnt (i : VReg) (xs : List Num64) : (s.writeV i xs).readcnt = s.readcnt := rfl
@[simp] theorem State.writeV_forceEmpty (i : VReg) (xs : List Num64) : (s.writeV i xs).forceEmpty = s.forceEmpty := rfl
@[simp] theorem State.writeV_cause (i : VReg) (xs : List Num64) : (s.writeV i xs).cause = s.cause := rfl
@[simp] theorem State.writeV_errBlock (i : VReg) (xs : List Num64) : (s.writeV i xs).errBlock = s.errBlock := rfl
@[simp] theorem State.writeV_errOffset (i : VReg) (xs : List Num64) : (s.writeV i xs).errOffset = s.errOffset := rfl
@[simp] theorem State.writeV_errUpc (i : VReg) (xs : List Num64) : (s.writeV i xs).errUpc = s.errUpc := rfl
@[simp] theorem State.writeV_inq (i : VReg) (xs : List Num64) : (s.writeV i xs).inq = s.inq := rfl
@[simp] theorem State.writeV_eos (i : VReg) (xs : List Num64) : (s.writeV i xs).eos = s.eos := rfl
@[simp] theorem State.writeV_outq (i : VReg) (xs : List Num64) : (s.writeV i xs).outq = s.outq := rfl
@[simp] theorem State.writeV_turns (i : VReg) (xs : List Num64) : (s.writeV i xs).turns = s.turns := rfl
@[simp] theorem State.writeV_hostRead (i : VReg) (xs : List Num64) : (s.writeV i xs).hostRead = s.hostRead := rfl
@[simp] theorem State.writeV_hostByte (i : VReg) (xs : List Num64) : (s.writeV i xs).hostByte = s.hostByte := rfl

/-! ## writeZ -/

@[simp] theorem State.writeZ_cfg (i : ZReg) (xs : List (Num64 × Num64)) : (s.writeZ i xs).cfg = s.cfg := rfl
@[simp] theorem State.writeZ_v (i : ZReg) (xs : List (Num64 × Num64)) : (s.writeZ i xs).v = s.v := rfl
@[simp] theorem State.writeZ_z (i : ZReg) (xs : List (Num64 × Num64)) : (s.writeZ i xs).z = s.z.set i.val xs i.isLt := rfl
@[simp] theorem State.writeZ_xh (i : ZReg) (xs : List (Num64 × Num64)) : (s.writeZ i xs).xh = s.xh := rfl
@[simp] theorem State.writeZ_yh (i : ZReg) (xs : List (Num64 × Num64)) : (s.writeZ i xs).yh = s.yh := rfl
@[simp] theorem State.writeZ_blk (i : ZReg) (xs : List (Num64 × Num64)) : (s.writeZ i xs).blk = s.blk := rfl
@[simp] theorem State.writeZ_fill (i : ZReg) (xs : List (Num64 × Num64)) : (s.writeZ i xs).fill = s.fill := rfl
@[simp] theorem State.writeZ_config (i : ZReg) (xs : List (Num64 × Num64)) : (s.writeZ i xs).config = s.config := rfl
@[simp] theorem State.writeZ_remain (i : ZReg) (xs : List (Num64 × Num64)) : (s.writeZ i xs).remain = s.remain := rfl
@[simp] theorem State.writeZ_total (i : ZReg) (xs : List (Num64 × Num64)) : (s.writeZ i xs).total = s.total := rfl
@[simp] theorem State.writeZ_blkidx (i : ZReg) (xs : List (Num64 × Num64)) : (s.writeZ i xs).blkidx = s.blkidx := rfl
@[simp] theorem State.writeZ_ostate (i : ZReg) (xs : List (Num64 × Num64)) : (s.writeZ i xs).ostate = s.ostate := rfl
@[simp] theorem State.writeZ_upc (i : ZReg) (xs : List (Num64 × Num64)) : (s.writeZ i xs).upc = s.upc := rfl
@[simp] theorem State.writeZ_consumed (i : ZReg) (xs : List (Num64 × Num64)) : (s.writeZ i xs).consumed = s.consumed := rfl
@[simp] theorem State.writeZ_outcnt (i : ZReg) (xs : List (Num64 × Num64)) : (s.writeZ i xs).outcnt = s.outcnt := rfl
@[simp] theorem State.writeZ_readcnt (i : ZReg) (xs : List (Num64 × Num64)) : (s.writeZ i xs).readcnt = s.readcnt := rfl
@[simp] theorem State.writeZ_forceEmpty (i : ZReg) (xs : List (Num64 × Num64)) : (s.writeZ i xs).forceEmpty = s.forceEmpty := rfl
@[simp] theorem State.writeZ_cause (i : ZReg) (xs : List (Num64 × Num64)) : (s.writeZ i xs).cause = s.cause := rfl
@[simp] theorem State.writeZ_errBlock (i : ZReg) (xs : List (Num64 × Num64)) : (s.writeZ i xs).errBlock = s.errBlock := rfl
@[simp] theorem State.writeZ_errOffset (i : ZReg) (xs : List (Num64 × Num64)) : (s.writeZ i xs).errOffset = s.errOffset := rfl
@[simp] theorem State.writeZ_errUpc (i : ZReg) (xs : List (Num64 × Num64)) : (s.writeZ i xs).errUpc = s.errUpc := rfl
@[simp] theorem State.writeZ_inq (i : ZReg) (xs : List (Num64 × Num64)) : (s.writeZ i xs).inq = s.inq := rfl
@[simp] theorem State.writeZ_eos (i : ZReg) (xs : List (Num64 × Num64)) : (s.writeZ i xs).eos = s.eos := rfl
@[simp] theorem State.writeZ_outq (i : ZReg) (xs : List (Num64 × Num64)) : (s.writeZ i xs).outq = s.outq := rfl
@[simp] theorem State.writeZ_turns (i : ZReg) (xs : List (Num64 × Num64)) : (s.writeZ i xs).turns = s.turns := rfl
@[simp] theorem State.writeZ_hostRead (i : ZReg) (xs : List (Num64 × Num64)) : (s.writeZ i xs).hostRead = s.hostRead := rfl
@[simp] theorem State.writeZ_hostByte (i : ZReg) (xs : List (Num64 × Num64)) : (s.writeZ i xs).hostByte = s.hostByte := rfl

/-! ## writeRun -/

@[simp] theorem State.writeRun_cfg (t : RunState) (xs ys : List Num64) : (s.writeRun t xs ys).cfg = s.cfg := rfl
@[simp] theorem State.writeRun_v (t : RunState) (xs ys : List Num64) : (s.writeRun t xs ys).v = s.v := rfl
@[simp] theorem State.writeRun_z (t : RunState) (xs ys : List Num64) : (s.writeRun t xs ys).z = s.z := rfl
@[simp] theorem State.writeRun_xh (t : RunState) (xs ys : List Num64) : (s.writeRun t xs ys).xh = s.xh.set t.val xs t.isLt := rfl
@[simp] theorem State.writeRun_yh (t : RunState) (xs ys : List Num64) : (s.writeRun t xs ys).yh = s.yh.set t.val ys t.isLt := rfl
@[simp] theorem State.writeRun_blk (t : RunState) (xs ys : List Num64) : (s.writeRun t xs ys).blk = s.blk := rfl
@[simp] theorem State.writeRun_fill (t : RunState) (xs ys : List Num64) : (s.writeRun t xs ys).fill = s.fill := rfl
@[simp] theorem State.writeRun_config (t : RunState) (xs ys : List Num64) : (s.writeRun t xs ys).config = s.config := rfl
@[simp] theorem State.writeRun_remain (t : RunState) (xs ys : List Num64) : (s.writeRun t xs ys).remain = s.remain := rfl
@[simp] theorem State.writeRun_total (t : RunState) (xs ys : List Num64) : (s.writeRun t xs ys).total = s.total := rfl
@[simp] theorem State.writeRun_blkidx (t : RunState) (xs ys : List Num64) : (s.writeRun t xs ys).blkidx = s.blkidx := rfl
@[simp] theorem State.writeRun_ostate (t : RunState) (xs ys : List Num64) : (s.writeRun t xs ys).ostate = s.ostate := rfl
@[simp] theorem State.writeRun_upc (t : RunState) (xs ys : List Num64) : (s.writeRun t xs ys).upc = s.upc := rfl
@[simp] theorem State.writeRun_consumed (t : RunState) (xs ys : List Num64) : (s.writeRun t xs ys).consumed = s.consumed := rfl
@[simp] theorem State.writeRun_outcnt (t : RunState) (xs ys : List Num64) : (s.writeRun t xs ys).outcnt = s.outcnt := rfl
@[simp] theorem State.writeRun_readcnt (t : RunState) (xs ys : List Num64) : (s.writeRun t xs ys).readcnt = s.readcnt := rfl
@[simp] theorem State.writeRun_forceEmpty (t : RunState) (xs ys : List Num64) : (s.writeRun t xs ys).forceEmpty = s.forceEmpty := rfl
@[simp] theorem State.writeRun_cause (t : RunState) (xs ys : List Num64) : (s.writeRun t xs ys).cause = s.cause := rfl
@[simp] theorem State.writeRun_errBlock (t : RunState) (xs ys : List Num64) : (s.writeRun t xs ys).errBlock = s.errBlock := rfl
@[simp] theorem State.writeRun_errOffset (t : RunState) (xs ys : List Num64) : (s.writeRun t xs ys).errOffset = s.errOffset := rfl
@[simp] theorem State.writeRun_errUpc (t : RunState) (xs ys : List Num64) : (s.writeRun t xs ys).errUpc = s.errUpc := rfl
@[simp] theorem State.writeRun_inq (t : RunState) (xs ys : List Num64) : (s.writeRun t xs ys).inq = s.inq := rfl
@[simp] theorem State.writeRun_eos (t : RunState) (xs ys : List Num64) : (s.writeRun t xs ys).eos = s.eos := rfl
@[simp] theorem State.writeRun_outq (t : RunState) (xs ys : List Num64) : (s.writeRun t xs ys).outq = s.outq := rfl
@[simp] theorem State.writeRun_turns (t : RunState) (xs ys : List Num64) : (s.writeRun t xs ys).turns = s.turns := rfl
@[simp] theorem State.writeRun_hostRead (t : RunState) (xs ys : List Num64) : (s.writeRun t xs ys).hostRead = s.hostRead := rfl
@[simp] theorem State.writeRun_hostByte (t : RunState) (xs ys : List Num64) : (s.writeRun t xs ys).hostByte = s.hostByte := rfl

/-! ## emit -/

@[simp] theorem State.emit_cfg (bytes : List Byte) (n : Nat) : (s.emit bytes n).cfg = s.cfg := rfl
@[simp] theorem State.emit_v (bytes : List Byte) (n : Nat) : (s.emit bytes n).v = s.v := rfl
@[simp] theorem State.emit_z (bytes : List Byte) (n : Nat) : (s.emit bytes n).z = s.z := rfl
@[simp] theorem State.emit_xh (bytes : List Byte) (n : Nat) : (s.emit bytes n).xh = s.xh := rfl
@[simp] theorem State.emit_yh (bytes : List Byte) (n : Nat) : (s.emit bytes n).yh = s.yh := rfl
@[simp] theorem State.emit_blk (bytes : List Byte) (n : Nat) : (s.emit bytes n).blk = s.blk := rfl
@[simp] theorem State.emit_fill (bytes : List Byte) (n : Nat) : (s.emit bytes n).fill = s.fill := rfl
@[simp] theorem State.emit_config (bytes : List Byte) (n : Nat) : (s.emit bytes n).config = s.config := rfl
@[simp] theorem State.emit_remain (bytes : List Byte) (n : Nat) : (s.emit bytes n).remain = s.remain := rfl
@[simp] theorem State.emit_total (bytes : List Byte) (n : Nat) : (s.emit bytes n).total = s.total := rfl
@[simp] theorem State.emit_blkidx (bytes : List Byte) (n : Nat) : (s.emit bytes n).blkidx = s.blkidx := rfl
@[simp] theorem State.emit_ostate (bytes : List Byte) (n : Nat) : (s.emit bytes n).ostate = s.ostate := rfl
@[simp] theorem State.emit_upc (bytes : List Byte) (n : Nat) : (s.emit bytes n).upc = s.upc := rfl
@[simp] theorem State.emit_consumed (bytes : List Byte) (n : Nat) : (s.emit bytes n).consumed = s.consumed := rfl
@[simp] theorem State.emit_outcnt (bytes : List Byte) (n : Nat) : (s.emit bytes n).outcnt = BitVec.ofNat 32 n := rfl
@[simp] theorem State.emit_readcnt (bytes : List Byte) (n : Nat) : (s.emit bytes n).readcnt = s.readcnt := rfl
@[simp] theorem State.emit_forceEmpty (bytes : List Byte) (n : Nat) : (s.emit bytes n).forceEmpty = s.forceEmpty := rfl
@[simp] theorem State.emit_cause (bytes : List Byte) (n : Nat) : (s.emit bytes n).cause = s.cause := rfl
@[simp] theorem State.emit_errBlock (bytes : List Byte) (n : Nat) : (s.emit bytes n).errBlock = s.errBlock := rfl
@[simp] theorem State.emit_errOffset (bytes : List Byte) (n : Nat) : (s.emit bytes n).errOffset = s.errOffset := rfl
@[simp] theorem State.emit_errUpc (bytes : List Byte) (n : Nat) : (s.emit bytes n).errUpc = s.errUpc := rfl
@[simp] theorem State.emit_inq (bytes : List Byte) (n : Nat) : (s.emit bytes n).inq = s.inq := rfl
@[simp] theorem State.emit_eos (bytes : List Byte) (n : Nat) : (s.emit bytes n).eos = s.eos := rfl
@[simp] theorem State.emit_outq (bytes : List Byte) (n : Nat) : (s.emit bytes n).outq = s.outq ++ bytes := rfl
@[simp] theorem State.emit_turns (bytes : List Byte) (n : Nat) : (s.emit bytes n).turns = s.turns := rfl
@[simp] theorem State.emit_hostRead (bytes : List Byte) (n : Nat) : (s.emit bytes n).hostRead = s.hostRead := rfl
@[simp] theorem State.emit_hostByte (bytes : List Byte) (n : Nat) : (s.emit bytes n).hostByte = s.hostByte := rfl

/-! ## advance -/

@[simp] theorem State.advance_cfg : (s.advance).cfg = s.cfg := rfl
@[simp] theorem State.advance_v : (s.advance).v = s.v := rfl
@[simp] theorem State.advance_z : (s.advance).z = s.z := rfl
@[simp] theorem State.advance_xh : (s.advance).xh = s.xh := rfl
@[simp] theorem State.advance_yh : (s.advance).yh = s.yh := rfl
@[simp] theorem State.advance_blk : (s.advance).blk = s.blk := rfl
@[simp] theorem State.advance_fill : (s.advance).fill = s.fill := rfl
@[simp] theorem State.advance_config : (s.advance).config = s.config := rfl
@[simp] theorem State.advance_remain : (s.advance).remain = s.remain := rfl
@[simp] theorem State.advance_total : (s.advance).total = s.total := rfl
@[simp] theorem State.advance_blkidx : (s.advance).blkidx = s.blkidx := rfl
@[simp] theorem State.advance_ostate : (s.advance).ostate = s.ostate := rfl
@[simp] theorem State.advance_upc : (s.advance).upc = s.upc + 1 := rfl
@[simp] theorem State.advance_consumed : (s.advance).consumed = s.consumed := rfl
@[simp] theorem State.advance_outcnt : (s.advance).outcnt = s.outcnt := rfl
@[simp] theorem State.advance_readcnt : (s.advance).readcnt = s.readcnt := rfl
@[simp] theorem State.advance_forceEmpty : (s.advance).forceEmpty = s.forceEmpty := rfl
@[simp] theorem State.advance_cause : (s.advance).cause = s.cause := rfl
@[simp] theorem State.advance_errBlock : (s.advance).errBlock = s.errBlock := rfl
@[simp] theorem State.advance_errOffset : (s.advance).errOffset = s.errOffset := rfl
@[simp] theorem State.advance_errUpc : (s.advance).errUpc = s.errUpc := rfl
@[simp] theorem State.advance_inq : (s.advance).inq = s.inq := rfl
@[simp] theorem State.advance_eos : (s.advance).eos = s.eos := rfl
@[simp] theorem State.advance_outq : (s.advance).outq = s.outq := rfl
@[simp] theorem State.advance_turns : (s.advance).turns = s.turns := rfl
@[simp] theorem State.advance_hostRead : (s.advance).hostRead = s.hostRead := rfl
@[simp] theorem State.advance_hostByte : (s.advance).hostByte = s.hostByte := rfl

/-! ## takeFault -/

@[simp] theorem State.takeFault_cfg (c : Cause) (u : BitVec 32) : (s.takeFault c u).cfg = s.cfg := rfl
@[simp] theorem State.takeFault_v (c : Cause) (u : BitVec 32) : (s.takeFault c u).v = s.v := rfl
@[simp] theorem State.takeFault_z (c : Cause) (u : BitVec 32) : (s.takeFault c u).z = s.z := rfl
@[simp] theorem State.takeFault_xh (c : Cause) (u : BitVec 32) : (s.takeFault c u).xh = s.xh := rfl
@[simp] theorem State.takeFault_yh (c : Cause) (u : BitVec 32) : (s.takeFault c u).yh = s.yh := rfl
@[simp] theorem State.takeFault_blk (c : Cause) (u : BitVec 32) : (s.takeFault c u).blk = s.blk := rfl
@[simp] theorem State.takeFault_fill (c : Cause) (u : BitVec 32) : (s.takeFault c u).fill = s.fill := rfl
@[simp] theorem State.takeFault_config (c : Cause) (u : BitVec 32) : (s.takeFault c u).config = s.config := rfl
@[simp] theorem State.takeFault_remain (c : Cause) (u : BitVec 32) : (s.takeFault c u).remain = s.remain := rfl
@[simp] theorem State.takeFault_total (c : Cause) (u : BitVec 32) : (s.takeFault c u).total = s.total := rfl
@[simp] theorem State.takeFault_blkidx (c : Cause) (u : BitVec 32) : (s.takeFault c u).blkidx = s.blkidx := rfl
@[simp] theorem State.takeFault_ostate (c : Cause) (u : BitVec 32) : (s.takeFault c u).ostate = .fault := rfl
@[simp] theorem State.takeFault_upc (c : Cause) (u : BitVec 32) : (s.takeFault c u).upc = s.upc := rfl
@[simp] theorem State.takeFault_consumed (c : Cause) (u : BitVec 32) : (s.takeFault c u).consumed = s.consumed := rfl
@[simp] theorem State.takeFault_outcnt (c : Cause) (u : BitVec 32) : (s.takeFault c u).outcnt = s.outcnt := rfl
@[simp] theorem State.takeFault_readcnt (c : Cause) (u : BitVec 32) : (s.takeFault c u).readcnt = s.readcnt := rfl
@[simp] theorem State.takeFault_forceEmpty (c : Cause) (u : BitVec 32) : (s.takeFault c u).forceEmpty = s.forceEmpty := rfl
@[simp] theorem State.takeFault_cause (c : Cause) (u : BitVec 32) : (s.takeFault c u).cause = c.code := rfl
@[simp] theorem State.takeFault_errBlock (c : Cause) (u : BitVec 32) : (s.takeFault c u).errBlock = s.blkidx := rfl
@[simp] theorem State.takeFault_errOffset (c : Cause) (u : BitVec 32) : (s.takeFault c u).errOffset = s.total := rfl
@[simp] theorem State.takeFault_errUpc (c : Cause) (u : BitVec 32) : (s.takeFault c u).errUpc = u := rfl
@[simp] theorem State.takeFault_inq (c : Cause) (u : BitVec 32) : (s.takeFault c u).inq = s.inq := rfl
@[simp] theorem State.takeFault_eos (c : Cause) (u : BitVec 32) : (s.takeFault c u).eos = s.eos := rfl
@[simp] theorem State.takeFault_outq (c : Cause) (u : BitVec 32) : (s.takeFault c u).outq = s.outq := rfl
@[simp] theorem State.takeFault_turns (c : Cause) (u : BitVec 32) : (s.takeFault c u).turns = s.turns := rfl
@[simp] theorem State.takeFault_hostRead (c : Cause) (u : BitVec 32) : (s.takeFault c u).hostRead = s.hostRead := rfl
@[simp] theorem State.takeFault_hostByte (c : Cause) (u : BitVec 32) : (s.takeFault c u).hostByte = s.hostByte := rfl

/-! ## endBlock -/

@[simp] theorem State.endBlock_cfg (c : Nat) : (s.endBlock c).cfg = s.cfg := rfl
@[simp] theorem State.endBlock_v (c : Nat) : (s.endBlock c).v = s.v := rfl
@[simp] theorem State.endBlock_z (c : Nat) : (s.endBlock c).z = s.z := rfl
@[simp] theorem State.endBlock_xh (c : Nat) : (s.endBlock c).xh = s.xh := rfl
@[simp] theorem State.endBlock_yh (c : Nat) : (s.endBlock c).yh = s.yh := rfl
@[simp] theorem State.endBlock_blk (c : Nat) : (s.endBlock c).blk = s.blk.slide (s.cfg.blockLen - c) c := rfl
@[simp] theorem State.endBlock_fill (c : Nat) : (s.endBlock c).fill = s.cfg.blockLen - c := rfl
@[simp] theorem State.endBlock_config (c : Nat) : (s.endBlock c).config = s.config := rfl
@[simp] theorem State.endBlock_remain (c : Nat) : (s.endBlock c).remain = s.remain := rfl
@[simp] theorem State.endBlock_total (c : Nat) : (s.endBlock c).total = s.total + BitVec.ofNat 64 c := rfl
@[simp] theorem State.endBlock_blkidx (c : Nat) : (s.endBlock c).blkidx = s.blkidx + 1 := rfl
@[simp] theorem State.endBlock_ostate (c : Nat) : (s.endBlock c).ostate = .draining := rfl
@[simp] theorem State.endBlock_upc (c : Nat) : (s.endBlock c).upc = s.upc := rfl
@[simp] theorem State.endBlock_consumed (c : Nat) : (s.endBlock c).consumed = s.consumed := rfl
@[simp] theorem State.endBlock_outcnt (c : Nat) : (s.endBlock c).outcnt = s.outcnt := rfl
@[simp] theorem State.endBlock_readcnt (c : Nat) : (s.endBlock c).readcnt = s.readcnt := rfl
@[simp] theorem State.endBlock_forceEmpty (c : Nat) : (s.endBlock c).forceEmpty = s.forceEmpty := rfl
@[simp] theorem State.endBlock_cause (c : Nat) : (s.endBlock c).cause = s.cause := rfl
@[simp] theorem State.endBlock_errBlock (c : Nat) : (s.endBlock c).errBlock = s.errBlock := rfl
@[simp] theorem State.endBlock_errOffset (c : Nat) : (s.endBlock c).errOffset = s.errOffset := rfl
@[simp] theorem State.endBlock_errUpc (c : Nat) : (s.endBlock c).errUpc = s.errUpc := rfl
@[simp] theorem State.endBlock_inq (c : Nat) : (s.endBlock c).inq = s.inq := rfl
@[simp] theorem State.endBlock_eos (c : Nat) : (s.endBlock c).eos = s.eos := rfl
@[simp] theorem State.endBlock_outq (c : Nat) : (s.endBlock c).outq = s.outq := rfl
@[simp] theorem State.endBlock_turns (c : Nat) : (s.endBlock c).turns = s.turns := rfl
@[simp] theorem State.endBlock_hostRead (c : Nat) : (s.endBlock c).hostRead = s.hostRead := rfl
@[simp] theorem State.endBlock_hostByte (c : Nat) : (s.endBlock c).hostByte = s.hostByte := rfl

/-! ## enterProcessing -/

@[simp] theorem State.enterProcessing_cfg : (s.enterProcessing).cfg = s.cfg := rfl
@[simp] theorem State.enterProcessing_v : (s.enterProcessing).v = Vector.replicate 8 [] := rfl
@[simp] theorem State.enterProcessing_z : (s.enterProcessing).z = Vector.replicate 2 [] := rfl
@[simp] theorem State.enterProcessing_xh : (s.enterProcessing).xh = s.xh := rfl
@[simp] theorem State.enterProcessing_yh : (s.enterProcessing).yh = s.yh := rfl
@[simp] theorem State.enterProcessing_blk : (s.enterProcessing).blk = s.blk := rfl
@[simp] theorem State.enterProcessing_fill : (s.enterProcessing).fill = s.fill := rfl
@[simp] theorem State.enterProcessing_config : (s.enterProcessing).config = s.config := rfl
@[simp] theorem State.enterProcessing_remain : (s.enterProcessing).remain = s.remain := rfl
@[simp] theorem State.enterProcessing_total : (s.enterProcessing).total = s.total := rfl
@[simp] theorem State.enterProcessing_blkidx : (s.enterProcessing).blkidx = s.blkidx := rfl
@[simp] theorem State.enterProcessing_ostate : (s.enterProcessing).ostate = .processing := rfl
@[simp] theorem State.enterProcessing_upc : (s.enterProcessing).upc = if s.modeAudio then 32 else 0 := rfl
@[simp] theorem State.enterProcessing_consumed : (s.enterProcessing).consumed = 0 := rfl
@[simp] theorem State.enterProcessing_outcnt : (s.enterProcessing).outcnt = 0 := rfl
@[simp] theorem State.enterProcessing_readcnt : (s.enterProcessing).readcnt = s.readcnt := rfl
@[simp] theorem State.enterProcessing_forceEmpty : (s.enterProcessing).forceEmpty = s.forceEmpty := rfl
@[simp] theorem State.enterProcessing_cause : (s.enterProcessing).cause = s.cause := rfl
@[simp] theorem State.enterProcessing_errBlock : (s.enterProcessing).errBlock = s.errBlock := rfl
@[simp] theorem State.enterProcessing_errOffset : (s.enterProcessing).errOffset = s.errOffset := rfl
@[simp] theorem State.enterProcessing_errUpc : (s.enterProcessing).errUpc = s.errUpc := rfl
@[simp] theorem State.enterProcessing_inq : (s.enterProcessing).inq = s.inq := rfl
@[simp] theorem State.enterProcessing_eos : (s.enterProcessing).eos = s.eos := rfl
@[simp] theorem State.enterProcessing_outq : (s.enterProcessing).outq = s.outq := rfl
@[simp] theorem State.enterProcessing_turns : (s.enterProcessing).turns = s.turns := rfl
@[simp] theorem State.enterProcessing_hostRead : (s.enterProcessing).hostRead = s.hostRead := rfl
@[simp] theorem State.enterProcessing_hostByte : (s.enterProcessing).hostByte = s.hostByte := rfl

/-! ## takeInput -/

@[simp] theorem State.takeInput_cfg (b : Byte) (rest : List Byte) : (s.takeInput b rest).cfg = s.cfg := rfl
@[simp] theorem State.takeInput_v (b : Byte) (rest : List Byte) : (s.takeInput b rest).v = s.v := rfl
@[simp] theorem State.takeInput_z (b : Byte) (rest : List Byte) : (s.takeInput b rest).z = s.z := rfl
@[simp] theorem State.takeInput_xh (b : Byte) (rest : List Byte) : (s.takeInput b rest).xh = s.xh := rfl
@[simp] theorem State.takeInput_yh (b : Byte) (rest : List Byte) : (s.takeInput b rest).yh = s.yh := rfl
@[simp] theorem State.takeInput_blk (b : Byte) (rest : List Byte) : (s.takeInput b rest).blk = s.blk.write s.fill b := rfl
@[simp] theorem State.takeInput_fill (b : Byte) (rest : List Byte) : (s.takeInput b rest).fill = s.fill + 1 := rfl
@[simp] theorem State.takeInput_config (b : Byte) (rest : List Byte) : (s.takeInput b rest).config = s.config := rfl
@[simp] theorem State.takeInput_remain (b : Byte) (rest : List Byte) : (s.takeInput b rest).remain = s.remain := rfl
@[simp] theorem State.takeInput_total (b : Byte) (rest : List Byte) : (s.takeInput b rest).total = s.total := rfl
@[simp] theorem State.takeInput_blkidx (b : Byte) (rest : List Byte) : (s.takeInput b rest).blkidx = s.blkidx := rfl
@[simp] theorem State.takeInput_ostate (b : Byte) (rest : List Byte) : (s.takeInput b rest).ostate = s.ostate := rfl
@[simp] theorem State.takeInput_upc (b : Byte) (rest : List Byte) : (s.takeInput b rest).upc = s.upc := rfl
@[simp] theorem State.takeInput_consumed (b : Byte) (rest : List Byte) : (s.takeInput b rest).consumed = s.consumed := rfl
@[simp] theorem State.takeInput_outcnt (b : Byte) (rest : List Byte) : (s.takeInput b rest).outcnt = s.outcnt := rfl
@[simp] theorem State.takeInput_readcnt (b : Byte) (rest : List Byte) : (s.takeInput b rest).readcnt = s.readcnt + 1 := rfl
@[simp] theorem State.takeInput_forceEmpty (b : Byte) (rest : List Byte) : (s.takeInput b rest).forceEmpty = s.forceEmpty := rfl
@[simp] theorem State.takeInput_cause (b : Byte) (rest : List Byte) : (s.takeInput b rest).cause = s.cause := rfl
@[simp] theorem State.takeInput_errBlock (b : Byte) (rest : List Byte) : (s.takeInput b rest).errBlock = s.errBlock := rfl
@[simp] theorem State.takeInput_errOffset (b : Byte) (rest : List Byte) : (s.takeInput b rest).errOffset = s.errOffset := rfl
@[simp] theorem State.takeInput_errUpc (b : Byte) (rest : List Byte) : (s.takeInput b rest).errUpc = s.errUpc := rfl
@[simp] theorem State.takeInput_inq (b : Byte) (rest : List Byte) : (s.takeInput b rest).inq = rest := rfl
@[simp] theorem State.takeInput_eos (b : Byte) (rest : List Byte) : (s.takeInput b rest).eos = s.eos := rfl
@[simp] theorem State.takeInput_outq (b : Byte) (rest : List Byte) : (s.takeInput b rest).outq = s.outq := rfl
@[simp] theorem State.takeInput_turns (b : Byte) (rest : List Byte) : (s.takeInput b rest).turns = s.turns := rfl
@[simp] theorem State.takeInput_hostRead (b : Byte) (rest : List Byte) : (s.takeInput b rest).hostRead = s.hostRead := rfl
@[simp] theorem State.takeInput_hostByte (b : Byte) (rest : List Byte) : (s.takeInput b rest).hostByte = s.hostByte := rfl

/-! ## resetBlock -/

@[simp] theorem State.resetBlock_cfg : (s.resetBlock).cfg = s.cfg := rfl
@[simp] theorem State.resetBlock_v : (s.resetBlock).v = Vector.replicate 8 [] := rfl
@[simp] theorem State.resetBlock_z : (s.resetBlock).z = Vector.replicate 2 [] := rfl
@[simp] theorem State.resetBlock_xh : (s.resetBlock).xh = Vector.replicate 16 (restHistory s.cfg) := rfl
@[simp] theorem State.resetBlock_yh : (s.resetBlock).yh = Vector.replicate 16 (restHistory s.cfg) := rfl
@[simp] theorem State.resetBlock_blk : (s.resetBlock).blk = [] := rfl
@[simp] theorem State.resetBlock_fill : (s.resetBlock).fill = 0 := rfl
@[simp] theorem State.resetBlock_config : (s.resetBlock).config = 0 := rfl
@[simp] theorem State.resetBlock_remain : (s.resetBlock).remain = 0 := rfl
@[simp] theorem State.resetBlock_total : (s.resetBlock).total = 0 := rfl
@[simp] theorem State.resetBlock_blkidx : (s.resetBlock).blkidx = 0 := rfl
@[simp] theorem State.resetBlock_ostate : (s.resetBlock).ostate = .idle := rfl
@[simp] theorem State.resetBlock_upc : (s.resetBlock).upc = 0 := rfl
@[simp] theorem State.resetBlock_consumed : (s.resetBlock).consumed = 0 := rfl
@[simp] theorem State.resetBlock_outcnt : (s.resetBlock).outcnt = 0 := rfl
@[simp] theorem State.resetBlock_readcnt : (s.resetBlock).readcnt = 0 := rfl
@[simp] theorem State.resetBlock_forceEmpty : (s.resetBlock).forceEmpty = false := rfl
@[simp] theorem State.resetBlock_cause : (s.resetBlock).cause = 0 := rfl
@[simp] theorem State.resetBlock_errBlock : (s.resetBlock).errBlock = 0 := rfl
@[simp] theorem State.resetBlock_errOffset : (s.resetBlock).errOffset = 0 := rfl
@[simp] theorem State.resetBlock_errUpc : (s.resetBlock).errUpc = 0 := rfl
@[simp] theorem State.resetBlock_inq : (s.resetBlock).inq = [] := rfl
@[simp] theorem State.resetBlock_eos : (s.resetBlock).eos = false := rfl
@[simp] theorem State.resetBlock_outq : (s.resetBlock).outq = [] := rfl
@[simp] theorem State.resetBlock_turns : (s.resetBlock).turns = s.turns := rfl
@[simp] theorem State.resetBlock_hostRead : (s.resetBlock).hostRead = s.hostRead := rfl
@[simp] theorem State.resetBlock_hostByte : (s.resetBlock).hostByte = s.hostByte := rfl

end Sys2Proof.Machine
end

