-- ==== Sys2Proof/Laws/Registers.lean ====
section
/-!
SUPPORT. Reading the registers after a named update.
-/
namespace Sys2Proof.Machine

variable (s : State)

theorem State.readV_writeV (i j : VReg) (xs : List Num64) :
    (s.writeV i xs).readV j = if j = i then xs else s.readV j := by
  simp only [State.readV, State.writeV_v, Vector.get_eq_getElem, Vector.getElem_set]
  split <;> split <;> simp_all [Fin.ext_iff]

@[simp] theorem State.readV_writeV_same (i : VReg) (xs : List Num64) : (s.writeV i xs).readV i = xs := by
  simp [State.readV_writeV]

theorem State.readV_writeV_ne {i j : VReg} (h : j ≠ i) (xs : List Num64) :
    (s.writeV i xs).readV j = s.readV j := by
  simp [State.readV_writeV, h]

theorem State.readZ_writeZ (i j : ZReg) (xs : List (Num64 × Num64)) :
    (s.writeZ i xs).readZ j = if j = i then xs else s.readZ j := by
  simp only [State.readZ, State.writeZ_z, Vector.get_eq_getElem, Vector.getElem_set]
  split <;> split <;> simp_all [Fin.ext_iff]

@[simp] theorem State.readZ_writeZ_same (i : ZReg) (xs : List (Num64 × Num64)) : (s.writeZ i xs).readZ i = xs := by
  simp [State.readZ_writeZ]

theorem State.readZ_writeZ_ne {i j : ZReg} (h : j ≠ i) (xs : List (Num64 × Num64)) :
    (s.writeZ i xs).readZ j = s.readZ j := by
  simp [State.readZ_writeZ, h]

theorem State.readXh_writeRun (t u : RunState) (xs ys : List Num64) :
    (s.writeRun t xs ys).readXh u = if u = t then xs else s.readXh u := by
  simp only [State.readXh, State.writeRun_xh, Vector.get_eq_getElem, Vector.getElem_set]
  split <;> split <;> simp_all [Fin.ext_iff]

theorem State.readYh_writeRun (t u : RunState) (xs ys : List Num64) :
    (s.writeRun t xs ys).readYh u = if u = t then ys else s.readYh u := by
  simp only [State.readYh, State.writeRun_yh, Vector.get_eq_getElem, Vector.getElem_set]
  split <;> split <;> simp_all [Fin.ext_iff]

/-! ## An update that leaves a register file alone -/

@[simp] theorem State.readZ_writeV (i : VReg) (xs : List Num64) (j : ZReg) :
    (s.writeV i xs).readZ j = s.readZ j := rfl
@[simp] theorem State.readXh_writeV (i : VReg) (xs : List Num64) (t : RunState) :
    (s.writeV i xs).readXh t = s.readXh t := rfl
@[simp] theorem State.readYh_writeV (i : VReg) (xs : List Num64) (t : RunState) :
    (s.writeV i xs).readYh t = s.readYh t := rfl
@[simp] theorem State.readV_writeZ (i : ZReg) (xs : List (Num64 × Num64)) (j : VReg) :
    (s.writeZ i xs).readV j = s.readV j := rfl
@[simp] theorem State.readXh_writeZ (i : ZReg) (xs : List (Num64 × Num64)) (t : RunState) :
    (s.writeZ i xs).readXh t = s.readXh t := rfl
@[simp] theorem State.readYh_writeZ (i : ZReg) (xs : List (Num64 × Num64)) (t : RunState) :
    (s.writeZ i xs).readYh t = s.readYh t := rfl
@[simp] theorem State.readV_writeRun (t : RunState) (xs ys : List Num64) (j : VReg) :
    (s.writeRun t xs ys).readV j = s.readV j := rfl
@[simp] theorem State.readZ_writeRun (t : RunState) (xs ys : List Num64) (j : ZReg) :
    (s.writeRun t xs ys).readZ j = s.readZ j := rfl
@[simp] theorem State.readV_emit (bytes : List Byte) (n : Nat) (j : VReg) :
    (s.emit bytes n).readV j = s.readV j := rfl
@[simp] theorem State.readZ_emit (bytes : List Byte) (n : Nat) (j : ZReg) :
    (s.emit bytes n).readZ j = s.readZ j := rfl
@[simp] theorem State.readXh_emit (bytes : List Byte) (n : Nat) (t : RunState) :
    (s.emit bytes n).readXh t = s.readXh t := rfl
@[simp] theorem State.readYh_emit (bytes : List Byte) (n : Nat) (t : RunState) :
    (s.emit bytes n).readYh t = s.readYh t := rfl
@[simp] theorem State.readV_advance (j : VReg) : s.advance.readV j = s.readV j := rfl
@[simp] theorem State.readZ_advance (j : ZReg) : s.advance.readZ j = s.readZ j := rfl
@[simp] theorem State.readXh_advance (t : RunState) : s.advance.readXh t = s.readXh t := rfl
@[simp] theorem State.readYh_advance (t : RunState) : s.advance.readYh t = s.readYh t := rfl
@[simp] theorem State.readV_takeFault (c : Cause) (u : BitVec 32) (j : VReg) :
    (s.takeFault c u).readV j = s.readV j := rfl
@[simp] theorem State.readZ_takeFault (c : Cause) (u : BitVec 32) (j : ZReg) :
    (s.takeFault c u).readZ j = s.readZ j := rfl
@[simp] theorem State.readXh_takeFault (c : Cause) (u : BitVec 32) (t : RunState) :
    (s.takeFault c u).readXh t = s.readXh t := rfl
@[simp] theorem State.readYh_takeFault (c : Cause) (u : BitVec 32) (t : RunState) :
    (s.takeFault c u).readYh t = s.readYh t := rfl
@[simp] theorem State.readV_endBlock (c : Nat) (j : VReg) : (s.endBlock c).readV j = s.readV j := rfl
@[simp] theorem State.readZ_endBlock (c : Nat) (j : ZReg) : (s.endBlock c).readZ j = s.readZ j := rfl
@[simp] theorem State.readXh_endBlock (c : Nat) (t : RunState) : (s.endBlock c).readXh t = s.readXh t := rfl
@[simp] theorem State.readYh_endBlock (c : Nat) (t : RunState) : (s.endBlock c).readYh t = s.readYh t := rfl

/-! ## Registers that an update empties or puts at rest -/

@[simp] theorem State.readV_enterProcessing (j : VReg) : s.enterProcessing.readV j = [] := by
  simp [State.readV, Vector.get_eq_getElem]
@[simp] theorem State.readZ_enterProcessing (j : ZReg) : s.enterProcessing.readZ j = [] := by
  simp [State.readZ, Vector.get_eq_getElem]
@[simp] theorem State.readV_resetOf (cfg : Cfg) (j : VReg) : (State.resetOf cfg).readV j = [] := by
  simp [State.readV, State.resetOf, Vector.get_eq_getElem]
@[simp] theorem State.readZ_resetOf (cfg : Cfg) (j : ZReg) : (State.resetOf cfg).readZ j = [] := by
  simp [State.readZ, State.resetOf, Vector.get_eq_getElem]
@[simp] theorem State.readXh_resetOf (cfg : Cfg) (t : RunState) :
    (State.resetOf cfg).readXh t = restHistory cfg := by
  simp [State.readXh, State.resetOf, Vector.get_eq_getElem]
@[simp] theorem State.readYh_resetOf (cfg : Cfg) (t : RunState) :
    (State.resetOf cfg).readYh t = restHistory cfg := by
  simp [State.readYh, State.resetOf, Vector.get_eq_getElem]
@[simp] theorem restHistory_length (cfg : Cfg) : (restHistory cfg).length = cfg.ntapMax - 1 := by
  simp [restHistory]

end Sys2Proof.Machine
end

