-- ==== Sys2Proof/Laws/Ops.lean ====
section
/-!
SUPPORT. Once for each shared operation, everything it can do; and once for `exec`, every shape its answer can have.
-/
namespace Sys2Proof.Machine

variable (s : State)

/-! ## Parameters -/

theorem cfgLegal_minimalCfg : cfgLegal minimalCfg = true := by decide +kernel

/-- The hardware's parameters are legal, whatever the opaque ones are. -/
theorem cfgLegal_hardwareCfg : cfgLegal hardwareCfg = true := by
  have h : cfgLegal openParams = true := by
    unfold openParams
    split
    · simp_all
    · exact cfgLegal_minimalCfg
  simp only [cfgLegal, Bool.and_eq_true, decide_eq_true_eq] at h
  obtain ⟨⟨⟨⟨⟨⟨⟨⟨h1, h2⟩, _⟩, h4⟩, _⟩, h6⟩, h7⟩, h8⟩, h9⟩ := h
  simp only [cfgLegal, hardwareCfg, Bool.and_eq_true]
  exact ⟨⟨⟨⟨⟨⟨⟨⟨decide_eq_true h1, decide_eq_true h2⟩, decide_eq_true h1⟩, decide_eq_true h4⟩, by decide⟩, h6⟩,
    h7⟩, h8⟩, h9⟩

/-- The sizes a legal record has. -/
theorem cfgLegal_sizes {c : Cfg} (h : cfgLegal c = true) :
    1 ≤ c.blockLen ∧ c.blockLen < 2 ^ 32 ∧ 1 ≤ c.hlen ∧ 1 ≤ c.ntapMax ∧ 1 ≤ c.wrapIterMax := by
  simp only [cfgLegal, Bool.and_eq_true, decide_eq_true_eq] at h
  tauto

/-! ## Completion and fault entry -/

theorem complete_eq : complete s = { s with upc := s.upc + 1 } := rfl

theorem raise_eq (c : Cause) : raise c s = s.takeFault c (s.upc.setWidth 32) := rfl

/-- Fault entry writes the record and OSTATE, and nothing else. -/
theorem takeFault_eq (c : Cause) (u : BitVec 32) :
    s.takeFault c u =
      { s with cause := c.code, errBlock := s.blkidx, errOffset := s.total, errUpc := u, ostate := .fault } := rfl

theorem Cause.code_ne_zero (c : Cause) : c.code ≠ 0 := by cases c <;> decide

theorem Cause.code_le (c : Cause) : c.code.toNat ≤ 6 := by cases c <;> decide

theorem Cause.code_injective {c d : Cause} (h : c.code = d.code) : c = d := by
  revert h; cases c <;> cases d <;> decide

/-! ## Slots -/

/-- When a slot is read: it resolved and its valid flag is set. -/
theorem readSlot_ok {f : Nat} {sl : Slot} (h : readSlot s f = .ok sl) :
    ∃ c, resolveSlot s f = .ok c ∧ s.cfg.rom.get c = sl ∧ sl.valid = true := by
  unfold readSlot at h
  split at h
  · cases h
  · rename_i c hc
    split at h
    · cases h; exact ⟨c, hc, rfl, by assumption⟩
    · cases h

/-- Reading a slot fails with ILLEGAL_UOP or CONFIG_DESIGN. -/
theorem readSlot_error {f : Nat} {c : Cause} (h : readSlot s f = .error c) :
    c = .illegalUop ∨ c = .configDesign := by
  unfold readSlot resolveSlot at h
  split at h
  · rename_i e he
    cases h
    split at he
    · cases he
    · split at he
      · split at he <;> cases he
        simp
      · split at he <;> cases he
        simp
  · split at h <;> cases h
    simp

/-- When the FIR datapath reads a slot: it was read and is of FIR kind. -/
theorem readFirSlot_ok {f : Nat} {sl : Slot} (h : readFirSlot s f = .ok sl) :
    readSlot s f = .ok sl ∧ slotIsFir sl = true := by
  unfold readFirSlot at h
  split at h
  · cases h
  · split at h
    · cases h; exact ⟨by assumption, by assumption⟩
    · cases h

/-! ## The analytic signal -/

@[simp] theorem Fp.analytic_length (w : List Num64) : (Fp.analytic w).length = w.length := by
  rcases w with _ | ⟨x, _ | ⟨y, w⟩⟩ <;> simp [Fp.analytic]

@[simp] theorem analyticWindow_length (hlen : Nat) (w : List Num64) :
    (analyticWindow binary64 hlen w).length = min w.length hlen := by
  simp [analyticWindow, binary64, Nat.min_comm]

/-! ## What a micro-operation can do -/

/-- The answers of `exec`, one shape for each kind of effect. Lengths are bounded by what the operation read. -/
inductive Effect (i : Instr) (s : State) : State → Prop where
  | raised (c : Cause) : Effect i s (raise c s)
  | real (rd : VReg) (xs : List Num64)
      (h : (∃ rs, xs.length ≤ (s.readV rs).length) ∨ (∃ rs, xs.length ≤ (s.readZ rs).length) ∨ xs.length = s.fill) :
      Effect i s (complete (s.writeV rd xs))
  | complex (rd : ZReg) (xs : List (Num64 × Num64))
      (h : (∃ rs, xs.length ≤ (s.readV rs).length) ∨ (∃ rs, xs.length ≤ (s.readZ rs).length)) :
      Effect i s (complete (s.writeZ rd xs))
  | stream (rd rs : VReg) (t : RunState) (ys xh yh : List Num64) (hy : ys.length = (s.readV rs).length)
      (hx : xh.length = s.histLen) (hh : yh.length = s.histLen) :
      Effect i s (complete ((s.writeV rd ys).writeRun t xh yh))
  | output (bytes : List Byte) (n : Nat) (rs : VReg) (hn : n ≤ (s.readV rs).length)
      (hi : i.mnemonic = "EMIT16" ∨ i.mnemonic = "EMITF") : Effect i s (complete (s.emit bytes n))
  | report (c : Nat) (h1 : 1 ≤ c) (h2 : c ≤ s.cfg.blockLen) :
      Effect i s (complete { s with consumed := BitVec.ofNat 32 c })
  | jump (k : BitVec 7) : Effect i s { s with upc := s.upc + k }
  | endBlock (h : s.consumed.toNat ≠ 0) (hi : i = .endProg) : Effect i s (s.endBlock s.consumed.toNat)

/-- Every micro-operation answers a next state, of one of these shapes. -/
theorem exec_effect (i : Instr) : ∃ t, exec i s = .next t ∧ Effect i s t := by
  cases i with
  | endProg =>
    refine ⟨_, rfl, ?_⟩
    split
    · exact .raised _
    · exact .endBlock (by assumption) rfl
  | skipz cbit =>
    refine ⟨_, rfl, ?_⟩
    split
    · exact .jump 1
    · exact .jump 2
  | adv imm =>
    refine ⟨_, rfl, ?_⟩
    split
    · exact .raised _
    · split
      · exact .raised _
      · exact .report _ (by omega) (by omega)
  | ldblk rd => exact ⟨_, rfl, .real rd _ (.inr (.inr (by simp)))⟩
  | emit16 rs =>
    refine ⟨_, rfl, ?_⟩
    split
    · exact .raised _
    · rename_i codes h
      exact .output _ _ rs (by rw [(videoCodes_ok _ h).1]; simp) (.inl rfl)
  | emitf rs rt =>
    refine ⟨_, rfl, ?_⟩
    split
    · exact .raised _
    · exact .output _ _ rs (by simp [framesOf]) (.inr rfl)
  | firB rd rs slot =>
    refine ⟨_, rfl, ?_⟩
    split
    · exact .raised _
    · exact .real rd _ (.inl ⟨rs, by simp⟩)
  | firS rd rs t slot =>
    refine ⟨_, rfl, ?_⟩
    split
    · exact .raised _
    · exact .stream rd rs t _ _ _ (by simp) (by simp) (by simp)
  | iirB rd rs slot =>
    refine ⟨_, rfl, ?_⟩
    split
    · exact .raised _
    · exact .real rd _ (.inl ⟨rs, by simp⟩)
  | iirS rd rs t slot =>
    refine ⟨_, rfl, ?_⟩
    split
    · exact .raised _
    · exact .stream rd rs t _ _ _ (by simp) (by simp) (by simp)
  | trimh rd rs imm => exact ⟨_, rfl, .real rd _ (.inl ⟨rs, by simp⟩)⟩
  | trimhk rd rs k slot =>
    refine ⟨_, rfl, ?_⟩
    split
    · exact .raised _
    · exact .real rd _ (.inl ⟨rs, by simp⟩)
  | decim rd rs imm =>
    refine ⟨_, rfl, ?_⟩
    split
    · exact .raised _
    · exact .real rd _ (.inl ⟨rs, decimate_length_le _ _ _⟩)
  | anlt rd rs => exact ⟨_, rfl, .complex rd _ (.inl ⟨rs, by simp⟩)⟩
  | chop rd rs imm => exact ⟨_, rfl, .complex rd _ (.inr ⟨rs, by simp⟩)⟩
  | angle rd rs => exact ⟨_, rfl, .real rd _ (.inr (.inl ⟨rs, by simp⟩))⟩
  | diff rd rs => exact ⟨_, rfl, .real rd _ (.inl ⟨rs, by simp⟩)⟩
  | fix0 rd rs => exact ⟨_, rfl, .real rd _ (.inl ⟨rs, by simp⟩)⟩
  | unwrap rd rs => exact ⟨_, rfl, .real rd _ (.inl ⟨rs, by simp⟩)⟩
  | sclhz rd rs sel => exact ⟨_, rfl, .real rd _ (.inl ⟨rs, by simp⟩)⟩
  | wrapc rd rs sel =>
    refine ⟨_, rfl, ?_⟩
    split
    · exact .raised _
    · rename_i xs h
      exact .real rd xs (.inl ⟨rs, (wrapCorrect_ok _ h).2.2.le⟩)
  | subcf rd rs sel => exact ⟨_, rfl, .real rd _ (.inl ⟨rs, by simp⟩)⟩
  | clipdev rd rs => exact ⟨_, rfl, .real rd _ (.inl ⟨rs, by simp⟩)⟩
  | iremap rd rs => exact ⟨_, rfl, .real rd _ (.inl ⟨rs, by simp⟩)⟩

end Sys2Proof.Machine
end

