-- ==== Sys2Proof/Laws/Counts.lean ====
section
/-!
SUPPORT. The counts of a block: how long the demodulator's result is, and the sample accounting of the audio stage.
-/
namespace Sys2Proof.Machine

/-- Length of the eight demodulator micro-operations' result, before WRAPC (42_fm_demodulator.md R162). -/
theorem demod_length (hlen : Nat) (F : Num64) (w : List Num64) :
    (scaleHz binary64 F (unwrapSeq binary64 (fixFirst binary64 (differences binary64
      ((chopEnds Config.edgeTrim (analyticWindow binary64 hlen w)).map (phaseOf binary64)))))).length =
      demodLength hlen w.length := by
  simp [demodLength]

/-- The accounting of 44_audio_stage.md R210: with equal band-pass lengths, a window bound that cuts nothing, and at
least one frame, the block is 80 samples a frame, the declared transients, and a remainder of -79 to 0. -/
theorem audio_accounting (c : Cfg) (lb : Nat) (h10 : tapCount c 10 = lb) (h11 : tapCount c 11 = lb)
    (hwin : c.blockLen ≤ c.hlen) (hf : 1 ≤ audioFrames c) :
    80 * audioFrames c + audioTransients (tapCount c 9) lb ≤ c.blockLen + 79 ∧
      c.blockLen ≤ 80 * audioFrames c + audioTransients (tapCount c 9) lb := by
  simp only [audioFrames, audioSamples, demodLength, audioTransients, Config.kRf, Config.dec1, Config.kAbp,
    Config.edgeTrim, Config.tAlpf, Config.dec2, h10, h11] at hf ⊢
  omega

end Sys2Proof.Machine
end

