-- ==== Sys2Proof/Laws/Fp.lean ====
section
/-!
SUPPORT. The classes of binary64 data, and that every operation that makes a NaN makes one whatever its free bits are.
-/
namespace Sys2Proof.Machine

theorem Fp.expBits_eq (x : Num64) : Fp.expBits x = (x.extractLsb' 52 11).toNat := by
  simp [Fp.expBits, BitVec.extractLsb'_toNat, Nat.shiftRight_eq_div_pow]

theorem Fp.fracBits_eq (x : Num64) : Fp.fracBits x = (x.extractLsb' 0 52).toNat := by
  simp [Fp.fracBits, BitVec.extractLsb'_toNat]

/-- The NaN of an operation is a NaN for every value of the free bits (log entry 4). -/
@[simp] theorem Fp.isNaN_nan (op : Nat) (a b : Num64) : Fp.isNaN (Fp.nan op a b) = true := by
  have h1 : Fp.expBits (Fp.nan op a b) = 2047 := by
    rw [Fp.expBits_eq, Fp.nan, BitVec.extractLsb'_or]
    have : (0x7FF8000000000000 : Num64).extractLsb' 52 11 = BitVec.allOnes 11 := by decide
    rw [this, BitVec.or_allOnes]
    rfl
  have h2 : Fp.fracBits (Fp.nan op a b) ≠ 0 := by
    rw [Fp.fracBits_eq, Fp.nan]
    intro h
    have h' := congrArg (fun n => n.testBit 51) h
    rw [BitVec.testBit_toNat] at h'
    simp at h'
  simp [Fp.isNaN, h1, h2]

theorem Fp.isNaN_add {a b : Num64} (h : Fp.isNaN a = true ∨ Fp.isNaN b = true) : Fp.isNaN (Fp.add a b) = true := by
  rcases h with h | h <;> simp [Fp.add, h]

theorem Fp.isNaN_sub {a b : Num64} (h : Fp.isNaN a = true ∨ Fp.isNaN b = true) : Fp.isNaN (Fp.sub a b) = true := by
  rcases h with h | h <;> simp [Fp.sub, h]

theorem Fp.isNaN_mul {a b : Num64} (h : Fp.isNaN a = true ∨ Fp.isNaN b = true) : Fp.isNaN (Fp.mul a b) = true := by
  rcases h with h | h <;> simp [Fp.mul, h]

theorem Fp.isNaN_div {a b : Num64} (h : Fp.isNaN a = true ∨ Fp.isNaN b = true) : Fp.isNaN (Fp.div a b) = true := by
  rcases h with h | h <;> simp [Fp.div, h]

theorem Fp.isNaN_atan2 {y x : Num64} (h : Fp.isNaN y = true ∨ Fp.isNaN x = true) :
    Fp.isNaN (Fp.atan2 y x) = true := by
  rcases h with h | h <;> simp [Fp.atan2, h]

/-- The arctangent of data that are not NaN and not both zero is in [-PI, PI], whatever its free value (log entry 5). -/
theorem Fp.atan2_range {y x : Num64} (hy : Fp.isNaN y = false) (hx : Fp.isNaN x = false)
    (h0 : ¬(Fp.eq y Fp.posZero = true ∧ Fp.eq x Fp.posZero = true)) :
    Fp.le (Fp.neg Fp.pi) (Fp.atan2 y x) = true ∧ Fp.le (Fp.atan2 y x) Fp.pi = true := by
  have h0' : (Fp.eq y Fp.posZero && Fp.eq x Fp.posZero) = false := by simpa using h0
  simp only [Fp.atan2, hy, hx, h0', Bool.or_self, Bool.not_false, Bool.true_and]
  split
  · contradiction
  · split
    · decide
    · simp_all

end Sys2Proof.Machine
end

