-- ==== Sys2Proof/Laws/PerInstr.lean ====
section
/-!
SUPPORT. The family EncodedOp, one lemma per constructor: the `op` field of a well-formed instruction's word is its
row's `op` (30_encoding.md R91, R96).
-/
namespace Sys2Proof.Laws.EncodedOp

/-- The encoder puts the row's operation code where the decoder looks for it. -/
def Statement (i : Instr) : Prop := i.wellFormed = true → opField (encode i) = i.op

/-- The `op` field of a word whose lower fields fit below bit 24. -/
theorem opField_wordOf {op rd rs rt imm : Nat} (hop : op < 256) (h : rd < 16) (h' : rs < 16) (h2 : rt < 16)
    (hi : imm < 4096) : opField (wordOf op rd rs rt imm) = op := by
  simp only [opField, fieldOf, wordOf, BitVec.toNat_ofNat]
  omega

theorem op_lt (i : Instr) : i.op < 256 := by cases i <;> simp [Instr.op]

theorem scaleBit_lt (sel : Scale) : sel.bit < 4096 := by cases sel <;> decide
theorem channelBit_lt (sel : Channel) : sel.bit < 4096 := by cases sel <;> decide

theorem endProg : Statement (.endProg) := by
  intro _
  exact opField_wordOf (op_lt _) (by omega) (by omega) (by omega) (by decide)

theorem skipz (cbit : Fin 8) : Statement (.skipz cbit) := by
  intro _
  exact opField_wordOf (op_lt _) (by omega) (by omega) (by omega) (by omega)

theorem adv (imm : Nat) : Statement (.adv imm) := by
  intro h
  have hi : imm < 4096 := by simpa [Instr.wellFormed, immFits] using h
  exact opField_wordOf (op_lt _) (by omega) (by omega) (by omega) hi

theorem ldblk (rd : VReg) : Statement (.ldblk rd) := by
  intro _
  exact opField_wordOf (op_lt _) (by omega) (by omega) (by omega) (by decide)

theorem emit16 (rs : VReg) : Statement (.emit16 rs) := by
  intro _
  exact opField_wordOf (op_lt _) (by omega) (by omega) (by omega) (by decide)

theorem emitf (rs : VReg) (rt : VReg) : Statement (.emitf rs rt) := by
  intro _
  exact opField_wordOf (op_lt _) (by omega) (by omega) (by omega) (by decide)

theorem firB (rd : VReg) (rs : VReg) (slot : Nat) : Statement (.firB rd rs slot) := by
  intro h
  have hs : slot < 32 := by simpa [Instr.wellFormed, slotFits] using h
  exact opField_wordOf (op_lt _) (by omega) (by omega) (by omega) (by omega)

theorem firS (rd : VReg) (rs : VReg) (t : RunState) (slot : Nat) : Statement (.firS rd rs t slot) := by
  intro h
  have hs : slot < 32 := by simpa [Instr.wellFormed, slotFits] using h
  exact opField_wordOf (op_lt _) (by omega) (by omega) (by omega) (by omega)

theorem iirB (rd : VReg) (rs : VReg) (slot : Nat) : Statement (.iirB rd rs slot) := by
  intro h
  have hs : slot < 32 := by simpa [Instr.wellFormed, slotFits] using h
  exact opField_wordOf (op_lt _) (by omega) (by omega) (by omega) (by omega)

theorem iirS (rd : VReg) (rs : VReg) (t : RunState) (slot : Nat) : Statement (.iirS rd rs t slot) := by
  intro h
  have hs : slot < 32 := by simpa [Instr.wellFormed, slotFits] using h
  exact opField_wordOf (op_lt _) (by omega) (by omega) (by omega) (by omega)

theorem trimh (rd : VReg) (rs : VReg) (imm : Nat) : Statement (.trimh rd rs imm) := by
  intro h
  have hi : imm < 4096 := by simpa [Instr.wellFormed, immFits] using h
  exact opField_wordOf (op_lt _) (by omega) (by omega) (by omega) hi

theorem trimhk (rd : VReg) (rs : VReg) (k : Nat) (slot : Nat) : Statement (.trimhk rd rs k slot) := by
  intro h
  have hk : k < 128 ∧ slot < 32 := by simpa [Instr.wellFormed, kFits, slotFits] using h
  exact opField_wordOf (op_lt _) (by omega) (by omega) (by omega) (by omega)

theorem decim (rd : VReg) (rs : VReg) (imm : Nat) : Statement (.decim rd rs imm) := by
  intro h
  have hi : imm < 4096 := by simpa [Instr.wellFormed, immFits] using h
  exact opField_wordOf (op_lt _) (by omega) (by omega) (by omega) hi

theorem anlt (rd : ZReg) (rs : VReg) : Statement (.anlt rd rs) := by
  intro _
  exact opField_wordOf (op_lt _) (by omega) (by omega) (by omega) (by decide)

theorem chop (rd : ZReg) (rs : ZReg) (imm : Nat) : Statement (.chop rd rs imm) := by
  intro h
  have hi : imm < 4096 := by simpa [Instr.wellFormed, immFits] using h
  exact opField_wordOf (op_lt _) (by omega) (by omega) (by omega) hi

theorem angle (rd : VReg) (rs : ZReg) : Statement (.angle rd rs) := by
  intro _
  exact opField_wordOf (op_lt _) (by omega) (by omega) (by omega) (by decide)

theorem diff (rd : VReg) (rs : VReg) : Statement (.diff rd rs) := by
  intro _
  exact opField_wordOf (op_lt _) (by omega) (by omega) (by omega) (by decide)

theorem fix0 (rd : VReg) (rs : VReg) : Statement (.fix0 rd rs) := by
  intro _
  exact opField_wordOf (op_lt _) (by omega) (by omega) (by omega) (by decide)

theorem unwrap (rd : VReg) (rs : VReg) : Statement (.unwrap rd rs) := by
  intro _
  exact opField_wordOf (op_lt _) (by omega) (by omega) (by omega) (by decide)

theorem sclhz (rd : VReg) (rs : VReg) (sel : Scale) : Statement (.sclhz rd rs sel) := by
  intro _
  exact opField_wordOf (op_lt _) (by omega) (by omega) (by omega) (scaleBit_lt sel)

theorem wrapc (rd : VReg) (rs : VReg) (sel : Scale) : Statement (.wrapc rd rs sel) := by
  intro _
  exact opField_wordOf (op_lt _) (by omega) (by omega) (by omega) (scaleBit_lt sel)

theorem subcf (rd : VReg) (rs : VReg) (sel : Channel) : Statement (.subcf rd rs sel) := by
  intro _
  exact opField_wordOf (op_lt _) (by omega) (by omega) (by omega) (channelBit_lt sel)

theorem clipdev (rd : VReg) (rs : VReg) : Statement (.clipdev rd rs) := by
  intro _
  exact opField_wordOf (op_lt _) (by omega) (by omega) (by omega) (by decide)

theorem iremap (rd : VReg) (rs : VReg) : Statement (.iremap rd rs) := by
  intro _
  exact opField_wordOf (op_lt _) (by omega) (by omega) (by omega) (by decide)

end Sys2Proof.Laws.EncodedOp
end

