-- ==== Sys2Proof/Laws/Rounding.lean ====
section
/-!
SUPPORT. Rounding: the values of magnitude bits, that roundMag gives the nearest one with ties to even, that rhz gives
the nearest integer with ties to the smaller magnitude, and the sign of a rounded result.
-/
namespace Sys2Proof.Machine

/-! ## Rounding to an integer -/

/-- shiftRne is a nearest integer to `m / 2^d`, and even on a tie. -/
theorem Fp.shiftRne_nearest (m d : Nat) (n : ℤ) :
    |(Fp.shiftRne m d : ℝ) - m / 2 ^ d| ≤ |(n : ℝ) - m / 2 ^ d| ∧
    ((n : ℝ) ≠ Fp.shiftRne m d → |(n : ℝ) - m / 2 ^ d| = |(Fp.shiftRne m d : ℝ) - m / 2 ^ d| →
      Fp.shiftRne m d % 2 = 0) := by
  have hp : 0 < 2 ^ d := Nat.two_pow_pos d
  set D := 2 ^ d with hD
  set hi := m / D with hhi
  set lo := m % D with hlo
  have hm : D * hi + lo = m := Nat.div_add_mod m D
  have hlt : lo < D := Nat.mod_lt _ hp
  have hDr : (2 : ℝ) ^ d = (D : ℝ) := by rw [hD]; push_cast; rfl
  have hDpos : (0 : ℝ) < D := by exact_mod_cast hp
  have hx : (m : ℝ) / 2 ^ d = hi + lo / D := by
    rw [hDr, ← hm]; push_cast; field_simp
  rw [hx]
  set f : ℝ := (lo : ℝ) / D with hf
  have hf0 : 0 ≤ f := by positivity
  have hf1 : f < 1 := by rw [hf, div_lt_one hDpos]; exact_mod_cast hlt
  -- every integer is at distance at least min f (1 - f)
  have far : ∀ n : ℤ, f ≤ |(n : ℝ) - (hi + f)| ∨ 1 - f ≤ |(n : ℝ) - (hi + f)| := by
    intro n
    rcases le_or_gt n hi with h | h
    · left
      have : (n : ℝ) ≤ hi := by exact_mod_cast h
      rw [abs_of_nonpos (by linarith)]; linarith
    · right
      have : (hi : ℝ) + 1 ≤ n := by exact_mod_cast h
      rw [abs_of_nonneg (by linarith)]; linarith
  have hhalf : (D < 2 * lo ↔ 1 / 2 < f) ∧ (D = 2 * lo ↔ f = 1 / 2) := by
    rw [hf]
    constructor
    · rw [lt_div_iff₀ hDpos]
      constructor
      · intro h
        have : (D : ℝ) < 2 * lo := by exact_mod_cast h
        linarith
      · intro h
        have : (D : ℝ) < 2 * lo := by linarith
        exact_mod_cast this
    · rw [div_eq_iff hDpos.ne']
      constructor
      · intro h
        have : (D : ℝ) = 2 * lo := by exact_mod_cast h
        linarith
      · intro h
        have : (D : ℝ) = 2 * lo := by linarith
        exact_mod_cast this
  have hr : Fp.shiftRne m d = if D < 2 * lo ∨ (D = 2 * lo ∧ hi % 2 = 1) then hi + 1 else hi := rfl
  have down : |(hi : ℝ) - (hi + f)| = f := by rw [abs_of_nonpos (by linarith)]; ring
  have up : |((hi : ℝ) + 1) - (hi + f)| = 1 - f := by rw [abs_of_nonneg (by linarith)]; ring
  by_cases hup : D < 2 * lo ∨ (D = 2 * lo ∧ hi % 2 = 1)
  · rw [if_pos hup] at hr
    rw [hr]
    push_cast
    rw [up]
    have hge : 1 / 2 ≤ f := by
      rcases hup with h | h
      · exact (hhalf.1.mp h).le
      · exact (hhalf.2.mp h.1).ge
    refine ⟨?_, ?_⟩
    · rcases far n with h | h <;> linarith
    · intro hne heq
      rcases hup with h | h
      · exfalso
        have h' := hhalf.1.mp h
        have hn : hi < n ∨ n ≤ hi := lt_or_ge _ _
        rcases hn with hn | hn
        · have h1 : (hi : ℤ) + 1 ≤ n := hn
          rcases h1.lt_or_eq with h2 | h2
          · have : (hi : ℝ) + 1 + 1 ≤ n := by exact_mod_cast h2
            rw [abs_of_nonneg (by linarith)] at heq; linarith
          · apply hne; rw [← h2]; push_cast; rfl
        · have : (n : ℝ) ≤ hi := by exact_mod_cast hn
          rw [abs_of_nonpos (by linarith)] at heq; linarith
      · omega
  · rw [if_neg hup] at hr
    rw [hr, down]
    rw [not_or, not_and] at hup
    have hle : f ≤ 1 / 2 := by
      by_contra h
      exact hup.1 (hhalf.1.mpr (not_le.mp h))
    refine ⟨?_, ?_⟩
    · rcases far n with h | h <;> linarith
    · intro hne heq
      rcases hle.lt_or_eq with h | h
      · exfalso
        rcases lt_or_ge n (hi : ℤ) with hn | hn
        · have : (n : ℝ) + 1 ≤ hi := by exact_mod_cast hn
          rw [abs_of_nonpos (by linarith)] at heq; linarith
        · rcases hn.lt_or_eq with h2 | h2
          · have : (hi : ℝ) + 1 ≤ n := by exact_mod_cast h2
            rw [abs_of_nonneg (by linarith)] at heq; linarith
          · apply hne; rw [← h2]; push_cast; rfl
      · have := hup.2 (hhalf.2.mpr h)
        omega

/-! ## The values of magnitude bits -/

/-- The significand and the unit's exponent of magnitude bits, in the format of `roundMag`. -/
def magSig (mb mag : Nat) : Nat := if mag / 2 ^ mb = 0 then mag else 2 ^ mb + mag % 2 ^ mb
def magExp (mb : Nat) (emin : Int) (mag : Nat) : Int := emin + ((mag / 2 ^ mb - 1 : Nat) : Int)

/-- The number that magnitude bits stand for, read past infinity as if the exponents went on. -/
noncomputable def magValue (mb : Nat) (emin : Int) (mag : Nat) : ℝ :=
  (magSig mb mag : ℝ) * (2 : ℝ) ^ magExp mb emin mag

theorem magSig_lt (mb mag : Nat) : magSig mb mag < 2 ^ (mb + 1) := by
  have h := Nat.mod_lt mag (Nat.two_pow_pos mb)
  unfold magSig
  rw [Nat.pow_succ]
  split
  · rename_i h0
    have := Nat.lt_of_div_eq_zero (Nat.two_pow_pos mb) h0
    omega
  · omega

theorem magSig_mod_two {mb : Nat} (hmb : 1 ≤ mb) (mag : Nat) : magSig mb mag % 2 = mag % 2 := by
  obtain ⟨k, rfl⟩ : ∃ k, mb = k + 1 := ⟨mb - 1, by omega⟩
  have h1 : 2 ^ (k + 1) % 2 = 0 := by rw [Nat.pow_succ]; omega
  have h2 : mag % 2 ^ (k + 1) % 2 = mag % 2 := Nat.mod_mod_of_dvd _ ⟨2 ^ k, by rw [Nat.pow_succ]; ring⟩
  unfold magSig
  split
  · rfl
  · omega

/-- Bits assembled from an exponent step and a significand stand for that significand times that unit. A significand
below the leading bit is only used at the smallest exponent; one that has carried is the next binade's first. -/
theorem magValue_assemble {mb : Nat} {emin q : Int} {R : Nat} (hq : emin ≤ q) (hR : R ≤ 2 ^ (mb + 1))
    (hn : 2 ^ mb ≤ R ∨ q = emin) :
    magValue mb emin ((q - emin).toNat * 2 ^ mb + R) = (R : ℝ) * (2 : ℝ) ^ q := by
  obtain ⟨k, hk⟩ : ∃ k : Nat, q = emin + k := ⟨(q - emin).toNat, by omega⟩
  subst hk
  have hk' : (emin + (k : Int) - emin).toNat = k := by omega
  rw [hk']
  have hp : 0 < 2 ^ mb := Nat.two_pow_pos mb
  rw [Nat.pow_succ] at hR
  rcases lt_or_ge R (2 ^ mb) with h | h
  · have hk0 : k = 0 := by rcases hn with h' | h' <;> omega
    subst hk0
    simp [magValue, magSig, magExp, Nat.div_eq_of_lt h]
  · rcases lt_or_ge R (2 * 2 ^ mb) with h2 | h2
    · have hdiv : (k * 2 ^ mb + R) / 2 ^ mb = k + 1 := by
        rw [Nat.mul_comm, Nat.mul_add_div hp, show R / 2 ^ mb = 1 from
          Nat.div_eq_of_lt_le (by omega) (by omega)]
      have hmod : (k * 2 ^ mb + R) % 2 ^ mb = R - 2 ^ mb := by
        rw [Nat.mul_comm, Nat.mul_add_mod, show R = 2 ^ mb + (R - 2 ^ mb) by omega, Nat.add_mod_left,
          Nat.mod_eq_of_lt (by omega)]
        omega
      have hs : magSig mb (k * 2 ^ mb + R) = R := by
        unfold magSig
        rw [hdiv, if_neg (by omega), hmod]
        omega
      have he : magExp mb emin (k * 2 ^ mb + R) = emin + k := by
        unfold magExp
        rw [hdiv]
        omega
      rw [magValue, hs, he]
    · have hR2 : R = 2 * 2 ^ mb := by omega
      have hdiv : (k * 2 ^ mb + R) / 2 ^ mb = k + 2 := by
        rw [hR2, ← Nat.add_mul, Nat.mul_div_cancel _ hp]
      have hmod : (k * 2 ^ mb + R) % 2 ^ mb = 0 := by
        rw [hR2, ← Nat.add_mul, Nat.mul_mod_left]
      have hs : magSig mb (k * 2 ^ mb + R) = 2 ^ mb := by
        unfold magSig
        rw [hdiv, if_neg (by omega), hmod]
        omega
      have he : magExp mb emin (k * 2 ^ mb + R) = emin + k + 1 := by
        unfold magExp
        rw [hdiv]
        omega
      rw [magValue, hs, he, hR2, zpow_add_one₀ (by norm_num)]
      push_cast
      ring

/-! ## Rounding to the format -/

/-- The unit at which roundMag rounds `m * 2^e`. -/
def roundExp (mb : Nat) (emin : Int) (m : Nat) (e : Int) : Int := max (e + (m.log2 : Int) - mb) emin

/-- The integer multiple of that unit which it takes. -/
def roundSig (mb : Nat) (emin : Int) (m : Nat) (e : Int) : Nat :=
  if roundExp mb emin m e ≤ e then m * 2 ^ (e - roundExp mb emin m e).toNat
  else Fp.shiftRne m (roundExp mb emin m e - e).toNat

/-- roundMag is the assembled multiple, cut off at infinity. -/
theorem Fp.roundMag_eq {mb : Nat} {emin : Int} {infMag m : Nat} {e : Int} (hm : m ≠ 0) :
    Fp.roundMag mb emin infMag m e =
      min ((roundExp mb emin m e - emin).toNat * 2 ^ mb + roundSig mb emin m e) infMag := by
  unfold Fp.roundMag
  rw [if_neg hm]
  have cut : ∀ t : Nat, (if infMag ≤ t then infMag else t) = min t infMag := fun t => by
    split <;> omega
  exact cut _

/-- That multiple is nearest among the integers, and even on a tie. -/
theorem roundSig_nearest (mb : Nat) (emin : Int) (m : Nat) (e : Int) (n : ℤ) :
    let X : ℝ := m * (2 : ℝ) ^ (e - roundExp mb emin m e)
    |(roundSig mb emin m e : ℝ) - X| ≤ |(n : ℝ) - X| ∧
    ((n : ℝ) ≠ roundSig mb emin m e → |(n : ℝ) - X| = |(roundSig mb emin m e : ℝ) - X| →
      roundSig mb emin m e % 2 = 0) := by
  set q := roundExp mb emin m e with hq
  intro X
  by_cases h : q ≤ e
  · have hR : roundSig mb emin m e = m * 2 ^ (e - q).toNat := by rw [roundSig, ← hq, if_pos h]
    have hX : X = (roundSig mb emin m e : ℝ) := by
      rw [hR]
      simp only [X]
      push_cast
      rw [← zpow_natCast, Int.toNat_of_nonneg (by omega)]
    rw [hX]
    refine ⟨by simp, ?_⟩
    intro hne heq
    rw [sub_self, abs_zero, abs_eq_zero, sub_eq_zero] at heq
    exact absurd heq hne
  · have hR : roundSig mb emin m e = Fp.shiftRne m (q - e).toNat := by rw [roundSig, ← hq, if_neg h]
    have hX : X = (m : ℝ) / 2 ^ (q - e).toNat := by
      simp only [X]
      rw [div_eq_mul_inv, ← zpow_natCast, Int.toNat_of_nonneg (by omega), ← zpow_neg, neg_sub]
    rw [hR, hX]
    exact Fp.shiftRne_nearest m _ n

/-- The number in units: at least the leading bit, unless at the smallest unit; below twice it. -/
theorem roundExp_bounds {mb : Nat} {emin : Int} {m : Nat} {e : Int} (hm : m ≠ 0) :
    let X : ℝ := m * (2 : ℝ) ^ (e - roundExp mb emin m e)
    X < 2 ^ (mb + 1) ∧ (2 ^ mb ≤ X ∨ roundExp mb emin m e = emin) := by
  intro X
  have hlo : (2 : ℝ) ^ (m.log2 : ℤ) ≤ m := by
    rw [zpow_natCast]; exact_mod_cast Nat.log2_self_le hm
  have hhi : (m : ℝ) < (2 : ℝ) ^ ((m.log2 : ℤ) + 1) := by
    have h := @Nat.lt_log2_self m
    rw [show (m.log2 : ℤ) + 1 = ((m.log2 + 1 : ℕ) : ℤ) by push_cast; rfl, zpow_natCast]
    exact_mod_cast h
  have hpos : (0 : ℝ) < (2 : ℝ) ^ (e - roundExp mb emin m e) := zpow_pos (by norm_num) _
  have hge : e + (m.log2 : Int) - mb ≤ roundExp mb emin m e := le_max_left _ _
  refine ⟨?_, ?_⟩
  · calc X < (2 : ℝ) ^ ((m.log2 : ℤ) + 1) * (2 : ℝ) ^ (e - roundExp mb emin m e) :=
          mul_lt_mul_of_pos_right hhi hpos
      _ = (2 : ℝ) ^ ((m.log2 : ℤ) + 1 + (e - roundExp mb emin m e)) :=
          (zpow_add₀ (by norm_num) _ _).symm
      _ ≤ (2 : ℝ) ^ (((mb + 1 : ℕ) : ℤ)) := by
          apply zpow_le_zpow_right₀ (by norm_num)
          push_cast
          omega
      _ = 2 ^ (mb + 1) := zpow_natCast _ _
  · rcases max_choice (e + (m.log2 : Int) - mb) emin with h | h
    · left
      have hq : roundExp mb emin m e = e + (m.log2 : Int) - mb := h
      calc (2 : ℝ) ^ mb = (2 : ℝ) ^ ((m.log2 : ℤ) + (e - roundExp mb emin m e)) := by
            rw [hq, ← zpow_natCast]; congr 1; omega
        _ = (2 : ℝ) ^ (m.log2 : ℤ) * (2 : ℝ) ^ (e - roundExp mb emin m e) := by
            rw [zpow_add₀ (by norm_num : (2 : ℝ) ≠ 0)]
        _ ≤ X := mul_le_mul_of_nonneg_right hlo hpos.le
    · exact .inr h

theorem roundSig_bounds {mb : Nat} {emin : Int} {m : Nat} {e : Int} (hm : m ≠ 0) :
    roundSig mb emin m e ≤ 2 ^ (mb + 1) ∧ (2 ^ mb ≤ roundSig mb emin m e ∨ roundExp mb emin m e = emin) := by
  obtain ⟨h1, h2⟩ := @roundExp_bounds mb emin m e hm
  set X : ℝ := m * (2 : ℝ) ^ (e - roundExp mb emin m e) with hX
  have near := fun n => (roundSig_nearest mb emin m e n).1
  rw [← hX] at near
  refine ⟨?_, ?_⟩
  · by_contra hc
    have hc' : (2 : ℝ) ^ (mb + 1) + 1 ≤ roundSig mb emin m e := by exact_mod_cast not_le.mp hc
    have := near (2 ^ (mb + 1) : ℕ)
    push_cast at this
    rw [abs_of_nonneg (by linarith), abs_of_nonneg (by linarith)] at this
    linarith
  · rcases h2 with h2 | h2
    · left
      by_contra hc
      have hc' : (roundSig mb emin m e : ℝ) + 1 ≤ 2 ^ mb := by exact_mod_cast not_le.mp hc
      have := near (2 ^ mb : ℕ)
      push_cast at this
      rw [abs_of_nonpos (by linarith), abs_of_nonpos (by linarith)] at this
      linarith
    · exact .inr h2

/-- The magnitude bits before the cut at infinity. -/
def roundBits (mb : Nat) (emin : Int) (m : Nat) (e : Int) : Nat :=
  (roundExp mb emin m e - emin).toNat * 2 ^ mb + roundSig mb emin m e

/-- Those bits stand for a number nearest to `m * 2^e`, and on a tie they are even. -/
theorem roundBits_nearest {mb : Nat} (hmb : 1 ≤ mb) {emin : Int} {m : Nat} {e : Int} (hm : m ≠ 0) (mag : Nat) :
    let x : ℝ := m * (2 : ℝ) ^ e
    |magValue mb emin (roundBits mb emin m e) - x| ≤ |magValue mb emin mag - x| ∧
    (magValue mb emin mag ≠ magValue mb emin (roundBits mb emin m e) →
      |magValue mb emin mag - x| = |magValue mb emin (roundBits mb emin m e) - x| →
      roundBits mb emin m e % 2 = 0) := by
  intro x
  set q := roundExp mb emin m e with hq
  set R := roundSig mb emin m e with hR
  have hqm : emin ≤ q := le_max_right _ _
  obtain ⟨b1, b2⟩ := @roundSig_bounds mb emin m e hm
  obtain ⟨c1, c2⟩ := @roundExp_bounds mb emin m e hm
  rw [← hq] at c1 c2 b2
  rw [← hR] at b1 b2
  have hval : magValue mb emin (roundBits mb emin m e) = R * (2 : ℝ) ^ q := magValue_assemble hqm b1 b2
  set X : ℝ := m * (2 : ℝ) ^ (e - q) with hX
  have hu : (0 : ℝ) < (2 : ℝ) ^ q := zpow_pos (by norm_num) _
  have hx : x = X * (2 : ℝ) ^ q := by
    simp only [x, hX]
    rw [mul_assoc, ← zpow_add₀ (by norm_num : (2 : ℝ) ≠ 0)]
    congr 2
    omega
  have scale : ∀ y : ℝ, |y * (2 : ℝ) ^ q - X * (2 : ℝ) ^ q| = |y - X| * (2 : ℝ) ^ q := by
    intro y
    rw [← sub_mul, abs_mul, abs_of_pos hu]
  have near := roundSig_nearest mb emin m e
  rw [← hq, ← hR, ← hX] at near
  have parity : R % 2 = 0 → roundBits mb emin m e % 2 = 0 := by
    intro h
    obtain ⟨k, rfl⟩ : ∃ k, mb = k + 1 := ⟨mb - 1, by omega⟩
    rw [roundBits, ← hq, ← hR, Nat.pow_succ, ← Nat.mul_assoc]
    omega
  rw [hval, hx, scale]
  rcases le_or_gt q (magExp mb emin mag) with hp | hp
  · -- a multiple of the unit
    have hn : magValue mb emin mag =
        ((magSig mb mag * 2 ^ (magExp mb emin mag - q).toNat : ℕ) : ℤ) * (2 : ℝ) ^ q := by
      rw [magValue]
      push_cast
      rw [mul_assoc, ← zpow_natCast, Int.toNat_of_nonneg (by omega), ← zpow_add₀ (by norm_num : (2 : ℝ) ≠ 0)]
      congr 2
      omega
    rw [hn, scale]
    obtain ⟨n1, n2⟩ := near ((magSig mb mag * 2 ^ (magExp mb emin mag - q).toNat : ℕ) : ℤ)
    refine ⟨mul_le_mul_of_nonneg_right n1 hu.le, ?_⟩
    intro hne heq
    exact parity (n2 (fun h => hne (by rw [h])) (mul_right_cancel₀ hu.ne' heq))
  · -- a number below the leading bit of the unit
    have hlead : 2 ^ mb ≤ X := by
      rcases c2 with h | h
      · exact h
      · unfold magExp at hp
        omega
    have hs : (magSig mb mag : ℝ) < 2 ^ (mb + 1) := by exact_mod_cast magSig_lt mb mag
    have hlt : magValue mb emin mag < 2 ^ mb * (2 : ℝ) ^ q := by
      calc magValue mb emin mag < 2 ^ (mb + 1) * (2 : ℝ) ^ magExp mb emin mag :=
            mul_lt_mul_of_pos_right hs (zpow_pos (by norm_num) _)
        _ ≤ 2 ^ (mb + 1) * (2 : ℝ) ^ (q - 1) :=
            mul_le_mul_of_nonneg_left (zpow_le_zpow_right₀ (by norm_num) (by omega)) (by positivity)
        _ = 2 ^ mb * (2 : ℝ) ^ q := by
            rw [zpow_sub_one₀ (by norm_num), pow_succ]
            ring
    have hge : 2 ^ mb * (2 : ℝ) ^ q ≤ X * (2 : ℝ) ^ q := mul_le_mul_of_nonneg_right hlead hu.le
    have near1 := (near ((2 ^ mb : ℕ) : ℤ)).1
    push_cast at near1
    rw [abs_of_nonpos (a := (2 : ℝ) ^ mb - X) (by linarith)] at near1
    have n3 : |(R : ℝ) - X| * (2 : ℝ) ^ q ≤ (X - 2 ^ mb) * (2 : ℝ) ^ q :=
      mul_le_mul_of_nonneg_right (by linarith) hu.le
    have n4 : |(R : ℝ) - X| * (2 : ℝ) ^ q < |magValue mb emin mag - X * (2 : ℝ) ^ q| := by
      rw [abs_of_nonpos (a := magValue mb emin mag - X * (2 : ℝ) ^ q) (by linarith)]
      nlinarith
    exact ⟨n4.le, fun _ heq => absurd heq n4.ne'⟩

/-! ## rhz -/

/-- shiftTiesDown is `rhz` of the magnitude `m / 2^d` (00_scope.md R13). -/
theorem Fp.shiftTiesDown_isRhz (m d : Nat) : IsRhz (m / 2 ^ d) (Fp.shiftTiesDown m d) := by
  have hpos : (0 : ℝ) < 2 ^ d := by positivity
  have hm : (m : ℝ) = (m / 2 ^ d : ℕ) * 2 ^ d + (m % 2 ^ d : ℕ) := by
    exact_mod_cast (Nat.div_add_mod' m (2 ^ d)).symm
  have hr : m % 2 ^ d < 2 ^ d := Nat.mod_lt _ (by positivity)
  unfold Fp.shiftTiesDown
  generalize m / 2 ^ d = k at *
  generalize m % 2 ^ d = r at *
  have hx : (m : ℝ) / 2 ^ d = k + r / 2 ^ d := by rw [hm]; field_simp
  have hf0 : (0 : ℝ) ≤ r / 2 ^ d := by positivity
  have hf1 : (r : ℝ) / 2 ^ d < 1 := by rw [div_lt_one hpos]; exact_mod_cast hr
  have up : 2 ^ d < 2 * r → (1 / 2 : ℝ) < r / 2 ^ d := fun h => by
    rw [lt_div_iff₀ hpos]
    have : (2 : ℝ) ^ d < 2 * r := by exact_mod_cast h
    linarith
  have down : ¬2 ^ d < 2 * r → (r / 2 ^ d : ℝ) ≤ 1 / 2 := fun h => by
    rw [div_le_iff₀ hpos]
    have : 2 * (r : ℝ) ≤ 2 ^ d := by exact_mod_cast not_lt.mp h
    linarith
  rw [hx]
  generalize (r : ℝ) / 2 ^ d = f at *
  intro p
  rcases lt_or_ge p k with hp | hp
  · have hp' : (p : ℝ) + 1 ≤ k := by exact_mod_cast hp
    rw [abs_of_neg (a := (p : ℝ) - _) (by linarith)]
    split
    · have := up ‹_›
      push_cast
      rw [abs_of_nonneg (by linarith)]
      exact ⟨by linarith, fun _ => by linarith⟩
    · push_cast
      rw [abs_of_nonpos (by linarith)]
      exact ⟨by linarith, fun _ => by linarith⟩
  · rcases eq_or_lt_of_le hp with rfl | hp
    · split
      · have := up ‹_›
        push_cast
        rw [abs_of_nonneg (a := (k : ℝ) + 1 - _) (by linarith), abs_of_nonpos (by linarith)]
        exact ⟨by linarith, fun _ => by linarith⟩
      · exact ⟨le_rfl, fun _ => le_rfl⟩
    · have hp' : (k : ℝ) + 1 ≤ p := by exact_mod_cast hp
      rw [abs_of_nonneg (a := (p : ℝ) - _) (by linarith)]
      split
      · push_cast
        rw [abs_of_nonneg (a := (k : ℝ) + 1 - _) (by linarith)]
        exact ⟨by linarith, fun _ => by rw [abs_of_nonneg (by omega), abs_of_nonneg (by omega)]; omega⟩
      · have := down ‹_›
        push_cast
        rw [abs_of_nonpos (a := (k : ℝ) - _) (by linarith)]
        exact ⟨by linarith, fun _ => by rw [abs_of_nonneg (by omega), abs_of_nonneg (by omega)]; omega⟩

/-- `rhz` of the opposite is the opposite. -/
theorem IsRhz.neg {t : ℝ} {q : Int} (h : IsRhz t q) : IsRhz (-t) (-q) := by
  intro p
  have opposite : ∀ a : ℝ, |a - -t| = |(-a) - t| := fun a => by rw [← abs_neg]; congr 1; ring
  have hp := h (-p)
  push_cast at hp ⊢
  rw [opposite p, opposite, neg_neg]
  rw [abs_neg] at hp ⊢
  exact hp

/-- `rhz` of a finite datum (00_scope.md R13). -/
theorem Fp.rhz_isRhz {a : Num64} (ha : Fp.isFinite a = true) : IsRhz (realOf a) (Fp.rhz a) := by
  have mag : IsRhz ((Fp.significand a : ℝ) * (2 : ℝ) ^ Fp.ulpExp a)
      (if 0 ≤ Fp.ulpExp a then ((Fp.significand a * 2 ^ (Fp.ulpExp a).toNat : ℕ) : ℤ)
        else (Fp.shiftTiesDown (Fp.significand a) (-Fp.ulpExp a).toNat : ℤ)) := by
    split
    · rename_i h
      have exact : (Fp.significand a : ℝ) * (2 : ℝ) ^ Fp.ulpExp a =
          (((Fp.significand a * 2 ^ (Fp.ulpExp a).toNat : ℕ) : ℤ) : ℝ) := by
        push_cast
        rw [← zpow_natCast, Int.toNat_of_nonneg h]
      rw [exact]
      intro p
      rw [sub_self, abs_zero]
      refine ⟨abs_nonneg _, fun he => ?_⟩
      rw [abs_eq_zero, sub_eq_zero] at he
      rw [show p = _ from Int.cast_injective he]
    · rename_i h
      have scale : (Fp.significand a : ℝ) * (2 : ℝ) ^ Fp.ulpExp a =
          Fp.significand a / 2 ^ (-Fp.ulpExp a).toNat := by
        rw [div_eq_mul_inv, ← zpow_natCast, Int.toNat_of_nonneg (by omega), ← zpow_neg, neg_neg]
      rw [scale]
      exact Fp.shiftTiesDown_isRhz _ _
  unfold Fp.rhz realOf
  rw [if_pos ha]
  dsimp only
  push_cast at mag ⊢
  split
  · simpa using mag.neg
  · simpa using mag

/-! ## The sign of a result -/

theorem Fp.roundMag_le_infinity {mb : Nat} {emin : Int} {infMag m : Nat} {e : Int} :
    Fp.roundMag mb emin infMag m e ≤ infMag := by
  by_cases hm : m = 0
  · simp [Fp.roundMag, hm]
  · rw [Fp.roundMag_eq hm]
    exact Nat.min_le_right _ _

theorem Fp.signBit_ofMag {neg : Bool} {mag : Nat} (h : mag < 2 ^ 63) : Fp.signBit (Fp.ofMag neg mag) = neg := by
  cases neg <;> simp [Fp.signBit, Fp.ofMag] <;> omega

theorem Fp.signBit_round (neg : Bool) (m : Nat) (e : Int) : Fp.signBit (Fp.round neg m e) = neg :=
  Fp.signBit_ofMag (lt_of_le_of_lt Fp.roundMag_le_infinity (by norm_num))

end Sys2Proof.Machine
end

