-- ==== Sys2Proof/Laws/Sequencer.lean ====
section
/-!
SUPPORT. What one step of SEQ, one host action and one transition can do, said once.
-/
namespace Sys2Proof.Machine

/-- The next states of SEQ from `s` (45_sequencer.md R220, R227, R230), each with what enables it. -/
inductive SeqEffect (s : State) : State → Prop where
  | enter (ho : s.ostate = .filling) (hf : s.fill = s.cfg.blockLen) : SeqEffect s s.enterProcessing
  | forced (ho : s.ostate = .filling) (hf : s.fill ≠ s.cfg.blockLen) (he : s.forceEmpty = true) :
      SeqEffect s { s with ostate := .done }
  | take (b : Byte) (rest : List Byte) (ho : s.ostate = .filling) (hf : s.fill ≠ s.cfg.blockLen)
      (he : s.forceEmpty = false) (hi : s.inq = b :: rest) : SeqEffect s (s.takeInput b rest)
  | exhausted (ho : s.ostate = .filling) (hf : s.fill ≠ s.cfg.blockLen) (he : s.forceEmpty = false)
      (hi : s.inq = []) (hs : s.eos = true) : SeqEffect s { s with ostate := .done }
  | illegal (ho : s.ostate = .processing) (e : IllegalWord) (hd : decode s.fetch = .error e) :
      SeqEffect s (raise .illegalUop s)
  | micro (ho : s.ostate = .processing) (i : Instr) (t : State) (hd : decode s.fetch = .ok i)
      (hx : exec i s = .next t) (h : Effect i s t) : SeqEffect s t
  | drain (ho : s.ostate = .draining) : SeqEffect s (drainingStep s)

theorem seqStep_effect {s t : State} (h : seqStep s = .next t) : SeqEffect s t := by
  unfold seqStep at h
  split at h
  · cases h
  · rename_i ho
    unfold fillingStep at h
    split at h
    · cases h
      exact .enter ho (by assumption)
    · split at h
      · cases h
        exact .forced ho (by assumption) (by assumption)
      · split at h
        · cases h
          exact .take _ _ ho (by assumption) (by simp_all) (by assumption)
        · split at h <;> cases h
          exact .exhausted ho (by assumption) (by simp_all) (by assumption) (by assumption)
  · rename_i ho
    unfold processingStep at h
    split at h
    · cases h
      exact .illegal ho _ (by assumption)
    · rename_i i hi
      obtain ⟨t', h1, h2⟩ := exec_effect s i
      rw [h1] at h
      cases h
      exact .micro ho i _ hi h1 h2
  · cases h
    exact .drain (by assumption)
  · cases h
  · cases h

/-- The next states of one transition: SEQ's or the host's, with the turn used up. -/
theorem step_cases {s t : State} (h : step s = .next t) :
    (s.turns = [] ∧ seqStep s = .next t) ∨
    (∃ rest, s.turns = .seq :: rest ∧ seqStep { s with turns := rest } = .next t) ∨
    (∃ a rest, s.turns = .host a :: rest ∧ hostStep a { s with turns := rest } = .next t) := by
  unfold step at h
  split at h
  · exact .inl ⟨by assumption, h⟩
  · exact .inr (.inl ⟨_, by assumption, h⟩)
  · exact .inr (.inr ⟨_, _, by assumption, h⟩)

/-- What a register write does: nothing, START, CONFIG, or one half of the budget. -/
theorem writeReg_cases (s : State) (addr : Nat) (v : Word) :
    s.writeReg addr v = s ∨ (s.ostate = .idle ∧ s.writeReg addr v = s.start) ∨
    (s.ostate = .idle ∧ s.writeReg addr v = { s with config := v &&& configMask }) ∨
    (s.ostate = .idle ∧ ∃ r, s.writeReg addr v = { s with remain := r }) := by
  unfold State.writeReg
  split
  · rename_i ho
    split
    · split
      · exact .inr (.inl ⟨ho, rfl⟩)
      · exact .inl rfl
    · exact .inr (.inr (.inl ⟨ho, rfl⟩))
    · exact .inr (.inr (.inr ⟨ho, _, rfl⟩))
    · exact .inr (.inr (.inr ⟨ho, _, rfl⟩))
    · exact .inl rfl
  · exact .inl rfl

end Sys2Proof.Machine
end

