-- ==== Sys2Proof/Tests/Slice0.lean ====
section
/-!
SUPPORT. The model's own tests: ill-formed terms refused, every constructor's word written out, the vectors of
95_test_vectors.md one micro-operation at a time, and, for every statement with hypotheses, a state that meets them.
-/
namespace Sys2Proof.Tests

-- One theorem at a time: a thread for each would not fit the memory limit.
set_option Elab.async false

open Sys2Proof Sys2Proof.Machine

/-! ## Well-formedness: one ill-formed term for each check -/

theorem test_adv_immediate_too_wide : (Instr.adv 4096).wellFormed = false := by decide
theorem test_trimh_immediate_too_wide : (Instr.trimh 0 0 4096).wellFormed = false := by decide
theorem test_decim_immediate_too_wide : (Instr.decim 0 0 4096).wellFormed = false := by decide
theorem test_chop_immediate_too_wide : (Instr.chop 0 0 4096).wellFormed = false := by decide
theorem test_firB_slot_too_wide : (Instr.firB 0 0 32).wellFormed = false := by decide
theorem test_firS_slot_too_wide : (Instr.firS 0 0 0 32).wellFormed = false := by decide
theorem test_iirB_slot_too_wide : (Instr.iirB 0 0 32).wellFormed = false := by decide
theorem test_iirS_slot_too_wide : (Instr.iirS 0 0 0 32).wellFormed = false := by decide
theorem test_trimhk_multiplier_too_wide : (Instr.trimhk 0 0 128 0).wellFormed = false := by decide
theorem test_trimhk_slot_too_wide : (Instr.trimhk 0 0 0 32).wellFormed = false := by decide

/-! ## Decoding: words written out from 30_encoding.md R91, R96, R99 and 95_test_vectors.md V7 -/

theorem test_decode_end : decodeTableWord 32 0x01000000 = some .endProg := by decide
theorem test_decode_skipz : decodeTableWord 32 0x02000007 = some (.skipz 7) := by decide
theorem test_decode_adv : decodeTableWord 32 0x03000050 = some (.adv 80) := by decide
theorem test_decode_ldblk : decodeTableWord 32 0x10700000 = some (.ldblk 7) := by decide
theorem test_decode_emit16 : decodeTableWord 32 0x11070000 = some (.emit16 7) := by decide
theorem test_decode_emitf : decodeTableWord 32 0x12012000 = some (.emitf 1 2) := by decide
theorem test_decode_firB : decodeTableWord 32 0x2012000D = some (.firB 1 2 13) := by decide
theorem test_decode_firS : decodeTableWord 32 0x2110F00D = some (.firS 1 0 15 13) := by decide
theorem test_decode_iirB : decodeTableWord 32 0x2277001F = some (.iirB 7 7 31) := by decide
theorem test_decode_iirS : decodeTableWord 32 0x2310300E = some (.iirS 1 0 3 14) := by decide
theorem test_decode_trimh : decodeTableWord 32 0x30210190 = some (.trimh 2 1 400) := by decide
theorem test_decode_trimhk : decodeTableWord 32 0x3111081F = some (.trimhk 1 1 64 31) := by decide
theorem test_decode_decim : decodeTableWord 32 0x32310014 = some (.decim 3 1 20) := by decide
theorem test_decode_anlt : decodeTableWord 32 0x40120000 = some (.anlt 1 2) := by decide
theorem test_decode_chop : decodeTableWord 32 0x41110FFF = some (.chop 1 1 4095) := by decide
theorem test_decode_angle : decodeTableWord 32 0x42210000 = some (.angle 2 1) := by decide
theorem test_decode_diff : decodeTableWord 32 0x43210000 = some (.diff 2 1) := by decide
theorem test_decode_fix0 : decodeTableWord 32 0x44210000 = some (.fix0 2 1) := by decide
theorem test_decode_unwrap : decodeTableWord 32 0x45210000 = some (.unwrap 2 1) := by decide
theorem test_decode_sclhz : decodeTableWord 32 0x46210001 = some (.sclhz 2 1 .quarter) := by decide
theorem test_decode_wrapc : decodeTableWord 32 0x47210000 = some (.wrapc 2 1 .full) := by decide
theorem test_decode_subcf : decodeTableWord 32 0x50210001 = some (.subcf 2 1 .right) := by decide
theorem test_decode_clipdev : decodeTableWord 32 0x51210000 = some (.clipdev 2 1) := by decide
theorem test_decode_iremap : decodeTableWord 32 0x52210000 = some (.iremap 2 1) := by decide

/-- The words that V7 and R97 call illegal. -/
theorem test_illegal_words :
    [0x00000000, 0x04000000, 0xFF000000, 0x01000001, 0x02000008, 0x10800000, 0x11000001, 0x12082000, 0x20000020,
      0x21F0000D, 0x3111FFFF, 0x40200000, 0x41210000, 0x46110002].all
      (fun w => decodeTableWord 32 w = none) = true := by decide

/-- The normative programs decode, and encode to themselves (43_video_stage.md R191, 44_audio_stage.md R208). -/
theorem test_normative_programs_decode :
    (videoProgram ++ audioProgram).all (fun w =>
      match decode w with
      | .ok i => encode i == w
      | .error _ => false) = true := by decide +kernel

/-- The expansion of FMDEMOD is words 4 to 11 of the video program (30_encoding.md R100). -/
theorem test_fmdemod_expansion :
    (fmdemod 1 0 .full).map encode = (videoProgram.drop 4).take 8 := by decide +kernel

/-! ## The test configuration of 95_test_vectors.md -/

def num (n : Int) : Num64 := Fp.ofInt n
def half : Num64 := 0x3FE0000000000000
def quarter : Num64 := 0x3FD0000000000000
def halfPi : Num64 := 0x3FF921FB54442D18
def minusHalfPi : Num64 := 0xBFF921FB54442D18
def minusThreeHalfPi : Num64 := 0xC012D97C7F3321D2
def plusInf : Num64 := 0x7FF0000000000000
def minusInf : Num64 := 0xFFF0000000000000
def aNaN : Num64 := 0x7FF8000000000000

def identity : Slot := ⟨true, [Fp.one], [Fp.one]⟩
def absent : Slot := ⟨false, [], []⟩
def test0 : Slot := ⟨true, [Fp.one, half, quarter], [Fp.one]⟩
def test1 : Slot := ⟨true, [Fp.one], [Fp.one, 0xBFE0000000000000]⟩

def testCfg : Cfg :=
  { blockLen := 8, hlen := 8, ntapMax := 3, fC := num 4000, hzIreScale := #v[num 10, num 20],
    minn := #v[num 7000, num 6000], outScale := #v[num 100, num 2], audCenter := #v[num 1000, num 2000],
    wrapIterMax := 8,
    rom := #v[identity, identity, absent, absent, absent, absent, identity, absent, absent, identity, identity,
      identity, identity, test0, test1, absent],
    uprog := normativeUprog }

/-- A block in PROCESSING at `upc` 0. -/
def base : State := { State.resetOf testCfg with ostate := .processing }

/-- The same with two real registers set. -/
def withV (v0 v1 : List Num64) : State := (base.writeV 0 v0).writeV 1 v1

def after (o : Host.Outcome State Fault Refusal) : State :=
  match o with
  | .next t => t
  | .fault _ => base
  | .refused _ => base

def isNext (o : Host.Outcome State Fault Refusal) : Bool :=
  match o with
  | .next _ => true
  | .fault _ => false
  | .refused _ => false

/-- The state after one micro-operation. -/
def run1 (i : Instr) (s : State) : State := after (exec i s)

theorem test_config_is_legal : cfgLegal testCfg = true := by decide +kernel

/-- A set whose leading denominator tap is not 1, and one with too many taps, are not well formed (V1.12, V1.13). -/
theorem test_ill_formed_slots :
    slotWellFormed 3 ⟨true, [Fp.one], [num 2, num (-1)]⟩ = false ∧
    slotWellFormed 3 ⟨true, [Fp.one, half, half, half], [Fp.one]⟩ = false := by decide +kernel

/-! ## Arithmetic: values from IEEE 754, worked by hand -/

/-- 0.1 + 0.2 + 0.3 from 0, left to right. -/
theorem test_sum_order :
    Fp.add (Fp.add (Fp.add 0 0x3FB999999999999A) 0x3FC999999999999A) 0x3FD3333333333333 = 0x3FE3333333333334 := by
  decide +kernel
theorem test_zero_signs :
    Fp.sub Fp.one Fp.one = Fp.posZero ∧ Fp.add Fp.negZero Fp.negZero = Fp.negZero ∧
    Fp.eq Fp.negZero Fp.posZero = true ∧ Fp.lt Fp.negZero Fp.posZero = false := by decide +kernel
theorem test_division_rounds : Fp.div (num 1) (num 3) = 0x3FD5555555555555 := by decide +kernel
theorem test_overflow : Fp.mul 0x7FEFFFFFFFFFFFFF (num 2) = plusInf := by decide +kernel
/-- Whatever the free bits of the NaN are. -/
theorem test_infinities_cancel_to_nan : Fp.isNaN (Fp.sub plusInf plusInf) = true := by
  have h : Fp.sub plusInf plusInf = Fp.nan 0 plusInf minusInf := by rfl
  rw [h, Fp.isNaN_nan]
theorem test_rhz_tie : Fp.rhz 0x3FF8000000000000 = 1 ∧ Fp.rhz 0xBFF8000000000000 = -1 := by decide +kernel

/-! ## Micro-operations: the vectors V2 to V6 -/

/-- V6.1 and V6.3. -/
theorem test_skipz_skips_and_wraps :
    (run1 (.skipz 2) { base with upc := 2 }).upc = 4 ∧
    (run1 (.skipz 5) { base with upc := 126, config := 0x10 }).upc = 0 := by decide +kernel
/-- V6.2. -/
theorem test_skipz_does_not_skip : (run1 (.skipz 2) { base with upc := 2, config := 4 }).upc = 3 := by decide +kernel
/-- As V6.4 and V6.5, with B = 8. -/
theorem test_adv :
    (run1 (.adv 2) { base with outcnt := 4 }).consumed = 8 ∧
    (run1 (.adv 3) { base with outcnt := 3 }).cause = 4 := by decide +kernel
/-- V6.6, V6.7. -/
theorem test_adv_faults :
    (run1 (.adv 1) base).cause = 4 ∧ (run1 (.adv 0) base).cause = 3 := by decide +kernel

def fullBlock : State :=
  { base with
    blk := [(0, 1), (1, 2), (2, 3), (3, 4), (4, 5), (5, 6), (6, 7), (7, 8)]
    fill := 8
    consumed := 3
    total := 10
    blkidx := 2 }

/-- V6.8. -/
theorem test_end_slides :
    (run1 .endProg fullBlock).blk.bytes 5 = [4, 5, 6, 7, 8] ∧ (run1 .endProg fullBlock).fill = 5 ∧
    (run1 .endProg fullBlock).total = 13 ∧ (run1 .endProg fullBlock).blkidx = 3 ∧
    (run1 .endProg fullBlock).ostate = .draining := by decide +kernel
/-- V4.1. -/
theorem test_ldblk :
    (run1 (.ldblk 3) { base with blk := [(0, 0), (1, 0x80), (2, 0xFF), (3, 0x7F)], fill := 4 }).readV 3 =
      [num 0, num 128, num 255, num 127] := by decide +kernel
/-- V4.4. -/
theorem test_emit16_clips :
    (run1 (.emit16 1) (withV [] [num 0, num 50, num 700, num (-3)])).outq =
      [0x00, 0x00, 0x88, 0x13, 0xFF, 0xFF, 0x00, 0x00] ∧
    (run1 (.emit16 1) (withV [] [num 0, num 50, num 700, num (-3)])).outcnt = 4 := by decide +kernel
/-- V4.9: 300.75 at scale 2 is 601. -/
theorem test_emit16_wide :
    (run1 (.emit16 1) { withV [] [0x4072CC0000000000] with config := 8 }).outq = [0x59, 0x02] := by decide +kernel
/-- V4.7: whatever the free bits of the product are. -/
theorem test_emit16_nan :
    exec (.emit16 0) (withV [aNaN] []) = .next (raise .numeric (withV [aNaN] [])) := by
  have h : Fp.isNaN (Fp.mul aNaN (num 100)) = true := Fp.isNaN_mul (.inl (by decide))
  have e : exec (.emit16 0) (withV [aNaN] []) =
      .next (match (if Fp.isNaN (Fp.mul aNaN (num 100)) || false then .error .numeric
          else .ok [clipCode binary64 (Fp.mul aNaN (num 100))] : Except Cause (List Nat)) with
        | .error c => raise c (withV [aNaN] [])
        | .ok codes => complete ((withV [aNaN] []).emit (codes.flatMap codeBytes) codes.length)) := by rfl
  rw [e, h]
  rfl
/-- V5.7. -/
theorem test_emitf :
    (run1 (.emitf 0 1) (withV [num 1, 0xC004000000000000] [half, num 0])).outq =
      [0x00, 0x00, 0x80, 0x3F, 0x00, 0x00, 0x00, 0x3F, 0x00, 0x00, 0x20, 0xC0, 0x00, 0x00, 0x00, 0x00] := by
  decide +kernel
/-- V5.9, V5.10, V5.11. -/
theorem test_emitf_rounding_and_nan :
    (run1 (.emitf 0 1) (withV [0x3FB999999999999A] [num 16777217])).outq =
      [0xCD, 0xCC, 0xCC, 0x3D, 0x00, 0x00, 0x80, 0x4B] ∧
    (run1 (.emitf 0 1) (withV [num 1, aNaN] [num 2])).outcnt = 1 ∧
    (run1 (.emitf 0 1) (withV [aNaN] [num 2])).cause = 5 := by decide +kernel
/-- V2.1. -/
theorem test_firB :
    (run1 (.firB 1 0 13) (withV [num 4, num 8, num 0, num 0] [])).readV 1 = [num 4, num 10, num 5, num 2] := by
  decide +kernel
/-- V2.3, V2.10. -/
theorem test_firS :
    (run1 (.firS 1 0 0 13) (withV [num 4, num 8] [])).readXh 0 = [num 8, num 4] ∧
    (run1 (.firS 1 0 0 13) (withV [num 4, num 8] [])).readYh 0 = [num 10, num 4] ∧
    (run1 (.firS 1 0 0 13) ((withV [] [num 9]).writeRun 0 [num 8, num 4] [num 10, num 4])).readXh 0 =
      [num 8, num 4] := by decide +kernel
/-- V2.7, and V2.9 for the FIR form. -/
theorem test_iirB :
    (run1 (.iirB 1 0 14) (withV [num 16, num 0, num 0, num 0] [])).readV 1 = [num 16, num 8, num 4, num 2] ∧
    (run1 (.firB 1 0 14) (withV [num 16] [])).cause = 6 := by decide +kernel
/-- V2.6: the second call, from the histories of V2.5. -/
theorem test_iirS :
    (run1 (.iirS 1 0 3 14) ((withV [num 0, num 0] []).writeRun 3 [num 0, num 16] [num 8, num 16])).readV 1 =
      [num 4, num 2] ∧
    (run1 (.iirS 1 0 3 14) ((withV [num 0, num 0] []).writeRun 3 [num 0, num 16] [num 8, num 16])).readYh 3 =
      [num 2, num 4] := by decide +kernel
/-- V2.13, V2.15. -/
theorem test_trimh :
    (run1 (.trimh 1 1 2) (withV [] [num 4, num 10, num 5, num 2])).readV 1 = [num 5, num 2] ∧
    (run1 (.trimh 1 0 4095) (withV [num 1, num 2, num 3] [num 9])).readV 1 = [] := by decide +kernel
/-- V2.17, V2.19. -/
theorem test_trimhk :
    (run1 (.trimhk 1 1 1 13) (withV [] [num 4, num 10, num 5, num 2])).readV 1 = [num 2] ∧
    (run1 (.trimhk 1 1 64 15) base).cause = 1 := by decide +kernel
/-- As V5.1 with eight samples, V5.13. -/
theorem test_decim :
    (run1 (.decim 0 0 3) (withV [num 10, num 11, num 12, num 13, num 14, num 15, num 16, num 17] [])).readV 0 =
      [num 10, num 13, num 16] ∧
    (run1 (.decim 0 0 0) base).cause = 3 := by decide +kernel
/-- V3.2, and the length of a longer window. -/
theorem test_anlt :
    (run1 (.anlt 0 0) (withV [num 5] [])).readZ 0 = [(num 5, 0)] ∧
    ((run1 (.anlt 1 0) (withV [num 5, num 6, num 7] [])).readZ 1).length = 3 := by decide +kernel
/-- V3.9 with five pairs, V3.10. -/
theorem test_chop :
    (run1 (.chop 0 1 1) (base.writeZ 1 [(0, 1), (1, 2), (2, 3), (3, 4), (4, 5)])).readZ 0 = [(1, 2), (2, 3), (3, 4)] ∧
    (run1 (.chop 0 1 3) (base.writeZ 1 [(0, 1), (1, 2), (2, 3), (3, 4), (4, 5)])).readZ 0 = [] := by decide +kernel
/-- V3.6. -/
theorem test_angle :
    (run1 (.angle 1 0) (base.writeZ 0 [(0, 0), (num (-1), Fp.negZero), (num (-3), 0)])).readV 1 =
      [0, Fp.pi, Fp.pi] := by decide +kernel
/-- V3.7. -/
theorem test_diff :
    (run1 (.diff 1 1) (withV [] [0, halfPi, Fp.pi, minusHalfPi])).readV 1 = [halfPi, halfPi, minusThreeHalfPi] := by
  decide +kernel
/-- V3.12: 4.0 below zero plus one turn is 2.2831853071795862, and the second element stays. -/
theorem test_fix0 :
    (run1 (.fix0 1 1) (withV [] [num (-4), num (-4)])).readV 1 = [Fp.sub Fp.twoPi (num 4), num (-4)] ∧
    (run1 (.fix0 1 1) (withV [] [num (-3), num (-4)])).readV 1 = [num (-3), num (-4)] := by decide +kernel
/-- V3.8, and from V3.13. -/
theorem test_unwrap :
    (run1 (.unwrap 1 1) (withV [] [halfPi, halfPi, minusThreeHalfPi, halfPi])).readV 1 =
      [halfPi, halfPi, halfPi, halfPi] ∧
    (run1 (.unwrap 1 1) (withV [] [num 0, num 3])).readV 1 = [num 0, num 3] := by decide +kernel
/-- V3.16: a quarter turn is a quarter of the scale. -/
theorem test_sclhz :
    (run1 (.sclhz 1 1 .full) (withV [] [halfPi])).readV 1 = [num 1000] ∧
    (run1 (.sclhz 1 1 .quarter) (withV [] [halfPi])).readV 1 = [num 250] := by decide +kernel
/-- V3.14, V3.18. -/
theorem test_wrapc :
    (run1 (.wrapc 1 1 .full) (withV [] [num (-100), num 500, num 4100, num 8200, num 4000, num 0])).readV 1 =
      [num 3900, num 500, num 100, num 200, num 4000, num 0] ∧
    (run1 (.wrapc 1 1 .full) (withV [] [num 36000])).readV 1 = [num 4000] ∧
    (run1 (.wrapc 1 1 .full) (withV [] [num 36001])).cause = 2 := by decide +kernel
/-- V3.19, V3.20. -/
theorem test_wrapc_nan_and_quarter :
    (run1 (.wrapc 1 1 .full) (withV [] [aNaN, num 9000])).cause = 5 ∧
    (run1 (.wrapc 1 1 .full) (withV [] [plusInf])).cause = 2 ∧
    (run1 (.wrapc 1 1 .quarter) (withV [] [num 1500, num (-1)])).readV 1 = [num 500, num 999] := by decide +kernel
/-- V5.4. -/
theorem test_subcf :
    (run1 (.subcf 1 1 .left) (withV [] [num 1100, num 900])).readV 1 = [num 100, num (-100)] ∧
    (run1 (.subcf 1 1 .right) (withV [] [num 1100, num 900])).readV 1 = [num (-900), num (-1100)] := by
  decide +kernel
/-- V5.5, V5.6. -/
theorem test_clipdev :
    (run1 (.clipdev 1 1) (withV [] [num 200000, num (-150001), num 42, plusInf, minusInf, aNaN])).readV 1 =
      [num 150000, num (-150000), num 42, num 150000, num (-150000), aNaN] := by decide +kernel
/-- V4.2, V4.3. -/
theorem test_iremap :
    (run1 (.iremap 1 1) (withV [] [num 7000, num 7500, num 6990])).readV 1 = [num 0, num 50, num (-1)] ∧
    (run1 (.iremap 1 1) { withV [] [num 7000, num 7500] with config := 8 }).readV 1 = [num 50, num 75] := by
  decide +kernel

/-! ## The orchestrator and the host: from V6.9 to V6.26 -/

def filling (fill : Nat) (inq : List Byte) (eos : Bool) : State :=
  { State.resetOf testCfg with ostate := .filling, fill := fill, inq := inq, eos := eos }

/-- V6.9, V6.10, V6.11. -/
theorem test_filling :
    (after (seqStep (filling 3 [] true))).ostate = .done ∧
    isNext (seqStep (filling 3 [] false)) = false ∧
    (after (seqStep (filling 3 [9] false))).blk = [(3, 9)] ∧
    (after (seqStep { filling 2 [7, 7] false with forceEmpty := true })).inq = [7, 7] := by decide +kernel
/-- V6.12. -/
theorem test_processing_entry :
    let s := ({ filling 8 [] false with config := 1, outcnt := 9 }.writeV 3 [1, 2]).writeRun 0 [8, 4] [0, 0]
    (after (seqStep s)).readV 3 = [] ∧ (after (seqStep s)).outcnt = 0 ∧ (after (seqStep s)).upc = 32 ∧
    (after (seqStep s)).readXh 0 = [8, 4] := by decide +kernel
/-- V6.13, V6.14, V6.15. -/
theorem test_draining :
    let s (c : Word) (r : BitVec 64) : State := { base with ostate := .draining, config := c, remain := r, readcnt := 4 }
    (after (seqStep (s 0x80 4))).forceEmpty = false ∧
    (after (seqStep (s 0x80 3))).remain = 0xFFFFFFFFFFFFFFFF ∧ (after (seqStep (s 0x80 3))).forceEmpty = true ∧
    (after (seqStep (s 0 3))).remain = 3 := by decide +kernel

def idle (config : Word) : State := { State.resetOf testCfg with config := config }

/-- V6.16, V6.18, V6.20. -/
theorem test_register_writes :
    (after (hostStep (.memWrite 4 4 0xFFFFFFFF) (idle 0))).readReg 4 = 0xFF ∧
    (after (hostStep (.memWrite 0x14 4 1) (after (hostStep (.memWrite 0x10 4 5) (idle 0))))).remain =
      0x0000000100000005 ∧
    (after (hostStep (.memWrite 0x18 4 7) (idle 0))).total = 0 ∧
    (after (hostStep (.memWrite 4 4 1) (filling 0 [] false))).config = 0 := by decide +kernel
/-- V6.19. -/
theorem test_status_words :
    ({ base with ostate := .done, forceEmpty := true } : State).readReg 8 = 0xC ∧
    ({ base with ostate := .fault } : State).readReg 8 = 5 ∧ (idle 0).readReg 8 = 0 := by decide +kernel
/-- V6.21, V6.22, V6.23, V6.24. -/
theorem test_start :
    (after (hostStep (.memWrite 0 4 1) (idle 0x50))).errUpc = 0x7F ∧
    (after (hostStep (.memWrite 0 4 1) (idle 0x50))).cause = 1 ∧
    (after (hostStep (.memWrite 0 4 1) (idle 0x51))).ostate = .filling ∧
    (after (hostStep (.memWrite 0 4 1) (idle 0x04))).ostate = .fault ∧
    (after (hostStep (.memWrite 0 4 1) (idle 0x02))).ostate = .fault := by decide +kernel
/-- V6.25, V6.26. -/
theorem test_start_ignored :
    (after (hostStep (.memWrite 0 4 1) { base with ostate := .done })).ostate = .done ∧
    (after (hostStep (.memWrite 0 4 0xFFFFFFFE) (idle 0))).ostate = .idle := by decide +kernel

/-- A word placed where the next step fetches is the one that runs. -/
theorem test_fetch_word : (after (step (State.reset.withFetchWord 32 0x02000002))).upc = 2 := by decide +kernel

/-- The worked accounting instance S4: 159 frames. -/
theorem test_audio_frames :
    audioFrames { testCfg with
      blockLen := 16384, hlen := 16384,
      rom := ((testCfg.rom.set 9 ⟨true, List.replicate 5 0, [Fp.one]⟩).set 10
        ⟨true, List.replicate 7 0, [Fp.one]⟩).set 11 ⟨true, List.replicate 7 0, [Fp.one]⟩ } = 159 := by
  decide +kernel
/-- V4.10, V4.11. -/
theorem test_video_counts :
    videoCount { testCfg with blockLen := 1024, hlen := 1024, rom := testCfg.rom.set 6 test0 } false = 319 ∧
    videoProgresses { testCfg with
      blockLen := 1024, hlen := 1024, rom := testCfg.rom.set 6 ⟨true, List.replicate 8 0, [Fp.one]⟩ } false =
      false := by decide +kernel

/-! ## Witnesses: for each statement with hypotheses, what meets them together, clause by clause -/

/-- FILLING with one byte in the block and one waiting. -/
def oneByte : State := { filling 1 [7] false with blk := [(0, 5)], readcnt := 1 }

theorem inv_oneByte : StateInv oneByte where
  legal := by decide +kernel
  vCapacity := by decide +kernel
  zCapacity := by decide +kernel
  xhLength := by decide +kernel
  yhLength := by decide +kernel
  blkCanonical := by decide +kernel
  blkKnown := by decide +kernel
  blkBounded := by
    intro j h
    change (Memory.read [(0, 5)] j).isSome = true at h
    change j < 8
    simp only [Memory.read] at h
    split at h
    · omega
    · simp at h
  fillBound := by decide +kernel
  fullInProcessing := by decide +kernel
  roomInDraining := by decide +kernel
  consumedBound := by decide +kernel
  outcntBound := by decide +kernel
  readcntBound := by decide +kernel
  readcntFill := by decide +kernel
  configReserved := by decide +kernel
  forceEmptyRoom := by decide +kernel
  causeRecorded := by decide +kernel
  causeRange := by decide +kernel

theorem witness_DecodeOfEncodeIsIdentity :
    (Instr.trimhk 7 7 127 31).wellFormed = true ∧ (Instr.chop 1 1 4095).wellFormed = true := by decide
theorem witness_EncodeOfDecodeIsIdentity : decode 0x31770FFF = .ok (.trimhk 7 7 127 31) := by rfl

def ldblkAtZero : State :=
  { base with cfg := { testCfg with uprog := Vector.replicate 128 0x10000000 } }
theorem witness_StepRunsDecodedInstruction :
    ldblkAtZero.ostate = .processing ∧
    decode (ldblkAtZero.cfg.uprog.get ldblkAtZero.upc.toFin) = .ok (.ldblk 0) ∧ ldblkAtZero.turns = [] ∧
    ({ ldblkAtZero with turns := [.seq] } : State).turns = .seq :: [] := ⟨rfl, by rfl, rfl, rfl⟩
theorem witness_IllegalWordRaisesIllegalUop :
    ({ base with upc := 127 } : State).ostate = .processing ∧ base.turns = [] ∧
    decode (({ base with upc := 127 } : State).cfg.uprog.get ({ base with upc := 127 } : State).upc.toFin) =
      .error .unlistedOp := ⟨rfl, rfl, by rfl⟩
theorem witness_EveryStepKeepsInvariant : StateInv oneByte ∧ ∃ t, step oneByte = .next t := ⟨inv_oneByte, _, rfl⟩
theorem witness_InvariantHoldsAtReset : cfgLegal testCfg = true := test_config_is_legal
theorem witness_StepNeverChangesParameters : ∃ t, step oneByte = .next t := ⟨_, rfl⟩
theorem witness_SeqStepsExactlyWhenEnabled :
    (idle 0).ostate = .idle ∧ (filling 7 [] false).fill ≠ testCfg.blockLen ∧ (filling 7 [] false).inq = [] ∧
    (filling 7 [] false).forceEmpty = false ∧ (filling 7 [] false).eos = false ∧
    ({ base with ostate := .done } : State).ostate = .done ∧ ({ base with ostate := .fault } : State).ostate = .fault :=
  by decide +kernel
theorem witness_OnlyResetLeavesTerminalStates :
    ({ base with ostate := .done } : State).ostate = .done ∧ ({ base with ostate := .fault } : State).ostate = .fault ∧
    ∃ t, hostStep (.memWrite 0 4 1) { base with ostate := .done } = .next t := ⟨rfl, rfl, _, rfl⟩
theorem witness_QueuesMoveOnlyAsTheRulesSay :
    (∃ t, seqStep oneByte = .next t) ∧ oneByte.inq = 7 :: [] := ⟨⟨_, rfl⟩, rfl⟩
theorem witness_InputBytesAreConserved : StateInv oneByte ∧ ∃ t, seqStep oneByte = .next t := ⟨inv_oneByte, _, rfl⟩
theorem witness_HostActionsCommuteWithSeqSteps :
    (∃ t, seqStep { oneByte with outq := [1] } = .next t) ∧
    (∀ a ∈ [HostAction.pushByte 3, .setEos, .takeByte, .memWrite 4 4 1],
      isNext (hostStep a { oneByte with outq := [1] }) = true) := ⟨⟨_, rfl⟩, by decide +kernel⟩
theorem witness_FaultsArePrecise :
    base.ostate = .processing ∧ exec .endProg base = .next (raise .geometry base) ∧
    (raise .geometry base).ostate = .fault := ⟨rfl, rfl, rfl⟩
theorem witness_ControlMovesOnlyForward :
    (∃ t, exec (.skipz 0) base = .next t) ∧
    ∃ t, exec .endProg base = .next t ∧ base.ostate ≠ .fault ∧ t.ostate = .fault :=
  ⟨⟨_, rfl⟩, _, rfl, by decide, rfl⟩
theorem witness_EachStoreHasOnlyItsWriters : ∃ t, exec (.firS 1 0 2 13) base = .next t := ⟨_, rfl⟩
theorem witness_FillingFollowsItsCases :
    (∀ f ∈ [0, 7], ∀ e, ∀ q ∈ [[], [(9 : Byte)]],
      (filling f q e).ostate = .filling ∧ (filling f q e).fill ≠ (filling f q e).cfg.blockLen ∧
      (filling f q e).forceEmpty = false ∧ (filling f q e).inq = q ∧ (filling f q e).eos = e) ∧
    ({ filling 7 [9] false with forceEmpty := true } : State).forceEmpty = true := by decide +kernel
theorem witness_ProcessingEntryClearsTheRegisters :
    (filling 8 [] false).ostate = .filling ∧ (filling 8 [] false).fill = (filling 8 [] false).cfg.blockLen := by
  decide +kernel
theorem witness_DrainingTakesTheBudgetStep :
    ({ base with ostate := .draining, config := 0x80 } : State).ostate = .draining ∧
    ({ base with ostate := .draining, config := 0x80 } : State).config.getLsbD 7 = true ∧
    base.config.getLsbD 7 = false := by decide +kernel

theorem notValid_testCfg (s : State) (h : s.cfg = testCfg) : NotValid s 7 ∧ NotValid s 8 := by
  simp only [NotValid, h]
  exact ⟨⟨7, rfl, by decide +kernel⟩, 8, rfl, by decide +kernel⟩
/-- A failing check in each mode but the audio one, and a passing one. -/
theorem witness_StartRunsTheCheck :
    StartCheckRaises (idle 0x02) ∧ StartCheckRaises (idle 0x04) ∧ StartCheckRaises (idle 0x50) ∧
    ¬StartCheckRaises (idle 0x51) ∧ (idle 0x02).ostate = .idle ∧ (1 : Word).getLsbD 0 = true ∧
    (0xFFFFFFFE : Word).getLsbD 0 = false ∧ base.ostate ≠ .idle := by
  refine ⟨.inl ⟨by decide +kernel, .inr (.inr (.inr (.inl (notValid_testCfg _ rfl).1)))⟩,
    .inl ⟨by decide +kernel, .inr (.inr (.inr (.inr ⟨by decide +kernel, (notValid_testCfg _ rfl).2⟩)))⟩,
    .inl ⟨by decide +kernel, .inl (by decide +kernel)⟩, ?_, by decide +kernel, by decide, by decide, by decide⟩
  have audio : (idle 0x51).modeAudio = true := by decide +kernel
  have all : ∀ n : Fin 16, 9 ≤ n.val → n.val ≤ 12 → ((idle 0x51).cfg.rom.get n).valid = true := by decide +kernel
  rintro (⟨h, -⟩ | ⟨-, h⟩)
  · rw [audio] at h
    exact absurd h (by decide)
  · rcases h with ⟨n, hn, hv⟩ | ⟨n, hn, hv⟩ | ⟨n, hn, hv⟩ | ⟨n, hn, hv⟩ <;>
      · rw [all n (by omega) (by omega)] at hv
        exact absurd hv (by decide)
theorem witness_HostWritesFollowTheMap :
    (idle 0).ostate = .idle ∧ base.ostate ≠ .idle ∧ 0x08 % 4 = 0 ∧ 0x3C % 4 = 0 ∧
    0x08 ∉ [0x00, 0x04, 0x10, 0x14] ∧ 0x3C ∉ [0x00, 0x04, 0x10, 0x14] := by decide +kernel
theorem witness_HostReadsFollowTheMap : StateInv oneByte ∧ 0x3C % 4 = 0 ∧ 0x40 ≤ 0x40 :=
  ⟨inv_oneByte, by decide, by decide⟩
theorem witness_QueueActionsFollowTheTable :
    base.eos = false ∧ base.outq = [] ∧ ({ base with outq := [3] } : State).outq = 3 :: [] ∧
    ({ base with eos := true } : State).eos = true ∧ (2 ≠ 4 ∨ 0 % 4 ≠ 0) ∧ (4 ≠ 4 ∨ 2 % 4 ≠ 0) := by decide +kernel

/-- Each clause, at a product of 1 and of B, of 0 and of B + 1. -/
theorem witness_AdvReportsTheConsumedCount :
    cfgLegal base.cfg = true ∧ base.cfg.blockLen = 8 ∧
    1 ≤ 1 * ({ base with outcnt := 1 } : State).outcnt.toNat ∧ 1 * ({ base with outcnt := 8 } : State).outcnt.toNat = 8 ∧
    1 * base.outcnt.toNat = 0 ∧ 8 < 3 * ({ base with outcnt := 3 } : State).outcnt.toNat := by decide +kernel
theorem witness_EndSlidesTheBlock :
    fullBlock.consumed ≠ 0 ∧ fullBlock.consumed.toNat ≤ fullBlock.cfg.blockLen ∧
    ({ fullBlock with consumed := 8 } : State).consumed.toNat = fullBlock.cfg.blockLen ∧
    base.consumed = 0 := by decide +kernel
theorem witness_LdblkLoadsTheBytesExactly :
    ({ base with blk := [(0, 255)], fill := 1 } : State).blk.read 0 = some 255 ∧ 0 < 1 := by decide +kernel
theorem witness_Emit16PushesClippedCodes :
    (∀ x ∈ (withV [num 1, plusInf] []).readV 0, Fp.isNaN (Fp.mul x (num 100)) = false) ∧
    (∃ x ∈ (withV [aNaN] []).readV 0, Fp.isNaN (Fp.mul x (num 100)) = true) := by
  have h1 : (withV [num 1, plusInf] []).readV 0 = [num 1, plusInf] := by rfl
  have h2 : (withV [aNaN] []).readV 0 = [aNaN] := by rfl
  rw [h1, h2]
  refine ⟨List.forall_mem_cons.mpr ⟨by decide +kernel, List.forall_mem_singleton.mpr (by decide +kernel)⟩,
    aNaN, List.mem_singleton.mpr rfl, Fp.isNaN_mul (.inl (by decide))⟩
theorem witness_EmitfPushesStereoFrames :
    (∀ x ∈ ((withV [num 1, aNaN] [num 2]).readV 0).take 1 ++ ((withV [num 1, aNaN] [num 2]).readV 1).take 1,
      Fp.isNaN x = false) ∧
    (∃ x ∈ ((withV [aNaN] [num 2]).readV 0).take 1 ++ ((withV [aNaN] [num 2]).readV 1).take 1,
      Fp.isNaN x = true) := by
  have h1 : ((withV [num 1, aNaN] [num 2]).readV 0).take 1 ++ ((withV [num 1, aNaN] [num 2]).readV 1).take 1 =
    [num 1, num 2] := by rfl
  have h2 : ((withV [aNaN] [num 2]).readV 0).take 1 ++ ((withV [aNaN] [num 2]).readV 1).take 1 =
    [aNaN, num 2] := by rfl
  rw [h1, h2]
  exact ⟨List.forall_mem_cons.mpr ⟨by decide +kernel, List.forall_mem_singleton.mpr (by decide +kernel)⟩,
    aNaN, List.mem_cons_self, by decide⟩

/-- A valid slot through each form of the field: a number, the low-pass selector, the deemphasis selector. -/
theorem witness_NamesValidSlot :
    NamesValidSlot base 13 test0 ∧ NamesValidSlot base 14 test1 ∧ NamesValidSlot base 30 identity ∧
    NamesValidSlot base 31 identity :=
  ⟨⟨13, .inl ⟨by decide, rfl⟩, by decide +kernel, rfl⟩, ⟨14, .inl ⟨by decide, rfl⟩, by decide +kernel, rfl⟩,
    ⟨1, .inr (.inl ⟨rfl, by decide +kernel, by decide +kernel⟩), by decide +kernel, rfl⟩,
    ⟨6, .inr (.inr ⟨rfl, by decide +kernel⟩), by decide +kernel, rfl⟩⟩
theorem witness_BlockFiltersFollowTheRecurrence : NamesValidSlot base 13 test0 ∧ test0.a.length = 1 :=
  ⟨witness_NamesValidSlot.1, rfl⟩
theorem witness_StreamFiltersFollowTheRecurrence : NamesValidSlot base 13 test0 ∧ test0.a.length = 1 :=
  ⟨witness_NamesValidSlot.1, rfl⟩
/-- Each clause: both ends of the reserved range, the selector at 5, an invalid slot by number and by selector, and a
slot of IIR kind under the FIR forms. -/
theorem witness_SlotFieldFaults :
    (16 ≤ 16 ∧ 29 ≤ 29) ∧ 4 < ({ base with config := 0x50 } : State).lpfSel ∧
    (NamesSlot base 15 15 ∧ (base.cfg.rom.get 15).valid = false) ∧
    (NamesSlot { base with config := 2 } 31 7 ∧ (({ base with config := 2 } : State).cfg.rom.get 7).valid = false) ∧
    (NamesValidSlot base 14 test1 ∧ test1.a.length ≠ 1) ∧ Instr.firB 1 0 14 ∈ slotReaders 1 0 0 0 14 :=
  ⟨by decide, by decide +kernel, ⟨.inl ⟨by decide, rfl⟩, by decide +kernel⟩,
    ⟨.inr (.inr ⟨rfl, by decide +kernel⟩), by decide +kernel⟩, ⟨witness_NamesValidSlot.2.1, by decide⟩, by decide⟩
theorem witness_StreamingContinuesAcrossBlocks :
    test0.b.length ≤ 2 + 1 ∧ test0.a.length ≤ 2 + 1 ∧ (restHistory testCfg).length = 2 := by decide +kernel
theorem witness_FirIsTheSpecialCase :
    NamesValidSlot base 13 test0 ∧ test0.a.length = 1 ∧ base.readXh 0 = List.replicate (base.cfg.ntapMax - 1) 0 ∧
    base.readYh 0 = List.replicate (base.cfg.ntapMax - 1) 0 :=
  ⟨witness_NamesValidSlot.1, rfl, by decide +kernel, by decide +kernel⟩
theorem witness_TrimhkDropsFilterLengths : NamesValidSlot base 13 test0 := witness_NamesValidSlot.1
theorem witness_DecimKeepsEveryNthSample : 1 ≤ 1 ∧ 0 = 0 := by decide
theorem witness_AnltTakesTheBoundedWindow :
    ((withV [num 5] []).readV 0).take testCfg.hlen = [num 5] ∧ (base.readV 0).take testCfg.hlen = [] := by
  decide +kernel
theorem witness_ChopDropsBothEnds :
    1 + 0 < ((base.writeZ 0 [(0, 1), (1, 2), (2, 3)]).readZ 0).length - 1 := by decide +kernel
/-- A pair for each of the cases that do not rest on the free value, and one for the others. -/
theorem witness_AngleFollowsItsCases :
    Fp.eq 0 0 = true ∧ (Fp.eq Fp.negZero 0 = true ∧ Fp.lt (num (-1)) 0 = true) ∧ Fp.isNaN aNaN = true ∧
    ¬(Fp.eq (num 1) 0 = true) ∧ ((base.writeZ 0 [(num 1, num 2)]).readZ 0)[0]? = some (num 1, num 2) := by
  decide +kernel
/-- With an infinite component. -/
theorem witness_AnglesLieInTheHalfOpenRange :
    let s := base.writeZ 0 [(Fp.infinity true, num 2)]
    (∃ t, exec (.angle 1 0) s = .next t ∧ ∃ p, (t.readV 1)[0]? = some p) ∧
    (s.readZ 0)[0]? = some (Fp.infinity true, num 2) ∧ Fp.isNaN (Fp.infinity true) = false ∧
    Fp.isNaN (num 2) = false :=
  ⟨⟨_, rfl, _, rfl⟩, by decide +kernel, by decide +kernel, by decide +kernel⟩
theorem witness_DiffSubtractsNeighbours :
    ((withV [num 1, num 2] []).readV 0)[0]? = some (num 1) ∧ ((withV [num 1, num 2] []).readV 0)[0 + 1]? = some (num 2)
    := by decide +kernel
theorem witness_Fix0CorrectsTheFirstOnly : ((withV [num (-4)] []).readV 0)[0]? = some (num (-4)) := by
  decide +kernel
/-- Jumps of exactly PI, of NaN, and above PI with a finite quotient. -/
theorem witness_UnwrapAppliesTheAccumulatedTurns :
    ((withV [0, num 4] []).readV 0)[0]? = some 0 ∧ ((withV [0, num 4] []).readV 0)[0 + 1]? = some (num 4) ∧
    Fp.le (Fp.abs (Fp.neg Fp.pi)) 0x400921FB54442D18 = true ∧ Fp.isNaN aNaN = true ∧
    Fp.isNaN (Fp.sub (num 4) 0) = false ∧ Fp.le (Fp.abs (Fp.sub (num 4) 0)) 0x400921FB54442D18 = false ∧
    Fp.isFinite (Fp.div (Fp.sub (num 4) 0) 0x401921FB54442D18) = true := by decide +kernel
theorem witness_ExactUnwrapBoundsTheJumps :
    (unwrapSeq exactReals [1, 2])[0]? = some (1 - 0 * (2 * Real.pi)) := by
  simp [unwrapSeq, unwrapOut, exactReals]

/-- Each clause: one sweep, a NaN at once, and nine sweeps under a cap of eight. -/
theorem witness_WrapcFollowsItsLoop :
    ConvergesIn binary64 (num 4000) 1 [num 8000] ∧ ConvergesIn binary64 (num 4000) 8 [num 36000] ∧
    (sweeps binary64 (num 4000) 0 [aNaN]).any Fp.isNaN = true ∧
    (∀ j, j ≤ 8 → (sweeps binary64 (num 4000) j [num 36001]).any Fp.isNaN = false ∧
      outOfRange binary64 (num 4000) (sweeps binary64 (num 4000) j [num 36001]) = true) := by
  refine ⟨⟨?_, ?_, ?_⟩, ⟨?_, ?_, ?_⟩, ?_, ?_⟩ <;> decide +kernel
theorem witness_WrapcResultIsInRange :
    cfgLegal (withV [] [num 8000]).cfg = true ∧ (withV [] [num 8000]).ostate = .processing ∧
    (∃ t, exec (.wrapc 1 1 .full) (withV [] [num 8000]) = .next t ∧ t.ostate ≠ .fault) :=
  ⟨by decide +kernel, rfl, run1 (.wrapc 1 1 .full) (withV [] [num 8000]), rfl, by decide +kernel⟩
theorem witness_ExactWrapcHasAClosedForm :
    (0 : ℝ) < 2 ∧ (∀ x ∈ [(1 : ℝ)], sweepsNeeded 2 x ≤ 0) ∧ (∃ x ∈ [(-1 : ℝ)], 0 < sweepsNeeded 2 x) := by
  refine ⟨by norm_num, ?_, -1, by simp, ?_⟩
  · intro x hx
    simp only [List.mem_singleton] at hx
    subst hx
    simp [sweepsNeeded]
  · rw [sweepsNeeded, if_neg (by norm_num), if_pos (by norm_num)]
    exact Nat.ceil_pos.mpr (by norm_num)
theorem witness_ClipdevClipsToTheDeviation :
    Fp.isFinite (num 150000) = true ∧ Fp.isInf minusInf = true ∧ Fp.isNaN aNaN = true := by decide +kernel
theorem witness_SumsAndProductsAreCorrectlyRounded : Fp.isFinite 0x7FEFFFFFFFFFFFFF = true := by decide
theorem witness_QuotientsAreCorrectlyRounded :
    Fp.isFinite 0x0000000000000001 = true ∧ realOf 0x0000000000000001 ≠ 0 := by
  refine ⟨by decide, ?_⟩
  have hs : Fp.significand 1 = 1 := by decide
  have hb : Fp.signBit 1 = false := by decide
  change realOf 1 ≠ 0
  rw [realOf, hs, hb]
  simpa using (zpow_pos (by norm_num : (0 : ℝ) < 2) _).ne'
theorem witness_ComparisonsCompareTheNumbers :
    Fp.isFinite Fp.negZero = true ∧ Fp.isNaN aNaN = true ∧ Fp.isInf minusInf = true := by decide
theorem witness_SingleConversionRoundsToNearest :
    Fp.isFinite 0x47EFFFFFF0000000 = true ∧ Fp.isInf plusInf = true ∧ Fp.isNaN aNaN = true := by decide

end Sys2Proof.Tests
end

section
/-!
PROOFS. The parts of a datum read off its magnitude bits, the order of the numbers that these bits give, and the
comparisons (O59).
-/
namespace Sys2Proof.Machine

/-! ## The parts of a datum, read off its magnitude bits -/

/-- Minus one or one. -/
def signFactor (neg : Bool) : ℝ := if neg then -1 else 1

theorem signFactor_mul_self (neg : Bool) : signFactor neg * signFactor neg = 1 := by
  cases neg <;> simp [signFactor]

theorem abs_signFactor_mul (neg : Bool) (x : ℝ) : |signFactor neg * x| = |x| := by
  cases neg <;> simp [signFactor]

theorem signFactor_bne (s t : Bool) : signFactor (s != t) = signFactor s * signFactor t := by
  cases s <;> cases t <;> simp [signFactor]

theorem signFactor_not (s : Bool) : signFactor (!s) = -signFactor s := by
  cases s <;> simp [signFactor]

theorem Fp.expBits_eq_div (a : Num64) : Fp.expBits a = Fp.magBits a / 2 ^ 52 := by
  unfold Fp.expBits Fp.magBits
  omega

theorem Fp.fracBits_eq_mod (a : Num64) : Fp.fracBits a = Fp.magBits a % 2 ^ 52 := by
  unfold Fp.fracBits Fp.magBits
  omega

theorem Fp.magBits_lt (a : Num64) : Fp.magBits a < 2 ^ 63 := Nat.mod_lt _ (by norm_num)

/-- The magnitude bits order the finite data, the infinities and the NaNs. -/
theorem Fp.isFinite_iff (a : Num64) : Fp.isFinite a = true ↔ Fp.magBits a < 0x7FF0000000000000 := by
  have := Fp.magBits_lt a
  rw [Fp.isFinite, decide_eq_true_iff, Fp.expBits_eq_div]
  omega

theorem Fp.isInf_iff (a : Num64) : Fp.isInf a = true ↔ Fp.magBits a = 0x7FF0000000000000 := by
  have := Fp.magBits_lt a
  rw [Fp.isInf, Bool.and_eq_true, decide_eq_true_iff, decide_eq_true_iff, Fp.expBits_eq_div, Fp.fracBits_eq_mod]
  omega

theorem Fp.isNaN_iff (a : Num64) : Fp.isNaN a = true ↔ 0x7FF0000000000000 < Fp.magBits a := by
  have := Fp.magBits_lt a
  rw [Fp.isNaN, Bool.and_eq_true, decide_eq_true_iff, decide_eq_true_iff, Fp.expBits_eq_div, Fp.fracBits_eq_mod]
  omega

theorem Fp.isNaN_of_isFinite {a : Num64} (h : Fp.isFinite a = true) : Fp.isNaN a = false := by
  rw [Fp.isFinite_iff] at h
  rw [← Bool.not_eq_true, Fp.isNaN_iff]
  omega

theorem Fp.isInf_of_isFinite {a : Num64} (h : Fp.isFinite a = true) : Fp.isInf a = false := by
  rw [Fp.isFinite_iff] at h
  rw [← Bool.not_eq_true, Fp.isInf_iff]
  omega

theorem Fp.isNaN_of_isInf {a : Num64} (h : Fp.isInf a = true) : Fp.isNaN a = false := by
  rw [Fp.isInf_iff] at h
  rw [← Bool.not_eq_true, Fp.isNaN_iff]
  omega

theorem Fp.significand_eq (a : Num64) : Fp.significand a = magSig 52 (Fp.magBits a) := by
  rw [Fp.significand, magSig, Fp.expBits_eq_div, Fp.fracBits_eq_mod]
  split
  · rename_i h
    omega
  · rfl

theorem Fp.ulpExp_eq (a : Num64) : Fp.ulpExp a = magExp 52 (-1074) (Fp.magBits a) := by
  rw [Fp.ulpExp, magExp, Fp.expBits_eq_div]
  omega

theorem realOf_eq (a : Num64) :
    realOf a = signFactor (Fp.signBit a) * magValue 52 (-1074) (Fp.magBits a) := by
  rw [realOf, magValue, Fp.significand_eq, Fp.ulpExp_eq, signFactor, mul_assoc]

theorem Fp.magBits_ofMag {neg : Bool} {mag : Nat} (h : mag < 2 ^ 63) : Fp.magBits (Fp.ofMag neg mag) = mag := by
  cases neg <;> simp [Fp.magBits, Fp.ofMag] <;> omega

theorem Fp.signBit_eq_msb (a : Num64) : Fp.signBit a = a.msb := by
  rw [Fp.signBit, BitVec.msb_eq_decide]

@[simp] theorem Fp.signBit_neg (a : Num64) : Fp.signBit (Fp.neg a) = !Fp.signBit a := by
  rw [Fp.signBit_eq_msb, Fp.signBit_eq_msb, Fp.neg, BitVec.msb_xor,
    show (0x8000000000000000 : Num64).msb = true by decide, Bool.xor_true]

theorem Fp.magBits_eq_setWidth (a : Num64) : Fp.magBits a = (a.setWidth 63).toNat := by
  rw [Fp.magBits, BitVec.toNat_setWidth]

@[simp] theorem Fp.magBits_neg (a : Num64) : Fp.magBits (Fp.neg a) = Fp.magBits a := by
  rw [Fp.magBits_eq_setWidth, Fp.magBits_eq_setWidth, Fp.neg, BitVec.setWidth_xor]
  simp

theorem Fp.isFinite_neg {a : Num64} (h : Fp.isFinite a = true) : Fp.isFinite (Fp.neg a) = true := by
  rw [Fp.isFinite_iff] at h ⊢
  simpa using h

theorem realOf_neg (a : Num64) : realOf (Fp.neg a) = -realOf a := by
  rw [realOf_eq, realOf_eq, Fp.signBit_neg, Fp.magBits_neg, signFactor_not, neg_mul]

/-! ## The order of the magnitude bits is that of their values -/

section
variable {mb : Nat} {emin : Int}

@[simp] theorem magValue_zero : magValue mb emin 0 = 0 := by simp [magValue, magSig]

theorem magExp_magSig_spec (mb : Nat) (emin : Int) (mag : Nat) :
    mag = (magExp mb emin mag - emin).toNat * 2 ^ mb + magSig mb mag ∧
    (2 ^ mb ≤ magSig mb mag ∨ magExp mb emin mag = emin) := by
  have hdiv := Nat.div_add_mod' mag (2 ^ mb)
  unfold magExp magSig
  split
  · rename_i h
    simp [h]
  · rename_i h
    obtain ⟨k, hk⟩ := Nat.exists_eq_succ_of_ne_zero h
    rw [hk] at hdiv ⊢
    refine ⟨?_, .inl (by omega)⟩
    have : (emin + ((k.succ - 1 : ℕ) : ℤ) - emin).toNat = k := by omega
    rw [this]
    rw [Nat.succ_mul] at hdiv
    omega

/-- The next magnitude is one unit in the last place larger. -/
theorem magValue_succ (mag : Nat) :
    magValue mb emin (mag + 1) = magValue mb emin mag + (2 : ℝ) ^ magExp mb emin mag := by
  obtain ⟨hmag, hlead⟩ := magExp_magSig_spec mb emin mag
  have hlt := magSig_lt mb mag
  have hexp : emin ≤ magExp mb emin mag := by unfold magExp; omega
  have assembled := magValue_assemble (R := magSig mb mag + 1) hexp hlt
    (hlead.imp_left fun h => h.trans (Nat.le_succ _))
  rw [← Nat.add_assoc, ← hmag] at assembled
  rw [assembled, magValue]
  push_cast
  ring

theorem magValue_strictMono : StrictMono (magValue mb emin) :=
  strictMono_nat_of_lt_succ fun mag => by
    rw [magValue_succ]
    exact lt_add_of_pos_right _ (zpow_pos (by norm_num) _)

theorem magValue_nonneg (mag : Nat) : 0 ≤ magValue mb emin mag := by
  unfold magValue
  positivity

end

/-- The order that the comparisons use is that of the numbers. -/
theorem Fp.key_lt_iff (a b : Num64) : Fp.key a < Fp.key b ↔ realOf a < realOf b := by
  have mono (m n : Nat) : m < n ↔ magValue 52 (-1074) m < magValue 52 (-1074) n :=
    magValue_strictMono.lt_iff_lt.symm
  have nonneg (m : Nat) : 0 ≤ magValue 52 (-1074) m := magValue_nonneg m
  rw [realOf_eq, realOf_eq, Fp.key, Fp.key]
  generalize Fp.magBits a = m, Fp.magBits b = n
  cases Fp.signBit a <;> cases Fp.signBit b <;> simp only [signFactor, if_true, Bool.false_eq_true, if_false]
  case false.false => simpa using mono m n
  case false.true =>
    have := nonneg m
    have := nonneg n
    exact iff_of_false (by omega) (by linarith)
  case true.false =>
    rw [show (-(m : ℤ) < n) ↔ 0 < m ∨ 0 < n by omega, mono 0 m, mono 0 n, magValue_zero]
    have := nonneg m
    have := nonneg n
    constructor
    · rintro (h | h) <;> linarith
    · intro h
      by_contra hc
      rw [not_or] at hc
      linarith
  case true.true => simpa using mono n m

theorem Fp.key_le_iff (a b : Num64) : Fp.key a ≤ Fp.key b ↔ realOf a ≤ realOf b := by
  rw [← not_lt, ← not_lt, Fp.key_lt_iff]

theorem Fp.key_eq_iff (a b : Num64) : Fp.key a = Fp.key b ↔ realOf a = realOf b := by
  rw [le_antisymm_iff, le_antisymm_iff, Fp.key_le_iff, Fp.key_le_iff]

/-! ## Comparisons -/

theorem Fp.compare_finite {a b : Num64} (ha : Fp.isFinite a = true) (hb : Fp.isFinite b = true) :
    (Fp.lt a b = true ↔ realOf a < realOf b) ∧ (Fp.le a b = true ↔ realOf a ≤ realOf b) ∧
    (Fp.eq a b = true ↔ realOf a = realOf b) := by
  have na := Fp.isNaN_of_isFinite ha
  have nb := Fp.isNaN_of_isFinite hb
  refine ⟨?_, ?_, ?_⟩
  · simp [Fp.lt, na, nb, Fp.key_lt_iff]
  · simp [Fp.le, na, nb, Fp.key_le_iff]
  · simp [Fp.eq, na, nb, Fp.key_eq_iff]

theorem Fp.compare_nan {a b : Num64} (h : Fp.isNaN a = true ∨ Fp.isNaN b = true) :
    Fp.lt a b = false ∧ Fp.le a b = false ∧ Fp.eq a b = false := by
  rcases h with h | h <;> simp [Fp.lt, Fp.le, Fp.eq, h]

/-- The magnitude bits of an infinity are above those of every finite datum. -/
theorem Fp.compare_inf {a b : Num64} (ha : Fp.isFinite a = true) (hb : Fp.isInf b = true) :
    Fp.lt a b = !Fp.signBit b ∧ Fp.lt b a = Fp.signBit b ∧ Fp.eq a b = false := by
  have na := Fp.isNaN_of_isFinite ha
  have nb := Fp.isNaN_of_isInf hb
  rw [Fp.isFinite_iff] at ha
  rw [Fp.isInf_iff] at hb
  have within : |Fp.key a| < 0x7FF0000000000000 := by
    unfold Fp.key
    split <;> simp <;> omega
  rw [abs_lt] at within
  have keyInf : Fp.key b = if Fp.signBit b then -0x7FF0000000000000 else 0x7FF0000000000000 := by
    simp [Fp.key, hb]
  simp only [Fp.lt, Fp.eq, na, nb, keyInf, Bool.not_false, Bool.true_and]
  cases Fp.signBit b
  · simp only [Bool.false_eq_true, if_false, Bool.not_false, decide_eq_true_eq, decide_eq_false_iff_not]
    omega
  · simp only [if_true, Bool.not_true, decide_eq_true_eq, decide_eq_false_iff_not]
    omega

/-- Settles O59: the order key is strictly monotone in the number, and a NaN is tested first. -/
theorem comparisonsCompareTheNumbers : Obligations.ComparisonsCompareTheNumbers := by
  intro a b
  exact ⟨Fp.compare_finite, Fp.compare_nan, Fp.compare_inf⟩

end Sys2Proof.Machine
end

section
/-!
PROOFS. Rounding told by midpoints: roundMag finds the magnitude whose two midpoints enclose the number, and such a
magnitude, cut off at infinity, is the number rounded to nearest with ties to even.
-/
namespace Sys2Proof.Machine

section
variable {mb : Nat} {emin : Int}

/-! ## Rounding, told by the midpoints of neighbouring magnitudes -/

/-- The midpoint of a magnitude and the next one. -/
noncomputable def magMid (mb : Nat) (emin : Int) (mag : Nat) : ℝ :=
  (magValue mb emin mag + magValue mb emin (mag + 1)) / 2

theorem magMid_eq (mag : Nat) :
    magMid mb emin mag = ((2 * magSig mb mag + 1 : ℕ) : ℝ) * (2 : ℝ) ^ (magExp mb emin mag - 1) := by
  rw [magMid, magValue_succ, magValue, zpow_sub_one₀ (by norm_num)]
  push_cast
  ring

theorem magMid_strictMono : StrictMono (magMid mb emin) :=
  strictMono_nat_of_lt_succ fun mag => by
    have h1 := magValue_strictMono (mb := mb) (emin := emin) (Nat.lt_succ_self mag)
    have h2 := magValue_strictMono (mb := mb) (emin := emin) (Nat.lt_succ_self (mag + 1))
    simp only [magMid, Nat.succ_eq_add_one] at *
    linarith

theorem magMid_bounds (mag : Nat) :
    magValue mb emin mag < magMid mb emin mag ∧ magMid mb emin mag < magValue mb emin (mag + 1) := by
  have h := magValue_strictMono (mb := mb) (emin := emin) (Nat.lt_succ_self mag)
  simp only [magMid, Nat.succ_eq_add_one] at *
  constructor <;> linarith

/-- The magnitude `B` is `x` rounded, were there no infinity: `x` lies between the midpoints below and above `B`, and
on one of them only if `B` is even. -/
structure RoundsMag (mb : Nat) (emin : Int) (B : Nat) (x : ℝ) : Prop where
  above : ∀ k, k + 1 = B → magMid mb emin k ≤ x
  below : x ≤ magMid mb emin B
  tie : ∀ k, k = B ∨ k + 1 = B → x = magMid mb emin k → B % 2 = 0

theorem roundsMag_zero : RoundsMag mb emin 0 0 where
  above _ h := absurd h (Nat.succ_ne_zero _)
  below := (magValue_nonneg 0).trans (magMid_bounds 0).1.le
  tie _ _ _ := rfl

/-- A signed magnitude is never inside the gap between a magnitude and the next one. -/
theorem signed_magValue_outside_gap (neg : Bool) (mag k : Nat) :
    signFactor neg * magValue mb emin mag ≤ magValue mb emin k ∨
    magValue mb emin (k + 1) ≤ signFactor neg * magValue mb emin mag := by
  have mono := (magValue_strictMono (mb := mb) (emin := emin)).monotone
  cases neg
  · rw [signFactor, if_neg Bool.false_ne_true, one_mul]
    exact (Nat.lt_or_ge k mag).symm.imp (fun h => mono h) (fun h => mono h)
  · left
    have h1 := magValue_nonneg (mb := mb) (emin := emin) mag
    have h2 := magValue_nonneg (mb := mb) (emin := emin) k
    rw [signFactor, if_pos rfl]
    linarith

/-- Between its midpoints `B` is nearest to `x` among all signed magnitudes, and even on a tie. -/
theorem RoundsMag.nearest {B : Nat} {x : ℝ} (h : RoundsMag mb emin B x) (hx : 0 ≤ x) (neg : Bool) (mag : Nat) :
    let y := signFactor neg * magValue mb emin mag
    |magValue mb emin B - x| ≤ |y - x| ∧
    (y ≠ magValue mb emin B → |y - x| = |magValue mb emin B - x| → B % 2 = 0) := by
  intro y
  have gap := signed_magValue_outside_gap (mb := mb) (emin := emin) neg mag
  obtain ⟨midGt, midLt⟩ := magMid_bounds (mb := mb) (emin := emin) B
  rcases lt_trichotomy y (magValue mb emin B) with hlt | heq | hgt
  · obtain _ | k := B
    · -- `y` is negative and `x` is not
      rw [magValue_zero] at hlt ⊢
      have farther : |0 - x| < |y - x| := by
        rw [abs_of_nonpos (by linarith), abs_of_neg (by linarith)]
        linarith
      exact ⟨farther.le, fun _ he => absurd he farther.ne'⟩
    · have hy : y ≤ magValue mb emin k := (gap k).resolve_right (not_le.mpr hlt)
      have hmid := h.above k rfl
      obtain ⟨midGt', midLt'⟩ := magMid_bounds (mb := mb) (emin := emin) k
      have mid_eq : magMid mb emin k = (magValue mb emin k + magValue mb emin (k + 1)) / 2 := rfl
      rw [abs_of_neg (a := y - x) (by linarith)]
      refine ⟨abs_le.mpr ⟨by linarith, by linarith⟩, fun _ he => h.tie k (.inr rfl) ?_⟩
      rcases abs_choice (magValue mb emin (k + 1) - x) with hc | hc <;> linarith
  · rw [heq]
    exact ⟨le_rfl, fun hne => absurd rfl hne⟩
  · have hy : magValue mb emin (B + 1) ≤ y := (gap B).resolve_left (not_le.mpr hgt)
    have hmid := h.below
    have mid_eq : magMid mb emin B = (magValue mb emin B + magValue mb emin (B + 1)) / 2 := rfl
    rw [abs_of_pos (a := y - x) (by linarith)]
    refine ⟨abs_le.mpr ⟨by linarith, by linarith⟩, fun _ he => h.tie B (.inl rfl) ?_⟩
    rcases abs_choice (magValue mb emin B - x) with hc | hc <;> linarith

/-- The same with a sign on the rounded number. -/
theorem RoundsMag.nearest_signed {B : Nat} {x : ℝ} (h : RoundsMag mb emin B x) (hx : 0 ≤ x) (s neg : Bool)
    (mag : Nat) :
    let r := signFactor s * magValue mb emin B
    let y := signFactor neg * magValue mb emin mag
    |r - signFactor s * x| ≤ |y - signFactor s * x| ∧
    (y ≠ r → |y - signFactor s * x| = |r - signFactor s * x| → B % 2 = 0) := by
  intro r y
  have hy : y = signFactor s * (signFactor (s != neg) * magValue mb emin mag) := by
    rw [signFactor_bne, ← mul_assoc, ← mul_assoc, signFactor_mul_self, one_mul]
  have dist : ∀ z, |signFactor s * z - signFactor s * x| = |z - x| := fun z => by
    rw [← mul_sub, abs_signFactor_mul]
  rw [hy, dist, dist]
  obtain ⟨near, even⟩ := h.nearest hx (s != neg) mag
  exact ⟨near, fun hne => even fun he => hne (by rw [he])⟩

/-- Rounding overflows exactly from the midpoint above the largest finite magnitude, which is odd. -/
theorem RoundsMag.overflow_iff {B top : Nat} {x : ℝ} (h : RoundsMag mb emin B x) (odd : top % 2 = 1) :
    top + 1 ≤ B ↔ magMid mb emin top ≤ x := by
  constructor
  · intro hB
    obtain ⟨k, rfl⟩ : ∃ k, B = k + 1 := ⟨B - 1, by omega⟩
    exact (magMid_strictMono.monotone (Nat.le_of_succ_le_succ hB)).trans (h.above k rfl)
  · intro hx
    by_contra hB
    have hB : B ≤ top := by omega
    have hle := magMid_strictMono.monotone (β := ℝ) (f := magMid mb emin) hB
    have hBtop : B = top := magMid_strictMono.injective (le_antisymm hle (hx.trans h.below))
    have := h.tie B (.inl rfl) (le_antisymm h.below (hle.trans hx))
    omega

/-! ## What roundMag gives -/

theorem roundBits_roundsMag (hmb : 1 ≤ mb) {m : Nat} {e : Int} (hm : m ≠ 0) :
    RoundsMag mb emin (roundBits mb emin m e) (m * (2 : ℝ) ^ e) := by
  have near := roundBits_nearest hmb (emin := emin) (e := e) hm
  generalize roundBits mb emin m e = B at *
  generalize (m : ℝ) * (2 : ℝ) ^ e = x at *
  have mid_eq (k : Nat) : magMid mb emin k = (magValue mb emin k + magValue mb emin (k + 1)) / 2 := rfl
  refine ⟨?_, ?_, ?_⟩
  · rintro k rfl
    obtain ⟨lo, hi⟩ := magMid_bounds (mb := mb) (emin := emin) k
    by_contra hc
    have := (near k).1
    rw [abs_of_pos (a := magValue mb emin (k + 1) - x) (by linarith), le_abs] at this
    rcases this with h | h <;> linarith [mid_eq k]
  · obtain ⟨lo, hi⟩ := magMid_bounds (mb := mb) (emin := emin) B
    by_contra hc
    have := (near (B + 1)).1
    rw [abs_of_neg (a := magValue mb emin B - x) (by linarith), le_abs] at this
    rcases this with h | h <;> linarith [mid_eq B]
  · intro k hk hx
    obtain ⟨lo, hi⟩ := magMid_bounds (mb := mb) (emin := emin) k
    have level : |magValue mb emin k - x| = |magValue mb emin (k + 1) - x| := by
      rw [abs_of_neg (by linarith), abs_of_pos (by linarith)]
      linarith [mid_eq k]
    rcases hk with rfl | rfl
    · exact (near (k + 1)).2 (lo.trans hi).ne' level.symm
    · exact (near k).2 (lo.trans hi).ne level

/-- roundMag gives the rounded magnitude, cut off at infinity. -/
theorem Fp.roundMag_roundsMag (hmb : 1 ≤ mb) (infMag m : Nat) (e : Int) :
    ∃ B, Fp.roundMag mb emin infMag m e = min B infMag ∧ RoundsMag mb emin B (m * (2 : ℝ) ^ e) := by
  by_cases hm : m = 0
  · subst hm
    refine ⟨0, by simp [Fp.roundMag], ?_⟩
    simpa using roundsMag_zero
  · exact ⟨_, Fp.roundMag_eq hm, roundBits_roundsMag hmb hm⟩

end

/-! ## binary64 -/

theorem signFactor_mul_neg_iff {neg : Bool} {x : ℝ} (hx : 0 ≤ x) (hne : signFactor neg * x ≠ 0) :
    neg = true ↔ signFactor neg * x < 0 := by
  have hpos : 0 < x := lt_of_le_of_ne hx fun h => hne (by rw [← h, mul_zero])
  cases neg <;> simp [signFactor, hpos, hx]

theorem magMid_top64 : magMid 52 (-1074) 0x7FEFFFFFFFFFFFFF = (2 : ℝ) ^ (1024 : ℕ) - 2 ^ (970 : ℕ) := by
  rw [magMid_eq, show (1024 : ℕ) = 54 + 970 from rfl, pow_add]
  have sig : magSig 52 0x7FEFFFFFFFFFFFFF = 2 ^ 53 - 1 := by norm_num [magSig]
  have exp : magExp 52 (-1074) 0x7FEFFFFFFFFFFFFF - 1 = (970 : ℕ) := by norm_num [magExp]
  rw [sig, exp, zpow_natCast]
  generalize (2 : ℝ) ^ 970 = u
  push_cast
  ring

/-- A sign and a rounded magnitude, cut off at infinity, are the rounded number. -/
theorem roundsTo_ofMag {B : Nat} {x : ℝ} (h : RoundsMag 52 (-1074) B x) (hx : 0 ≤ x) (neg : Bool) :
    RoundsTo (Fp.ofMag neg (min B 0x7FF0000000000000)) (signFactor neg * x) := by
  have hlt : min B 0x7FF0000000000000 < 2 ^ 63 := by omega
  have overflow := h.overflow_iff (top := 0x7FEFFFFFFFFFFFFF) (by norm_num)
  rw [magMid_top64] at overflow
  refine ⟨?_, ?_, ?_, ?_⟩
  · rw [← Bool.not_eq_true, Fp.isNaN_iff, Fp.magBits_ofMag hlt]
    omega
  · rw [Fp.isInf_iff, Fp.magBits_ofMag hlt, abs_signFactor_mul, abs_of_nonneg hx, ← overflow]
    omega
  · rw [Fp.signBit_ofMag hlt]
    exact signFactor_mul_neg_iff hx
  · intro hfin
    rw [Fp.isFinite_iff, Fp.magBits_ofMag hlt] at hfin
    have hB : min B 0x7FF0000000000000 = B := by omega
    rw [Fp.significand_eq, magSig_mod_two (by norm_num), realOf_eq, Fp.signBit_ofMag hlt, Fp.magBits_ofMag hlt, hB]
    refine ⟨fun c _ => ?_, fun c _ => ?_⟩
    · rw [realOf_eq c]
      exact (h.nearest_signed hx neg _ _).1
    · rw [realOf_eq c]
      exact (h.nearest_signed hx neg _ _).2

theorem Fp.round_roundsTo (neg : Bool) (m : Nat) (e : Int) :
    RoundsTo (Fp.round neg m e) (signFactor neg * (m * (2 : ℝ) ^ e)) := by
  obtain ⟨B, hmag, hB⟩ := Fp.roundMag_roundsMag (mb := 52) (emin := -1074) (by norm_num) 0x7FF0000000000000 m e
  rw [Fp.round, hmag]
  exact roundsTo_ofMag hB (by positivity) neg

end Sys2Proof.Machine
end

section
/-!
PROOFS. Sums, differences and products (O57) and quotients (O58): each is one rounding of the exact number.
-/
namespace Sys2Proof.Machine

/-! ## Sums, differences and products -/

theorem realOf_eq_significand (a : Num64) :
    realOf a = signFactor (Fp.signBit a) * (Fp.significand a * (2 : ℝ) ^ Fp.ulpExp a) := by
  rw [realOf, signFactor, mul_assoc]

/-- An integer multiple of a unit not above the datum's own is that datum. -/
theorem Fp.scaled_mul_unit (a : Num64) {e : Int} (h : e ≤ Fp.ulpExp a) :
    (Fp.scaled a e : ℝ) * (2 : ℝ) ^ e = realOf a := by
  have unit : (2 : ℝ) ^ Fp.ulpExp a = (2 : ℝ) ^ (Fp.ulpExp a - e).toNat * (2 : ℝ) ^ e := by
    rw [← zpow_natCast, Int.toNat_of_nonneg (by omega), ← zpow_add₀ (by norm_num), sub_add_cancel]
  rw [realOf_eq_significand, unit, Fp.scaled]
  cases Fp.signBit a <;> simp [signFactor] <;> ring

/-- The exact sum as a multiple of the smaller of the two units. -/
def Fp.sumUnits (a b : Num64) : Int :=
  Fp.scaled a (min (Fp.ulpExp a) (Fp.ulpExp b)) + Fp.scaled b (min (Fp.ulpExp a) (Fp.ulpExp b))

theorem Fp.sumUnits_mul_unit (a b : Num64) :
    (Fp.sumUnits a b : ℝ) * (2 : ℝ) ^ min (Fp.ulpExp a) (Fp.ulpExp b) = realOf a + realOf b := by
  rw [Fp.sumUnits, Int.cast_add, add_mul, Fp.scaled_mul_unit a (min_le_left _ _),
    Fp.scaled_mul_unit b (min_le_right _ _)]

theorem Fp.sumUnits_eq_zero_iff (a b : Num64) : Fp.sumUnits a b = 0 ↔ realOf a + realOf b = 0 := by
  have unit : (2 : ℝ) ^ min (Fp.ulpExp a) (Fp.ulpExp b) ≠ 0 := (zpow_pos (by norm_num) _).ne'
  rw [← Fp.sumUnits_mul_unit, mul_eq_zero_iff_right unit, Int.cast_eq_zero]

/-- The sign of a sum: the number's, and for zero IEEE 754's (log entry 3). -/
def Fp.sumSign (a b : Num64) : Bool :=
  if Fp.sumUnits a b = 0 then Fp.signBit a && Fp.signBit b else decide (Fp.sumUnits a b < 0)

theorem Fp.round_zero (neg : Bool) (e : Int) : Fp.round neg 0 e = Fp.ofMag neg 0 := by
  simp [Fp.round, Fp.roundMag]

theorem Fp.add_finite {a b : Num64} (ha : Fp.isFinite a = true) (hb : Fp.isFinite b = true) :
    Fp.add a b = Fp.round (Fp.sumSign a b) (Fp.sumUnits a b).natAbs (min (Fp.ulpExp a) (Fp.ulpExp b)) := by
  have zero : ∀ s : Bool, Fp.ofMag s 0 = if s then Fp.negZero else Fp.posZero := by decide
  simp only [Fp.add, Fp.isNaN_of_isFinite ha, Fp.isNaN_of_isFinite hb, Fp.isInf_of_isFinite ha,
    Fp.isInf_of_isFinite hb, Bool.or_self, Bool.false_eq_true, if_false, Fp.sumSign]
  rw [← Fp.sumUnits]
  split
  · rename_i h
    rw [h, Int.natAbs_zero, Fp.round_zero, zero]
  · rfl

theorem signFactor_mul_natAbs (t : Int) : signFactor (decide (t < 0)) * (t.natAbs : ℝ) = t := by
  rw [Nat.cast_natAbs, Int.cast_abs, signFactor]
  split
  · rename_i h
    have : (t : ℝ) < 0 := by exact_mod_cast of_decide_eq_true h
    rw [abs_of_neg this, neg_one_mul, neg_neg]
  · rename_i h
    have : (0 : ℝ) ≤ t := by exact_mod_cast not_lt.mp (fun hc => h (decide_eq_true hc))
    rw [abs_of_nonneg this, one_mul]

theorem Fp.add_roundsTo {a b : Num64} (ha : Fp.isFinite a = true) (hb : Fp.isFinite b = true) :
    RoundsTo (Fp.add a b) (realOf a + realOf b) := by
  have rounds := Fp.round_roundsTo (Fp.sumSign a b) (Fp.sumUnits a b).natAbs (min (Fp.ulpExp a) (Fp.ulpExp b))
  have value : signFactor (Fp.sumSign a b) * ((Fp.sumUnits a b).natAbs : ℝ) = Fp.sumUnits a b := by
    unfold Fp.sumSign
    split
    · rename_i h
      simp [h]
    · exact signFactor_mul_natAbs _
  rwa [← Fp.add_finite ha hb, ← mul_assoc, value, Fp.sumUnits_mul_unit] at rounds

theorem Fp.signBit_add_of_zero {a b : Num64} (ha : Fp.isFinite a = true) (hb : Fp.isFinite b = true)
    (h : realOf a + realOf b = 0) : Fp.signBit (Fp.add a b) = (Fp.signBit a && Fp.signBit b) := by
  rw [Fp.add_finite ha hb, Fp.signBit_round, Fp.sumSign, if_pos ((Fp.sumUnits_eq_zero_iff a b).mpr h)]

theorem Fp.sub_finite {a b : Num64} (ha : Fp.isFinite a = true) (hb : Fp.isFinite b = true) :
    Fp.sub a b = Fp.add a (Fp.neg b) := by
  rw [Fp.sub, Fp.isNaN_of_isFinite ha, Fp.isNaN_of_isFinite hb]
  rfl

theorem Fp.mul_finite {a b : Num64} (ha : Fp.isFinite a = true) (hb : Fp.isFinite b = true) :
    Fp.mul a b = Fp.round (Fp.signBit a != Fp.signBit b) (Fp.significand a * Fp.significand b)
      (Fp.ulpExp a + Fp.ulpExp b) := by
  rw [Fp.mul, Fp.isNaN_of_isFinite ha, Fp.isNaN_of_isFinite hb, Fp.isInf_of_isFinite ha, Fp.isInf_of_isFinite hb]
  rfl

theorem Fp.mul_roundsTo {a b : Num64} (ha : Fp.isFinite a = true) (hb : Fp.isFinite b = true) :
    RoundsTo (Fp.mul a b) (realOf a * realOf b) := by
  have value : realOf a * realOf b = signFactor (Fp.signBit a != Fp.signBit b) *
      ((Fp.significand a * Fp.significand b : ℕ) * (2 : ℝ) ^ (Fp.ulpExp a + Fp.ulpExp b)) := by
    rw [realOf_eq_significand, realOf_eq_significand, signFactor_bne, zpow_add₀ (by norm_num)]
    push_cast
    ring
  rw [Fp.mul_finite ha hb, value]
  exact Fp.round_roundsTo _ _ _

/-- Settles O57: each result is one `Fp.round` of the exact number. -/
theorem sumsAndProductsAreCorrectlyRounded : Obligations.SumsAndProductsAreCorrectlyRounded := by
  intro a b ha hb
  have hnb := Fp.isFinite_neg hb
  rw [Fp.sub_finite ha hb, sub_eq_add_neg, ← realOf_neg, ← Fp.signBit_neg]
  refine ⟨Fp.add_roundsTo ha hb, Fp.add_roundsTo ha hnb, Fp.mul_roundsTo ha hb,
    Fp.signBit_add_of_zero ha hb, Fp.signBit_add_of_zero ha hnb, ?_⟩
  rw [Fp.mul_finite ha hb, Fp.signBit_round]

/-! ## Quotients -/

/-- The neighbours of a rounded magnitude have at least half of the unit at which it was rounded. -/
theorem magExp_ge_roundExp {mb : Nat} {emin : Int} {m : Nat} {e : Int} (hm : m ≠ 0) {k : Nat}
    (hk : roundBits mb emin m e ≤ k + 1) : roundExp mb emin m e - 1 ≤ magExp mb emin k := by
  obtain ⟨-, lead⟩ := @roundSig_bounds mb emin m e hm
  have hq : emin ≤ roundExp mb emin m e := le_max_right _ _
  unfold magExp
  rcases lead with h | h
  · have hpos := Nat.two_pow_pos mb
    have : (roundExp mb emin m e - emin).toNat ≤ k / 2 ^ mb := by
      rw [Nat.le_div_iff_mul_le hpos]
      unfold roundBits at hk
      omega
    omega
  · omega

/-- `x` and `y` compare alike with every multiple of the unit `u`. -/
def SameSide (u x y : ℝ) : Prop := ∀ j : Nat, (j * u ≤ x ↔ j * u ≤ y) ∧ (x ≤ j * u ↔ y ≤ j * u)

/-- Rounding sees a number only through its comparisons with the two midpoints, which are multiples of any unit at most
half of theirs. -/
theorem RoundsMag.of_sameSide {mb : Nat} {emin : Int} {B : Nat} {x y : ℝ} {E : Int} (h : RoundsMag mb emin B x)
    (side : SameSide ((2 : ℝ) ^ E) x y) (hE : ∀ k, B ≤ k + 1 → E + 1 ≤ magExp mb emin k) :
    RoundsMag mb emin B y := by
  have grid : ∀ k, B ≤ k + 1 → ∃ j : Nat, magMid mb emin k = j * (2 : ℝ) ^ E := fun k hk => by
    refine ⟨(2 * magSig mb k + 1) * 2 ^ (magExp mb emin k - 1 - E).toNat, ?_⟩
    have := hE k hk
    rw [magMid_eq, Nat.cast_mul, mul_assoc, Nat.cast_pow, ← zpow_natCast, Int.toNat_of_nonneg (by omega),
      Nat.cast_ofNat, ← zpow_add₀ (by norm_num), sub_add_cancel]
  have moved : ∀ k, B ≤ k + 1 →
      (magMid mb emin k ≤ x ↔ magMid mb emin k ≤ y) ∧ (x ≤ magMid mb emin k ↔ y ≤ magMid mb emin k) := fun k hk => by
    obtain ⟨j, hj⟩ := grid k hk
    rw [hj]
    exact side j
  refine ⟨fun k hk => (moved k hk.ge).1.mp (h.above k hk), (moved B (by omega)).2.mp h.below, fun k hk hy => ?_⟩
  obtain ⟨lo, hi⟩ := moved k (by omega)
  exact h.tie k hk (le_antisymm (hi.mpr hy.le) (lo.mpr hy.ge))

/-- The sticky last bit stands for the dropped part of the quotient. -/
theorem Fp.quotientSticky_sameSide (m : Nat) {n : Nat} (hn : 0 < n) {u : ℝ} (hu : 0 < u) :
    SameSide u (Fp.quotientSticky m n * (u / 2)) ((m * 2 ^ 110 : ℕ) / n * u) := by
  have hn' : (0 : ℝ) < n := by exact_mod_cast hn
  intro j
  have sticky : Fp.quotientSticky m n =
      2 * (m * 2 ^ 110 / n) + if m * 2 ^ 110 % n = 0 then 0 else 1 := rfl
  generalize m * 2 ^ 110 = num at *
  have lower : j * n ≤ num ↔ j ≤ num / n := (Nat.le_div_iff_mul_le hn).symm
  have upper : num ≤ j * n ↔ num / n + (if num % n = 0 then 0 else 1) ≤ j := by
    split
    · rename_i h
      rw [Nat.add_zero, Nat.div_le_iff_le_mul_of_dvd hn.ne' (Nat.dvd_of_mod_eq_zero h)]
    · rename_i h
      have hne : num ≠ j * n := fun he => h (by rw [he, Nat.mul_mod_left])
      rw [Nat.succ_le_iff, ← not_le, ← lower]
      omega
  have left : (Fp.quotientSticky m n : ℝ) * (u / 2) = Fp.quotientSticky m n / 2 * u := by ring
  rw [left, mul_le_mul_iff_left₀ hu, mul_le_mul_iff_left₀ hu, mul_le_mul_iff_left₀ hu, mul_le_mul_iff_left₀ hu,
    le_div_iff₀ (by norm_num), div_le_iff₀ (by norm_num), le_div_iff₀ hn', div_le_iff₀ hn']
  norm_cast
  rw [lower, upper, sticky]
  constructor <;> split <;> omega

/-- Rounding the sticky quotient rounds the exact one. -/
theorem Fp.roundMag_quotient {m n : Nat} (hn : 0 < n) (hn' : n < 2 ^ 53) (e : Int) :
    ∃ B, Fp.roundMag 52 (-1074) 0x7FF0000000000000 (Fp.quotientSticky m n) (e - 111) = min B 0x7FF0000000000000 ∧
      RoundsMag 52 (-1074) B (m / n * (2 : ℝ) ^ e) := by
  by_cases hm : m = 0
  · subst hm
    refine ⟨0, by simp [Fp.roundMag, Fp.quotientSticky], ?_⟩
    simpa using roundsMag_zero
  · have large : 2 ^ 58 ≤ Fp.quotientSticky m n := by
      have : 2 ^ 57 ≤ m * 2 ^ 110 / n := by
        rw [Nat.le_div_iff_mul_le hn]
        omega
      exact (Nat.mul_le_mul_left 2 this).trans (Nat.le_add_right _ _)
    have hs : Fp.quotientSticky m n ≠ 0 := by omega
    have hlog : 58 ≤ (Fp.quotientSticky m n).log2 := (Nat.le_log2 hs).mpr large
    have unit : (e - 111) + ((Fp.quotientSticky m n).log2 : Int) - 52 ≤
        roundExp 52 (-1074) (Fp.quotientSticky m n) (e - 111) := le_max_left _ _
    refine ⟨_, Fp.roundMag_eq hs, ?_⟩
    have rounded := roundBits_roundsMag (mb := 52) (emin := -1074) (e := e - 111) (by norm_num) hs
    have half : (2 : ℝ) ^ (e - 111) = (2 : ℝ) ^ (e - 110) / 2 := by
      rw [show e - 111 = e - 110 - 1 by ring, zpow_sub_one₀ (by norm_num)]
      rfl
    have shifted : (m : ℝ) / n * (2 : ℝ) ^ e = (m * 2 ^ 110 : ℕ) / n * (2 : ℝ) ^ (e - 110) := by
      have shift : (2 : ℝ) ^ e = 2 ^ 110 * (2 : ℝ) ^ (e - 110) := by
        rw [← zpow_natCast, ← zpow_add₀ (by norm_num)]
        congr 1
        push_cast
        ring
      rw [shift]
      push_cast
      ring
    rw [shifted]
    rw [half] at rounded
    refine rounded.of_sameSide (Fp.quotientSticky_sameSide m hn (zpow_pos (by norm_num) _)) fun k hk => ?_
    have := magExp_ge_roundExp hs hk
    omega

theorem signFactor_inv (neg : Bool) : (signFactor neg)⁻¹ = signFactor neg :=
  inv_eq_of_mul_eq_one_right (signFactor_mul_self neg)

theorem Fp.significand_lt (a : Num64) : Fp.significand a < 2 ^ 53 := by
  rw [Fp.significand_eq]
  exact magSig_lt 52 _

theorem Fp.significand_pos {a : Num64} (h : realOf a ≠ 0) : 0 < Fp.significand a := by
  refine Nat.pos_of_ne_zero fun hz => h ?_
  rw [realOf_eq_significand, hz]
  simp

theorem Fp.div_finite {a b : Num64} (ha : Fp.isFinite a = true) (hb : Fp.isFinite b = true) (h : realOf b ≠ 0) :
    Fp.div a b = Fp.round (Fp.signBit a != Fp.signBit b)
      (Fp.quotientSticky (Fp.significand a) (Fp.significand b)) (Fp.ulpExp a - Fp.ulpExp b - 111) := by
  rw [Fp.div, Fp.isNaN_of_isFinite ha, Fp.isNaN_of_isFinite hb, Fp.isInf_of_isFinite ha, Fp.isInf_of_isFinite hb]
  simp only [Bool.or_self, Bool.false_eq_true, if_false, (Fp.significand_pos h).ne']

theorem Fp.div_roundsTo {a b : Num64} (ha : Fp.isFinite a = true) (hb : Fp.isFinite b = true) (h : realOf b ≠ 0) :
    RoundsTo (Fp.div a b) (realOf a / realOf b) := by
  have value : realOf a / realOf b = signFactor (Fp.signBit a != Fp.signBit b) *
      (Fp.significand a / Fp.significand b * (2 : ℝ) ^ (Fp.ulpExp a - Fp.ulpExp b)) := by
    rw [realOf_eq_significand, realOf_eq_significand, signFactor_bne, zpow_sub₀ (by norm_num), mul_div_mul_comm,
      mul_div_mul_comm, div_eq_mul_inv (signFactor _), signFactor_inv]
  obtain ⟨B, hmag, hB⟩ := Fp.roundMag_quotient (m := Fp.significand a) (Fp.significand_pos h) (Fp.significand_lt b)
    (Fp.ulpExp a - Fp.ulpExp b)
  rw [Fp.div_finite ha hb h, value, Fp.round, hmag]
  exact roundsTo_ofMag hB (by positivity) _

/-- Settles O58: the sticky quotient lies on the same side of every midpoint as the exact one. -/
theorem quotientsAreCorrectlyRounded : Obligations.QuotientsAreCorrectlyRounded := by
  intro a b ha hb h
  refine ⟨Fp.div_roundsTo ha hb h, ?_⟩
  rw [Fp.div_finite ha hb h, Fp.signBit_round]

end Sys2Proof.Machine
end

section
/-!
PROOFS. The conversion to binary32 (O60).
-/
namespace Sys2Proof.Machine

/-! ## binary32 -/

/-- The bits of a binary32 pattern below the sign. -/
def magBits32 (p : BitVec 32) : Nat := p.toNat % 2 ^ 31

theorem exponent32_eq (p : BitVec 32) : exponent32 p = magBits32 p / 2 ^ 23 := by
  unfold exponent32 magBits32
  omega

theorem fraction32_eq (p : BitVec 32) : p.toNat % 2 ^ 23 = magBits32 p % 2 ^ 23 := by
  unfold magBits32
  omega

theorem significand32_eq (p : BitVec 32) : significand32 p = magSig 23 (magBits32 p) := by
  rw [significand32, magSig, exponent32_eq, fraction32_eq]
  split
  · rename_i h
    omega
  · rfl

theorem realOf32_eq (p : BitVec 32) : realOf32 p = signFactor p.msb * magValue 23 (-149) (magBits32 p) := by
  have hexp : ((max 1 (exponent32 p) : ℕ) : ℤ) - 150 = magExp 23 (-149) (magBits32 p) := by
    rw [magExp, exponent32_eq]
    omega
  rw [realOf32, magValue, significand32_eq, hexp, signFactor, mul_assoc]

/-- A sign and magnitude bits as a binary32 pattern. -/
def ofMag32 (neg : Bool) (mag : Nat) : BitVec 32 := BitVec.ofNat 32 (mag + if neg then 2 ^ 31 else 0)

theorem magBits32_ofMag32 {neg : Bool} {mag : Nat} (h : mag < 2 ^ 31) : magBits32 (ofMag32 neg mag) = mag := by
  cases neg <;> simp [magBits32, ofMag32] <;> omega

theorem msb_ofMag32 {neg : Bool} {mag : Nat} (h : mag < 2 ^ 31) : (ofMag32 neg mag).msb = neg := by
  rw [BitVec.msb_eq_decide]
  cases neg <;> simp [ofMag32] <;> omega

theorem magMid_top32 : magMid 23 (-149) 0x7F7FFFFF = (2 : ℝ) ^ (128 : ℕ) - 2 ^ (103 : ℕ) := by
  rw [magMid_eq]
  norm_num [magSig, magExp]

theorem roundsTo32_ofMag32 {B : Nat} {x : ℝ} (h : RoundsMag 23 (-149) B x) (hx : 0 ≤ x) (neg : Bool) :
    RoundsTo32 (ofMag32 neg (min B 0x7F800000)) (signFactor neg * x) := by
  have hlt : min B 0x7F800000 < 2 ^ 31 := by omega
  have overflow := h.overflow_iff (top := 0x7F7FFFFF) (by norm_num)
  rw [magMid_top32] at overflow
  refine ⟨?_, ?_, ?_, ?_⟩
  · rw [exponent32_eq, magBits32_ofMag32 hlt, abs_signFactor_mul, abs_of_nonneg hx, ← overflow]
    omega
  · rw [exponent32_eq, fraction32_eq, magBits32_ofMag32 hlt]
    omega
  · rw [msb_ofMag32 hlt]
    exact signFactor_mul_neg_iff hx
  · intro hfin
    rw [exponent32_eq, magBits32_ofMag32 hlt] at hfin
    have hB : min B 0x7F800000 = B := by omega
    rw [significand32_eq, magSig_mod_two (by norm_num), realOf32_eq, msb_ofMag32 hlt, magBits32_ofMag32 hlt, hB]
    refine ⟨fun c _ => ?_, fun c _ => ?_⟩
    · rw [realOf32_eq c]
      exact (h.nearest_signed hx neg _ _).1
    · rw [realOf32_eq c]
      exact (h.nearest_signed hx neg _ _).2

theorem Fp.toBinary32_finite {a : Num64} (h : Fp.isFinite a = true) :
    Fp.toBinary32 a = ofMag32 (Fp.signBit a)
      (Fp.roundMag 23 (-149) 0x7F800000 (Fp.significand a) (Fp.ulpExp a)) := by
  rw [Fp.toBinary32, Fp.isNaN_of_isFinite h, Fp.isInf_of_isFinite h]
  rfl

theorem Fp.toBinary32_roundsTo32 {a : Num64} (h : Fp.isFinite a = true) :
    RoundsTo32 (Fp.toBinary32 a) (realOf a) := by
  obtain ⟨B, hmag, hB⟩ := Fp.roundMag_roundsMag (mb := 23) (emin := -149) (by norm_num) 0x7F800000
    (Fp.significand a) (Fp.ulpExp a)
  rw [Fp.toBinary32_finite h, hmag, realOf_eq_significand]
  exact roundsTo32_ofMag32 hB (by positivity) _

theorem Fp.toBinary32_inf {a : Num64} (h : Fp.isInf a = true) :
    Fp.toBinary32 a = if Fp.signBit a then 0xFF800000 else 0x7F800000 := by
  rw [Fp.toBinary32, Fp.isNaN_of_isInf h, h]
  cases Fp.signBit a <;> rfl

theorem exponent32_eq_extract (p : BitVec 32) : exponent32 p = (p.extractLsb' 23 8).toNat := by
  simp [exponent32, BitVec.extractLsb'_toNat, Nat.shiftRight_eq_div_pow]

theorem fraction32_eq_extract (p : BitVec 32) : p.toNat % 2 ^ 23 = (p.extractLsb' 0 23).toNat := by
  simp [BitVec.extractLsb'_toNat]

/-- Whatever the free bits, the exponent field is full and the quiet bit is set. -/
theorem quietNaN32 (p : BitVec 32) :
    exponent32 (p ||| 0x7FC00000) = 255 ∧ (p ||| 0x7FC00000).toNat % 2 ^ 23 ≠ 0 := by
  rw [exponent32_eq_extract, fraction32_eq_extract, BitVec.extractLsb'_or]
  constructor
  · rw [show (0x7FC00000 : BitVec 32).extractLsb' 23 8 = BitVec.allOnes 8 by decide, BitVec.or_allOnes]
    rfl
  · intro h
    have quiet := congrArg (fun n => n.testBit 22) h
    rw [BitVec.testBit_toNat] at quiet
    simp at quiet

/-- Settles O60: the finite case is one rounding of the magnitude. -/
theorem singleConversionRoundsToNearest : Obligations.SingleConversionRoundsToNearest := by
  intro a
  refine ⟨Fp.toBinary32_roundsTo32, Fp.toBinary32_inf, fun h => ?_⟩
  rw [Fp.toBinary32, h]
  exact quietNaN32 _

end Sys2Proof.Machine
end

section
/-!
PROOFS. The machine's invariant StateInv: it holds after reset (O8) and every transition keeps it (O7).
-/
namespace Sys2Proof.Machine

/-! ## What a host action can do -/

/-- The next states of one host action: a register write's, the reset state, or `s` with only the queues, the end mark
and what the host received moved (45_sequencer.md R240). -/
theorem hostStep_cases {a : HostAction} {s t : State} (h : hostStep a s = .next t) :
    (∃ addr v, t = s.writeReg addr v) ∨ (a = .assertReset ∧ t = s.resetBlock) ∨
    t = { s with inq := t.inq, eos := t.eos, outq := t.outq, hostRead := t.hostRead, hostByte := t.hostByte } := by
  cases a with
  | memWrite addr width v =>
    simp only [hostStep] at h
    split at h <;> cases h
    exact .inl ⟨addr, v, rfl⟩
  | assertReset =>
    cases h
    exact .inr (.inl ⟨rfl, rfl⟩)
  | memRead | pushByte | setEos | takeByte =>
    simp only [hostStep] at h
    split at h <;> cases h
    exact .inr (.inr rfl)

/-- The START command goes to FILLING or raises, by its check (45_sequencer.md R225). -/
theorem start_cases (s : State) :
    s.start = raiseAtStart .configDesign s ∨ s.start = { s with ostate := .filling } := by
  unfold State.start
  split
  · exact .inl rfl
  · exact .inr rfl

/-- The bits of CONFIG that the mask clears are 0 afterwards (10_state.md R26). -/
theorem configMask_reserved (v : Word) : (v &&& configMask) &&& ~~~configMask = 0 := by
  rw [BitVec.and_assoc, show configMask &&& ~~~configMask = 0 by decide]
  exact BitVec.and_zero

/-! ## The base case -/

theorem stateInv_resetOf {c : Cfg} (h : cfgLegal c = true) : StateInv (State.resetOf c) where
  legal := h
  vCapacity i := by simp
  zCapacity i := by simp
  xhLength t := by rw [State.readXh_resetOf, restHistory_length]; rfl
  yhLength t := by rw [State.readYh_resetOf, restHistory_length]; rfl
  blkCanonical := Memory.wf_nil
  blkKnown _ hj := absurd hj (Nat.not_lt_zero _)
  blkBounded _ hj := nomatch hj
  fillBound := Nat.zero_le _
  fullInProcessing := nofun
  roomInDraining := nofun
  consumedBound := Nat.zero_le _
  outcntBound := Nat.zero_le _
  readcntBound := Nat.zero_le _
  readcntFill _ := Nat.le_refl _
  configReserved := BitVec.zero_and
  forceEmptyRoom := nofun
  causeRecorded := by simp [State.resetOf]
  causeRange := Nat.zero_le _

/-- Settles O8: a legal record's reset state meets every clause, and the hardware's record is legal. -/
theorem invariantHoldsAtReset : Obligations.InvariantHoldsAtReset :=
  ⟨stateInv_resetOf cfgLegal_hardwareCfg, fun _ h => stateInv_resetOf h⟩

namespace StateInv

/-! ## What the invariant says in one orchestrator state -/

section
variable {s t : State}

theorem blockLen_lt (h : StateInv s) : s.cfg.blockLen < 2 ^ 32 := by
  obtain ⟨-, hlt, -⟩ := cfgLegal_sizes h.legal
  exact hlt

/-- FORCE_EMPTY is clear outside FILLING and DONE. -/
theorem forceEmpty_eq_false (h : StateInv s) (hf : s.ostate ≠ .filling) (hd : s.ostate ≠ .done) :
    s.forceEmpty = false := by
  by_contra he
  rcases h.forceEmptyRoom (by simpa using he) with ⟨ho, -⟩ | ho
  · exact hf ho
  · exact hd ho

/-- No cause is recorded outside FAULT. -/
theorem cause_eq_zero (h : StateInv s) (ho : s.ostate ≠ .fault) : s.cause = 0 := by
  by_contra hc
  exact ho (h.causeRecorded.mpr hc)

/-! ## Updates that keep the invariant -/

/-- The invariant does not read the budget, the cursor totals, `upc`, the fault's place, the queues or the turns. -/
theorem of_frame (h : StateInv s)
    (e : t = { s with
      remain := t.remain, total := t.total, blkidx := t.blkidx, upc := t.upc, errBlock := t.errBlock,
      errOffset := t.errOffset, errUpc := t.errUpc, inq := t.inq, eos := t.eos, outq := t.outq, turns := t.turns,
      hostRead := t.hostRead, hostByte := t.hostByte }) : StateInv t := by
  rw [e]
  exact { h with }

theorem complete (h : StateInv s) : StateInv (complete s) := h.of_frame rfl

theorem resetBlock (h : StateInv s) : StateInv s.resetBlock := (stateInv_resetOf h.legal).of_frame rfl

/-- Fault entry keeps the invariant from IDLE (the START check) and from PROCESSING. -/
theorem takeFault (h : StateInv s) (ho : s.ostate = .idle ∨ s.ostate = .processing) (c : Cause) (u : BitVec 32) :
    StateInv (s.takeFault c u) :=
  have ⟨hf, hd, hr⟩ : s.ostate ≠ .filling ∧ s.ostate ≠ .done ∧ s.ostate ≠ .draining := by
    rcases ho with ho | ho <;> simp [ho]
  have he : s.forceEmpty = false := h.forceEmpty_eq_false hf hd
  { h with
    fullInProcessing := nofun
    roomInDraining := nofun
    readcntFill := fun _ => h.readcntFill hr
    forceEmptyRoom := fun hf => by simp [he] at hf
    causeRecorded := iff_of_true rfl c.code_ne_zero
    causeRange := c.code_le }

/-- Leaving FILLING for DONE. -/
theorem toDone (h : StateInv s) (ho : s.ostate = .filling) : StateInv { s with ostate := .done } :=
  { h with
    fullInProcessing := nofun
    roomInDraining := nofun
    readcntFill := fun _ => h.readcntFill (by simp [ho])
    forceEmptyRoom := fun _ => .inr rfl
    causeRecorded := by simp [h.cause_eq_zero (by simp [ho])] }

/-! ## The host's writes -/

theorem start (h : StateInv s) (ho : s.ostate = .idle) : StateInv s.start := by
  rcases start_cases s with e | e <;> rw [e]
  · exact h.takeFault (.inl ho) _ _
  · have he : s.forceEmpty = false := h.forceEmpty_eq_false (by simp [ho]) (by simp [ho])
    exact
      { h with
        fullInProcessing := nofun
        roomInDraining := nofun
        readcntFill := fun _ => h.readcntFill (by simp [ho])
        forceEmptyRoom := fun hf => by simp [he] at hf
        causeRecorded := by simp [h.cause_eq_zero (by simp [ho])] }

theorem writeReg (h : StateInv s) (addr : Nat) (v : Word) : StateInv (s.writeReg addr v) := by
  rcases writeReg_cases s addr v with e | ⟨ho, e⟩ | ⟨-, e⟩ | ⟨-, r, e⟩ <;> rw [e]
  · exact h
  · exact h.start ho
  · exact { h with configReserved := configMask_reserved v }
  · exact h.of_frame rfl

theorem hostStep {a : HostAction} (h : StateInv s) (hs : hostStep a s = .next t) : StateInv t := by
  rcases hostStep_cases hs with ⟨addr, v, rfl⟩ | ⟨-, rfl⟩ | e
  · exact h.writeReg addr v
  · exact h.resetBlock
  · exact h.of_frame (by rw [e])

/-! ## FILLING and DRAINING -/

/-- Entry to PROCESSING with a full block (45_sequencer.md R228). -/
theorem enterProcessing (h : StateInv s) (ho : s.ostate = .filling) (hf : s.fill = s.cfg.blockLen) :
    StateInv s.enterProcessing :=
  have he : ¬ s.forceEmpty = true := fun he => by
    rcases h.forceEmptyRoom he with ⟨-, room⟩ | hd
    · exact absurd hf room.ne
    · simp [ho] at hd
  { h with
    vCapacity := fun i => by simp
    zCapacity := fun i => by simp
    fullInProcessing := fun _ => hf
    roomInDraining := nofun
    consumedBound := Nat.zero_le _
    outcntBound := Nat.zero_le _
    readcntFill := fun _ => h.readcntFill (by simp [ho])
    forceEmptyRoom := fun hfe => absurd hfe he
    causeRecorded := by simp [h.cause_eq_zero (by simp [ho])] }

/-- One byte into a block with room: the new byte is known, and READCNT does not overtake FILL (45_sequencer.md R227). -/
theorem takeInput (h : StateInv s) (ho : s.ostate = .filling) (hf : s.fill ≠ s.cfg.blockLen)
    (he : s.forceEmpty = false) (b : Byte) (rest : List Byte) : StateInv (s.takeInput b rest) :=
  have room : s.fill < s.cfg.blockLen := Nat.lt_of_le_of_ne h.fillBound hf
  have count : (s.readcnt + 1).toNat ≤ s.fill + 1 := by
    have := h.readcntFill (by simp [ho])
    have := h.blockLen_lt
    bv_omega
  { h with
    blkCanonical := Memory.wf_write h.blkCanonical _ _
    blkKnown := fun j hj => by
      rw [State.takeInput_blk, Memory.read_write]
      split
      · rfl
      · exact h.blkKnown j (by rw [State.takeInput_fill] at hj; omega)
    blkBounded := fun j hj => by
      rw [State.takeInput_blk, Memory.read_write] at hj
      split at hj
      · rw [State.takeInput_cfg]; omega
      · exact h.blkBounded j hj
    fillBound := room
    fullInProcessing := fun hp => by simp [ho] at hp
    roomInDraining := fun hd => by simp [ho] at hd
    readcntBound := count.trans room
    readcntFill := fun _ => count
    forceEmptyRoom := fun hfe => by simp [he] at hfe }

/-- The budget step: READCNT is 0 and the buffer has room, whatever FORCE_EMPTY becomes (45_sequencer.md R230). -/
theorem drainingStep (h : StateInv s) (ho : s.ostate = .draining) : StateInv (drainingStep s) := by
  have refill (r : BitVec 64) (e : Bool) :
      StateInv { s with remain := r, forceEmpty := e, readcnt := 0, ostate := .filling } :=
    { h with
      fullInProcessing := nofun
      roomInDraining := nofun
      readcntBound := Nat.zero_le _
      readcntFill := fun _ => Nat.zero_le _
      forceEmptyRoom := fun _ => .inl ⟨rfl, h.roomInDraining ho⟩
      causeRecorded := by simp [h.cause_eq_zero (by simp [ho])] }
  unfold Machine.drainingStep
  split
  · exact refill _ _
  · exact refill s.remain s.forceEmpty

/-! ## The micro-operations -/

theorem writeV (h : StateInv s) (rd : VReg) {xs : List Num64} (hx : xs.length ≤ s.cfg.blockLen) :
    StateInv (s.writeV rd xs) :=
  { h with
    vCapacity := fun i => by
      rw [State.readV_writeV]
      split
      · exact hx
      · exact h.vCapacity i }

theorem writeZ (h : StateInv s) (rd : ZReg) {xs : List (Num64 × Num64)} (hx : xs.length ≤ s.cfg.blockLen) :
    StateInv (s.writeZ rd xs) :=
  { h with
    zCapacity := fun i => by
      rw [State.readZ_writeZ]
      split
      · exact hx
      · exact h.zCapacity i }

theorem writeRun (h : StateInv s) (r : RunState) {xs ys : List Num64} (hx : xs.length = s.histLen)
    (hy : ys.length = s.histLen) : StateInv (s.writeRun r xs ys) :=
  { h with
    xhLength := fun u => by
      rw [State.readXh_writeRun]
      split
      · exact hx
      · exact h.xhLength u
    yhLength := fun u => by
      rw [State.readYh_writeRun]
      split
      · exact hy
      · exact h.yhLength u }

theorem emit (h : StateInv s) (bytes : List Byte) {n : Nat} (hn : n ≤ s.cfg.blockLen) : StateInv (s.emit bytes n) :=
  { h with outcntBound := (BitVec.toNat_ofNat n 32 ▸ Nat.mod_le _ _).trans hn }

theorem report (h : StateInv s) {c : Nat} (hc : c ≤ s.cfg.blockLen) :
    StateInv { s with consumed := BitVec.ofNat 32 c } :=
  { h with consumedBound := (BitVec.toNat_ofNat c 32 ▸ Nat.mod_le _ _).trans hc }

/-- END on a full block: every byte below the new FILL comes from a byte that was known (45_sequencer.md R222). -/
theorem endBlock (h : StateInv s) (ho : s.ostate = .processing) {c : Nat} (hc : c ≠ 0) (hb : c ≤ s.cfg.blockLen) :
    StateInv (s.endBlock c) :=
  have full : s.fill = s.cfg.blockLen := h.fullInProcessing ho
  have room : s.cfg.blockLen - c < s.cfg.blockLen := by omega
  have he : s.forceEmpty = false := h.forceEmpty_eq_false (by simp [ho]) (by simp [ho])
  { h with
    blkCanonical := Memory.wf_slide h.blkCanonical _ _
    blkKnown := fun j hj => by
      rw [State.endBlock_fill] at hj
      rw [State.endBlock_blk, Memory.read_slide _ _ _ _ (Nat.pos_of_ne_zero hc), if_pos hj]
      exact h.blkKnown _ (by omega)
    blkBounded := fun j hj => by
      rw [State.endBlock_blk, Memory.read_slide _ _ _ _ (Nat.pos_of_ne_zero hc)] at hj
      split at hj
      · exact lt_trans (by assumption) room
      · exact h.blkBounded j hj
    fillBound := room.le
    fullInProcessing := nofun
    roomInDraining := fun _ => room
    readcntFill := fun hd => absurd rfl hd
    forceEmptyRoom := fun hf => by simp [he] at hf
    causeRecorded := by simp [h.cause_eq_zero (by simp [ho])] }

/-- Every effect of a micro-operation in PROCESSING keeps the invariant: lengths are bounded by what was read. -/
theorem effect {i : Instr} (h : StateInv s) (ho : s.ostate = .processing) (e : Effect i s t) : StateInv t := by
  cases e with
  | raised c => exact h.takeFault (.inr ho) _ _
  | real rd xs hx =>
    refine (h.writeV rd ?_).complete
    rcases hx with ⟨rs, hx⟩ | ⟨rs, hx⟩ | hx
    · exact hx.trans (h.vCapacity rs)
    · exact hx.trans (h.zCapacity rs)
    · exact hx.le.trans h.fillBound
  | complex rd xs hx =>
    refine (h.writeZ rd ?_).complete
    rcases hx with ⟨rs, hx⟩ | ⟨rs, hx⟩
    · exact hx.trans (h.vCapacity rs)
    · exact hx.trans (h.zCapacity rs)
  | stream rd rs r ys xh yh hy hx hh => exact ((h.writeV rd (hy.le.trans (h.vCapacity rs))).writeRun r hx hh).complete
  | output bytes n rs hn => exact (h.emit bytes (hn.trans (h.vCapacity rs))).complete
  | report c _ hc => exact (h.report hc).complete
  | jump k => exact h.of_frame rfl
  | endBlock hc => exact h.endBlock ho hc h.consumedBound

/-! ## The transitions -/

theorem seqStep (h : StateInv s) (hs : seqStep s = .next t) : StateInv t := by
  cases seqStep_effect hs with
  | enter ho hf => exact h.enterProcessing ho hf
  | forced ho => exact h.toDone ho
  | take b rest ho hf he => exact h.takeInput ho hf he b rest
  | exhausted ho => exact h.toDone ho
  | illegal ho => exact h.takeFault (.inr ho) _ _
  | micro ho i _ _ _ e => exact h.effect ho e
  | drain ho => exact h.drainingStep ho

theorem step (h : StateInv s) (hs : step s = .next t) : StateInv t := by
  rcases step_cases hs with ⟨-, hs⟩ | ⟨rest, -, hs⟩ | ⟨a, rest, -, hs⟩
  · exact h.seqStep hs
  · exact (h.of_frame rfl : StateInv { s with turns := rest }).seqStep hs
  · exact (h.of_frame rfl : StateInv { s with turns := rest }).hostStep hs

end

end StateInv

/-- Settles O7: using up a turn does not touch the invariant, and SEQ's and the host's moves each keep it. -/
theorem everyStepKeepsInvariant : Obligations.EveryStepKeepsInvariant :=
  fun _ _ h hs => h.step hs

end Sys2Proof.Machine
end

section
/-!
PROOFS. Which micro-operation writes what: the parameters that no transition changes (O9), the moves of `upc` (O16), and
the writers of each store (O17).
-/
namespace Sys2Proof.Machine

/-! ## The parameters -/

theorem seqStep_cfg {s t : State} (h : seqStep s = .next t) : t.cfg = s.cfg := by
  cases seqStep_effect h with
  | enter | forced | take | exhausted | illegal => rfl
  | micro _ _ _ _ _ e => cases e <;> rfl
  | drain =>
    unfold drainingStep
    split <;> rfl

theorem writeReg_cfg (s : State) (addr : Nat) (v : Word) : (s.writeReg addr v).cfg = s.cfg := by
  rcases writeReg_cases s addr v with e | ⟨-, e⟩ | ⟨-, e⟩ | ⟨-, r, e⟩ <;> rw [e]
  rcases start_cases s with e | e <;> rw [e]
  exact State.takeFault_cfg _ _ _

theorem hostStep_cfg {a : HostAction} {s t : State} (h : hostStep a s = .next t) : t.cfg = s.cfg := by
  rcases hostStep_cases h with ⟨addr, v, rfl⟩ | ⟨-, rfl⟩ | e
  · exact writeReg_cfg s addr v
  · exact State.resetBlock_cfg s
  · rw [e]

/-- Settles O9: neither agent's move writes the record, and using up a turn does not either. -/
theorem stepNeverChangesParameters : Obligations.StepNeverChangesParameters := by
  intro s t h
  rcases step_cases h with ⟨-, h⟩ | ⟨rest, -, h⟩ | ⟨a, rest, -, h⟩
  · exact seqStep_cfg h
  · exact (seqStep_cfg h :)
  · exact (hostStep_cfg h :)

/-! ## The writers -/

/-- The answers of `exec` by kind of write, each kind but the real registers' with the micro-operations that have it. -/
inductive WrittenBy (i : Instr) (s : State) : State → Prop where
  | raised (c : Cause) : WrittenBy i s (raise c s)
  | real (rd : VReg) (xs : List Num64) (hi : i ≠ .endProg) : WrittenBy i s (complete (s.writeV rd xs))
  | complex (rd : ZReg) (xs : List (Num64 × Num64))
      (hi : (∃ rs, i = .anlt rd rs) ∨ ∃ rs n, i = .chop rd rs n) : WrittenBy i s (complete (s.writeZ rd xs))
  | stream (rd rs : VReg) (r : RunState) (f : Nat) (ys xh yh : List Num64)
      (hi : i = .firS rd rs r f ∨ i = .iirS rd rs r f) :
      WrittenBy i s (complete ((s.writeV rd ys).writeRun r xh yh))
  | output (bytes : List Byte) (n : Nat) (hi : (∃ rs, i = .emit16 rs) ∨ ∃ rs rt, i = .emitf rs rt) :
      WrittenBy i s (complete (s.emit bytes n))
  | report (n : Nat) (c : BitVec 32) (hi : i = .adv n) : WrittenBy i s (complete { s with consumed := c })
  | jump (cbit : Fin 8) (k : BitVec 7) (hk : k = 1 ∨ k = 2) (hi : i = .skipz cbit) :
      WrittenBy i s { s with upc := s.upc + k }
  | endBlock (c : Nat) (hi : i = .endProg) : WrittenBy i s (s.endBlock c)

namespace WrittenBy

section
variable {i : Instr} {s t : State}

/-- A test that may raise before the write. -/
theorem guarded {p : Prop} [Decidable p] {c : Cause} (h : WrittenBy i s t) :
    WrittenBy i s (if p then raise c s else t) := by
  split
  · exact .raised c
  · exact h

end

end WrittenBy

theorem exec_writtenBy (i : Instr) (s : State) : ∃ t, exec i s = .next t ∧ WrittenBy i s t := by
  cases i with
  | endProg => exact ⟨_, rfl, .guarded (.endBlock _ rfl)⟩
  | skipz cbit =>
    refine ⟨_, rfl, ?_⟩
    split
    · exact .jump cbit 1 (.inl rfl) rfl
    · exact .jump cbit 2 (.inr rfl) rfl
  | adv imm => exact ⟨_, rfl, .guarded (.guarded (.report imm _ rfl))⟩
  | ldblk rd => exact ⟨_, rfl, .real rd _ nofun⟩
  | emit16 rs =>
    refine ⟨_, rfl, ?_⟩
    split
    · exact .raised _
    · exact .output _ _ (.inl ⟨rs, rfl⟩)
  | emitf rs rt => exact ⟨_, rfl, .guarded (.output _ _ (.inr ⟨rs, rt, rfl⟩))⟩
  | firB rd rs slot =>
    refine ⟨_, rfl, ?_⟩
    split
    · exact .raised _
    · exact .real rd _ nofun
  | firS rd rs r slot =>
    refine ⟨_, rfl, ?_⟩
    split
    · exact .raised _
    · exact .stream rd rs r slot _ _ _ (.inl rfl)
  | iirB rd rs slot =>
    refine ⟨_, rfl, ?_⟩
    split
    · exact .raised _
    · exact .real rd _ nofun
  | iirS rd rs r slot =>
    refine ⟨_, rfl, ?_⟩
    split
    · exact .raised _
    · exact .stream rd rs r slot _ _ _ (.inr rfl)
  | trimh rd rs imm => exact ⟨_, rfl, .real rd _ nofun⟩
  | trimhk rd rs k slot =>
    refine ⟨_, rfl, ?_⟩
    split
    · exact .raised _
    · exact .real rd _ nofun
  | decim rd rs imm => exact ⟨_, rfl, .guarded (.real rd _ nofun)⟩
  | anlt rd rs => exact ⟨_, rfl, .complex rd _ (.inl ⟨rs, rfl⟩)⟩
  | chop rd rs imm => exact ⟨_, rfl, .complex rd _ (.inr ⟨rs, imm, rfl⟩)⟩
  | angle rd rs => exact ⟨_, rfl, .real rd _ nofun⟩
  | diff rd rs => exact ⟨_, rfl, .real rd _ nofun⟩
  | fix0 rd rs => exact ⟨_, rfl, .real rd _ nofun⟩
  | unwrap rd rs => exact ⟨_, rfl, .real rd _ nofun⟩
  | sclhz rd rs sel => exact ⟨_, rfl, .real rd _ nofun⟩
  | wrapc rd rs sel =>
    refine ⟨_, rfl, ?_⟩
    split
    · exact .raised _
    · exact .real rd _ nofun
  | subcf rd rs sel => exact ⟨_, rfl, .real rd _ nofun⟩
  | clipdev rd rs => exact ⟨_, rfl, .real rd _ nofun⟩
  | iremap rd rs => exact ⟨_, rfl, .real rd _ nofun⟩

/-- Whatever a micro-operation answers is one of the writes. -/
theorem writtenBy_of_exec {i : Instr} {s t : State} (h : exec i s = .next t) : WrittenBy i s t := by
  obtain ⟨u, hu, hw⟩ := exec_writtenBy i s
  rw [h] at hu
  cases hu
  exact hw

theorem keepsRunsBut_writeRun (s : State) (r : RunState) (xs ys : List Num64) :
    KeepsRunsBut r s (s.writeRun r xs ys) :=
  fun j hj => ⟨by rw [State.readXh_writeRun, if_neg hj], by rw [State.readYh_writeRun, if_neg hj]⟩

namespace WrittenBy

section
variable {i : Instr} {s t : State}

/-! ## Where `upc` goes -/

theorem upc_cases (h : WrittenBy i s t) :
    t.upc = s.upc + 1 ∨ (t.upc = s.upc + 2 ∧ ∃ cbit, i = .skipz cbit) ∨
      (t.upc = s.upc ∧ (i = .endProg ∨ t.ostate = .fault)) := by
  cases h with
  | raised c => exact .inr (.inr ⟨rfl, .inr rfl⟩)
  | real | complex | stream | output | report => exact .inl rfl
  | jump cbit k hk hi =>
    rcases hk with rfl | rfl
    · exact .inl rfl
    · exact .inr (.inl ⟨rfl, cbit, hi⟩)
  | endBlock c hi => exact .inr (.inr ⟨rfl, .inl hi⟩)

theorem upc_of_endProg (h : WrittenBy .endProg s t) : t.upc = s.upc := by
  cases h with
  | raised | endBlock => rfl
  | real _ _ hi => exact absurd rfl hi
  | complex _ _ hi => simp at hi
  | stream _ _ _ _ _ _ _ hi => simp at hi
  | output _ _ hi => simp at hi
  | report _ _ hi => cases hi
  | jump _ _ _ hi => cases hi

/-- Only fault entry brings a micro-operation into FAULT, and it leaves `upc` (60_exceptions.md R256). -/
theorem upc_of_fault (h : WrittenBy i s t) (hs : s.ostate ≠ .fault) (ht : t.ostate = .fault) : t.upc = s.upc := by
  cases h with
  | raised | endBlock => rfl
  | real | complex | stream | output | report | jump => exact absurd ht hs

/-! ## Who writes each store -/

theorem keepsHostSide (h : WrittenBy i s t) : KeepsHostSide s t := by
  cases h <;> exact ⟨rfl, rfl, rfl, rfl, rfl, rfl, rfl, rfl, rfl, rfl⟩

theorem block_cases (h : WrittenBy i s t) :
    (KeepsBlock s t ∧ t.total = s.total ∧ t.blkidx = s.blkidx) ∨ i = .endProg := by
  cases h with
  | endBlock c hi => exact .inr hi
  | raised | real | complex | stream | output | report | jump => exact .inl ⟨⟨rfl, fun _ => rfl⟩, rfl, rfl⟩

theorem runs_cases (h : WrittenBy i s t) :
    KeepsRuns s t ∨ (∃ rd rs r f, i = .firS rd rs r f ∧ KeepsRunsBut r s t) ∨
      (∃ rd rs r f, i = .iirS rd rs r f ∧ KeepsRunsBut r s t) := by
  cases h with
  | stream rd rs r f ys xh yh hi =>
    have frame : KeepsRunsBut r s (complete ((s.writeV rd ys).writeRun r xh yh)) :=
      keepsRunsBut_writeRun (s.writeV rd ys) r xh yh
    rcases hi with hi | hi
    · exact .inr (.inl ⟨rd, rs, r, f, hi, frame⟩)
    · exact .inr (.inr ⟨rd, rs, r, f, hi, frame⟩)
  | raised | real | complex | output | report | jump | endBlock => exact .inl fun _ => ⟨rfl, rfl⟩

theorem complex_cases (h : WrittenBy i s t) :
    KeepsZ s t ∨ (∃ rd rs, i = .anlt rd rs ∧ KeepsZBut rd s t) ∨
      (∃ rd rs n, i = .chop rd rs n ∧ KeepsZBut rd s t) := by
  cases h with
  | complex rd xs hi =>
    have frame : KeepsZBut rd s (complete (s.writeZ rd xs)) := fun _ hj => s.readZ_writeZ_ne hj xs
    rcases hi with ⟨rs, hi⟩ | ⟨rs, n, hi⟩
    · exact .inr (.inl ⟨rd, rs, hi, frame⟩)
    · exact .inr (.inr ⟨rd, rs, n, hi, frame⟩)
  | raised | real | stream | output | report | jump | endBlock => exact .inl fun _ => rfl

theorem output_cases (h : WrittenBy i s t) :
    KeepsOutput s t ∨ (∃ rs, i = .emit16 rs) ∨ (∃ rs rt, i = .emitf rs rt) := by
  cases h with
  | output bytes n hi => exact .inr hi
  | raised | real | complex | stream | report | jump | endBlock => exact .inl ⟨rfl, rfl⟩

theorem consumed_cases (h : WrittenBy i s t) : t.consumed = s.consumed ∨ ∃ n, i = .adv n := by
  cases h with
  | report n c hi => exact .inr ⟨n, hi⟩
  | raised | real | complex | stream | output | jump | endBlock => exact .inl rfl

end

end WrittenBy

/-- Settles O16: read off the kinds of write. -/
theorem controlMovesOnlyForward : Obligations.ControlMovesOnlyForward := by
  intro i s t h
  have hw := writtenBy_of_exec h
  refine ⟨hw.upc_cases, ?_, hw.upc_of_fault⟩
  rintro rfl
  exact hw.upc_of_endProg

/-- Settles O17: each store's clause is one lemma about the kinds of write. -/
theorem eachStoreHasOnlyItsWriters : Obligations.EachStoreHasOnlyItsWriters := by
  intro i s t h
  have hw := writtenBy_of_exec h
  exact ⟨hw.keepsHostSide, hw.block_cases, hw.runs_cases, hw.complex_cases, hw.output_cases, hw.consumed_cases⟩

end Sys2Proof.Machine
end

section
/-!
PROOFS. The register space and the reset table: what an aligned write does (O22), what an aligned read gives (O23), and
the values after reset (O25, O26).
-/
namespace Sys2Proof.Machine

/-! ## Accesses -/

theorem accessOk_word {addr : Nat} (h : addr % 4 = 0) : accessOk addr 4 = true := by
  simp [accessOk, h]

theorem hostStep_memWrite {addr : Nat} (h : addr % 4 = 0) (s : State) (v : Word) :
    hostStep (.memWrite addr 4 v) s = .next (s.writeReg addr v) := by
  rw [hostStep, if_pos (accessOk_word h)]

theorem hostStep_memRead {addr : Nat} (h : addr % 4 = 0) (s : State) :
    hostStep (.memRead addr 4) s = .next { s with hostRead := some (s.readReg addr) } := by
  rw [hostStep, if_pos (accessOk_word h)]

/-! ## Writes (10_state.md R26, R27, R41) -/

section
variable {s : State} (v : Word)

theorem writeReg_of_not_idle (ho : s.ostate ≠ .idle) (addr : Nat) : s.writeReg addr v = s := by
  unfold State.writeReg
  exact if_neg ho

theorem writeReg_config (ho : s.ostate = .idle) : s.writeReg 0x04 v = { s with config := v &&& configMask } := by
  rw [State.writeReg, if_pos ho]

theorem writeReg_limitLo (ho : s.ostate = .idle) :
    s.writeReg 0x10 v = { s with remain := s.remain.extractLsb' 32 32 ++ v } := by
  rw [State.writeReg, if_pos ho]

theorem writeReg_limitHi (ho : s.ostate = .idle) :
    s.writeReg 0x14 v = { s with remain := v ++ s.remain.extractLsb' 0 32 } := by
  rw [State.writeReg, if_pos ho]

/-- The registers that take a write are CTRL, CONFIG and the two halves of the limit. -/
theorem writeReg_of_not_writable (s : State) {addr : Nat} (ha : addr ∉ [0x00, 0x04, 0x10, 0x14]) :
    s.writeReg addr v = s := by
  simp only [List.mem_cons, List.not_mem_nil, or_false, not_or] at ha
  obtain ⟨h0, h4, h10, h14⟩ := ha
  unfold State.writeReg
  split
  · split
    · exact absurd rfl h0
    · exact absurd rfl h4
    · exact absurd rfl h10
    · exact absurd rfl h14
    · rfl
  · rfl

end

/-- Settles O22: each clause is the write's equation at that offset; the halves of REMAIN are those of an append. -/
theorem hostWritesFollowTheMap : Obligations.HostWritesFollowTheMap := by
  intro s v
  refine ⟨fun ho => ?_, fun ho => ?_, fun ho => ?_, fun addr h ha => ?_, fun addr h ho => ?_⟩
  · rw [hostStep_memWrite (by decide), writeReg_config v ho]
    rfl
  · rw [hostStep_memWrite (by decide), writeReg_limitLo v ho]
    exact ⟨_, rfl, BitVec.extractLsb'_append_eq_right, BitVec.extractLsb'_append_eq_left, rfl⟩
  · rw [hostStep_memWrite (by decide), writeReg_limitHi v ho]
    exact ⟨_, rfl, BitVec.extractLsb'_append_eq_left, BitVec.extractLsb'_append_eq_right, rfl⟩
  · rw [hostStep_memWrite h, writeReg_of_not_writable v s ha]
  · rw [hostStep_memWrite h, writeReg_of_not_idle v ho]

/-! ## Reads (10_state.md R26 to R28) -/

/-- Two halves of a 64-bit register, high half first. -/
theorem halves_append (r : BitVec 64) : r.extractLsb' 32 32 ++ r.extractLsb' 0 32 = r := by
  rw [BitVec.extractLsb'_append_extractLsb'_eq_extractLsb' (by decide)]
  exact BitVec.extractLsb'_eq_self

/-- A CONFIG whose hard-wired bits are 0 reads as it is stored. -/
theorem config_and_mask {s : State} (h : s.config &&& ~~~configMask = 0) : s.config &&& configMask = s.config := by
  calc s.config &&& configMask
      = (s.config &&& configMask) ||| (s.config &&& ~~~configMask) := by rw [h]; exact BitVec.or_zero.symm
    _ = s.config &&& (configMask ||| ~~~configMask) := BitVec.and_or_distrib_left.symm
    _ = s.config := by rw [show configMask ||| ~~~configMask = BitVec.allOnes 32 by decide, BitVec.and_allOnes]

/-- STATUS: OSTATE's code in bits 2:0, FORCE_EMPTY in bit 3, zero above (10_state.md R28). -/
theorem statusWord_fields (s : State) :
    s.statusWord.extractLsb' 0 3 = s.ostate.code.extractLsb' 0 3 ∧ s.statusWord.getLsbD 3 = s.forceEmpty ∧
    s.statusWord.extractLsb' 4 28 = 0 := by
  unfold State.statusWord
  cases s.ostate <;> cases s.forceEmpty <;> decide

theorem readReg_of_unmapped (s : State) {addr : Nat} (h : 0x40 ≤ addr) : s.readReg addr = 0 := by
  rw [State.readReg] <;> omega

/-- Settles O23: the map read offset by offset; StateInv is needed for CONFIG's hard-wired bits only. -/
theorem hostReadsFollowTheMap : Obligations.HostReadsFollowTheMap := by
  intro s h
  obtain ⟨hstate, hforce, hzero⟩ := statusWord_fields s
  refine ⟨fun addr ha => hostStep_memRead ha s, rfl, config_and_mask h.configReserved, hstate.trans ?_, hforce, hzero,
    rfl, halves_append _, halves_append _, halves_append _, halves_append _, halves_append _, rfl, rfl,
    fun addr ha => readReg_of_unmapped s ha⟩
  cases s.ostate <;> rfl

/-! ## Reset (10_state.md R39) -/

theorem resetValues_resetOf (c : Cfg) : ResetValues (State.resetOf c) :=
  ⟨rfl, rfl, rfl, rfl, rfl, rfl, rfl, rfl, rfl, rfl, rfl, rfl, rfl, rfl, rfl, State.readV_resetOf c,
    State.readZ_resetOf c, State.readXh_resetOf c, State.readYh_resetOf c, rfl, rfl, rfl⟩

/-- The reset action's state has the values of the reset state for the same parameters. -/
theorem resetValues_resetBlock (s : State) : ResetValues s.resetBlock :=
  resetValues_resetOf s.cfg

/-- Settles O25: the table for the hardware's record, whose UPROG is the normative one. -/
theorem resetGivesTheTableValues : Obligations.ResetGivesTheTableValues :=
  ⟨resetValues_resetOf hardwareCfg, rfl⟩

/-- Settles O26: the reset action from any state. -/
theorem resetActionGivesTheTableValues : Obligations.ResetActionGivesTheTableValues := fun s =>
  ⟨s.resetBlock, rfl, resetValues_resetBlock s, State.resetBlock_cfg s, State.resetBlock_turns s,
    State.resetBlock_hostRead s, State.resetBlock_hostByte s⟩

end Sys2Proof.Machine
end

section
/-!
PROOFS. The queues under a step of SEQ (O12): who moves INQ and the end mark, and that output grows by whole samples.
-/
namespace Sys2Proof.Machine

/-! ## Bytes of a sample (20_memory.md R63, R67) -/

@[simp] theorem codeBytes_length (u : Nat) : (codeBytes u).length = 2 := rfl

@[simp] theorem frameBytes_length (p : Num64 × Num64) : (frameBytes p).length = 8 := rfl

/-- A list of samples, each written as a multiple of `k` bytes, is written as a multiple of `k` bytes. -/
theorem dvd_length_flatMap {α : Type} {k : Nat} {f : α → List Byte} (xs : List α) (hf : ∀ x, k ∣ (f x).length) :
    k ∣ (xs.flatMap f).length := by
  rw [List.length_flatMap]
  exact List.dvd_sum (List.forall_mem_map.mpr fun x _ => hf x)

/-! ## Output -/

/-- OUTQ keeps what it held and grows at its end by a list of 16-bit units. -/
def AppendsWholeUnits (s t : State) : Prop := ∃ bytes, t.outq = s.outq ++ bytes ∧ bytes.length % 2 = 0

section
variable {s t : State}

theorem AppendsWholeUnits.of_outq_eq (h : t.outq = s.outq) : AppendsWholeUnits s t :=
  ⟨[], by rw [h, List.append_nil], rfl⟩

theorem AppendsWholeUnits.emit {bytes : List Byte} (n : Nat) (h : 2 ∣ bytes.length) :
    AppendsWholeUnits s (complete (s.emit bytes n)) :=
  ⟨bytes, rfl, Nat.mod_eq_zero_of_dvd h⟩

theorem execEmit16_appendsWholeUnits {rs : VReg} (h : execEmit16 rs s = .next t) : AppendsWholeUnits s t := by
  cases h
  split
  · exact .of_outq_eq rfl
  · exact .emit _ (dvd_length_flatMap _ fun u => (codeBytes_length u).symm.dvd)

theorem execEmitf_appendsWholeUnits {rs rt : VReg} (h : execEmitf rs rt s = .next t) : AppendsWholeUnits s t := by
  cases h
  split
  · exact .of_outq_eq rfl
  · exact .emit _ (dvd_length_flatMap _ fun p => ⟨4, frameBytes_length p⟩)

/-- The emits are the only writers of OUTQ (O17), so every micro-operation appends whole units. -/
theorem exec_appendsWholeUnits {i : Instr} (h : exec i s = .next t) : AppendsWholeUnits s t := by
  rcases (writtenBy_of_exec h).output_cases with ⟨kept, -⟩ | ⟨rs, rfl⟩ | ⟨rs, rt, rfl⟩
  · exact .of_outq_eq kept
  · exact execEmit16_appendsWholeUnits h
  · exact execEmitf_appendsWholeUnits h

/-! ## The step of SEQ, queue by queue -/

theorem drainingStep_queues (s : State) :
    (drainingStep s).eos = s.eos ∧ (drainingStep s).inq = s.inq ∧ (drainingStep s).outq = s.outq := by
  unfold drainingStep
  split <;> exact ⟨rfl, rfl, rfl⟩

/-- SEQ never sets or clears the end mark: the host does (20_memory.md R62). -/
theorem seqStep_eos (h : seqStep s = .next t) : t.eos = s.eos := by
  cases seqStep_effect h with
  | enter | forced | take | exhausted | illegal => rfl
  | micro _ _ _ _ hx =>
    obtain ⟨-, -, -, -, -, -, heos, -⟩ := (writtenBy_of_exec hx).keepsHostSide
    exact heos
  | drain =>
    obtain ⟨heos, -, -⟩ := drainingStep_queues s
    exact heos

/-- Only case 3 of FILLING takes input (45_sequencer.md R227). -/
theorem seqStep_inq (h : seqStep s = .next t) :
    t.inq = s.inq ∨ (s.ostate = .filling ∧ ∃ b, s.inq = b :: t.inq) := by
  cases seqStep_effect h with
  | take b rest ho _ _ hi => exact .inr ⟨ho, b, hi⟩
  | enter | forced | exhausted | illegal => exact .inl rfl
  | micro _ _ _ _ hx =>
    obtain ⟨-, -, -, -, -, hinq, -⟩ := (writtenBy_of_exec hx).keepsHostSide
    exact .inl hinq
  | drain =>
    obtain ⟨-, hinq, -⟩ := drainingStep_queues s
    exact .inl hinq

/-- Only a micro-operation produces output (20_memory.md R63). -/
theorem seqStep_outq (h : seqStep s = .next t) :
    t.outq = s.outq ∨ (s.ostate = .processing ∧ AppendsWholeUnits s t) := by
  cases seqStep_effect h with
  | micro ho _ _ _ hx => exact .inr ⟨ho, exec_appendsWholeUnits hx⟩
  | enter | forced | take | exhausted | illegal => exact .inl rfl
  | drain =>
    obtain ⟨-, -, houtq⟩ := drainingStep_queues s
    exact .inl houtq

end

/-- Settles O12: one lemma for each queue and one for the end mark. -/
theorem queuesMoveOnlyAsTheRulesSay : Obligations.QueuesMoveOnlyAsTheRulesSay := by
  intro s t h
  refine ⟨seqStep_eos h, seqStep_inq h, ?_⟩
  rcases seqStep_outq h with kept | ⟨ho, bytes, happend, heven⟩
  · exact ⟨[], by rw [kept, List.append_nil], rfl, fun hne => absurd rfl hne⟩
  · exact ⟨bytes, happend, heven, fun _ => ho⟩

end Sys2Proof.Machine
end

section
/-!
PROOFS. A word read as its five fields (30_encoding.md R91), the words that each format of the decoder accepts (R92),
and from these the fields of whatever a word decodes to.
-/
namespace Sys2Proof

/-! ## Fields (R91) -/

section
variable (w : Word)

theorem fieldOf_lt (lo n : Nat) : fieldOf w lo n < 2 ^ n := Nat.mod_lt _ (Nat.two_pow_pos n)

theorem kField_eq_div : kField w = immField w / 32 := by
  unfold kField immField fieldOf
  omega

theorem slotField_eq_mod : slotField w = immField w % 32 := by
  unfold slotField immField fieldOf
  omega

/-- The multiplier and the slot field are the parts of `imm`. -/
theorem immField_eq : immField w = kField w * 2 ^ 5 + slotField w := by
  rw [kField_eq_div, slotField_eq_mod]
  omega

/-- The slot field is all of `imm` when the bits above it are zero. -/
theorem kField_slotField_iff {slot : Nat} :
    kField w = 0 ∧ slotField w = slot ↔ slot < 32 ∧ immField w = slot := by
  rw [kField_eq_div, slotField_eq_mod]
  omega

/-- The bits of the format of SKIPZ that must be zero. -/
theorem fieldOf_three_nine_eq_div : fieldOf w 3 9 = immField w / 8 := by
  unfold immField fieldOf
  omega

/-- The bit number of SKIPZ. -/
theorem fieldOf_zero_three_eq_mod : fieldOf w 0 3 = immField w % 8 := by
  unfold immField fieldOf
  omega

theorem fieldOf_and (m : Word) (lo n : Nat) : fieldOf (w &&& m) lo n = fieldOf w lo n &&& fieldOf m lo n := by
  simp only [fieldOf, BitVec.toNat_and, Nat.and_div_two_pow, Nat.and_mod_two_pow]

end

/-- The numbers in the five fields of a word. -/
@[ext]
structure Fields where
  op : Nat
  rd : Nat
  rs : Nat
  rt : Nat
  imm : Nat

namespace Fields

def ofWord (w : Word) : Fields := ⟨opField w, rdField w, rsField w, rtField w, immField w⟩

def word (f : Fields) : Word := wordOf f.op f.rd f.rs f.rt f.imm

/-- Every number fits its field. -/
def Fits (f : Fields) : Prop := f.op < 256 ∧ f.rd < 16 ∧ f.rs < 16 ∧ f.rt < 16 ∧ f.imm < 4096

theorem ofWord_fits (w : Word) : (ofWord w).Fits :=
  ⟨fieldOf_lt w 24 8, fieldOf_lt w 20 4, fieldOf_lt w 16 4, fieldOf_lt w 12 4, fieldOf_lt w 0 12⟩

theorem word_ofWord (w : Word) : (ofWord w).word = w := by
  apply BitVec.eq_of_toNat_eq
  simp only [word, ofWord, wordOf, opField, rdField, rsField, rtField, immField, fieldOf, BitVec.toNat_ofNat]
  omega

theorem ofWord_word {f : Fields} (h : f.Fits) : ofWord f.word = f := by
  obtain ⟨hop, hrd, hrs, hrt, himm⟩ := h
  ext <;>
    simp only [word, ofWord, wordOf, opField, rdField, rsField, rtField, immField, fieldOf, BitVec.toNat_ofNat] <;>
    omega

/-- The bitwise AND, field by field. -/
def land (f g : Fields) : Fields :=
  ⟨f.op &&& g.op, f.rd &&& g.rd, f.rs &&& g.rs, f.rt &&& g.rt, f.imm &&& g.imm⟩

theorem ofWord_and (w m : Word) : ofWord (w &&& m) = (ofWord w).land (ofWord m) := by
  simp only [ofWord, land, opField, rdField, rsField, rtField, immField, fieldOf_and]

/-- Fields that fit spell one word, and a word has one reading. -/
theorem word_eq_iff {f : Fields} (h : f.Fits) {w : Word} : f.word = w ↔ ofWord w = f :=
  ⟨fun hw => by rw [← hw, ofWord_word h], fun hf => by rw [← hf, word_ofWord]⟩

end Fields

/-! ## The decoder's readers: when each accepts its field, and with what -/

theorem bind_eq_ok {α β : Type} {x : Except IllegalWord α} {k : α → Except IllegalWord β} {b : β} :
    x >>= k = .ok b ↔ ∃ a, x = .ok a ∧ k a = .ok b := by
  cases x <;> simp [bind, Except.bind]

theorem pure_eq_ok {α : Type} {a b : α} : (pure a : Except IllegalWord α) = .ok b ↔ a = b :=
  ⟨Except.ok.inj, congrArg Except.ok⟩

section
variable {n : Nat}

theorem mustBeZero_eq_ok {u : Unit} : mustBeZero n = .ok u ↔ n = 0 := by
  by_cases hn : n = 0 <;> simp [mustBeZero, hn]

theorem asVReg_eq_ok {r : VReg} : asVReg n = .ok r ↔ n = r.val := by
  by_cases hn : n < 8
  · simp [asVReg, hn, Fin.ext_iff]
  · simp only [asVReg, hn, dif_neg, not_false_eq_true, reduceCtorEq, false_iff]
    omega

theorem asZReg_eq_ok {r : ZReg} : asZReg n = .ok r ↔ n = r.val := by
  by_cases hn : n < 2
  · simp [asZReg, hn, Fin.ext_iff]
  · simp only [asZReg, hn, dif_neg, not_false_eq_true, reduceCtorEq, false_iff]
    omega

theorem asScale_eq_ok {sel : Scale} : asScale n = .ok sel ↔ n = sel.bit := by
  rcases n with _ | _ | n <;> cases sel <;> simp [asScale, Scale.bit]

theorem asChannel_eq_ok {sel : Channel} : asChannel n = .ok sel ↔ n = sel.bit := by
  rcases n with _ | _ | n <;> cases sel <;> simp [asChannel, Channel.bit]

/-- Every value of the field is a run-state (R93). -/
theorem asRunState_rtField_val (w : Word) : (asRunState (rtField w)).val = rtField w :=
  Nat.mod_eq_of_lt (fieldOf_lt w 12 4)

@[simp] theorem asRunState_val (r : RunState) : asRunState r.val = r := Fin.ofNat_val_eq_self r

end

/-! ## The formats that several rows share (R92): the words each accepts, and with what operands -/

section
variable {w : Word} {i : Instr} {op : Nat}

theorem decodeR_eq_ok (hop : opField w = op) {mk : VReg → VReg → Instr} :
    decodeR w mk = .ok i ↔ ∃ rd rs : VReg, Fields.ofWord w = ⟨op, rd, rs, 0, 0⟩ ∧ mk rd rs = i := by
  simp only [decodeR, bind_eq_ok, asVReg_eq_ok, mustBeZero_eq_ok, pure_eq_ok, exists_const, Fields.ofWord, hop,
    Fields.mk.injEq, true_and, exists_and_left, and_assoc]

theorem decodeRI_eq_ok (hop : opField w = op) {mk : VReg → VReg → Nat → Instr} :
    decodeRI w mk = .ok i ↔
      ∃ rd rs : VReg, ∃ imm < 4096, Fields.ofWord w = ⟨op, rd, rs, 0, imm⟩ ∧ mk rd rs imm = i := by
  simp only [decodeRI, bind_eq_ok, asVReg_eq_ok, mustBeZero_eq_ok, pure_eq_ok, exists_const, Fields.ofWord, hop,
    Fields.mk.injEq, true_and]
  constructor
  · rintro ⟨rd, hrd, rs, hrs, hrt, hi⟩
    exact ⟨rd, rs, _, fieldOf_lt w 0 12, ⟨hrd, hrs, hrt, rfl⟩, hi⟩
  · rintro ⟨rd, rs, _, -, ⟨hrd, hrs, hrt, rfl⟩, hi⟩
    exact ⟨rd, hrd, rs, hrs, hrt, hi⟩

theorem decodeRScale_eq_ok (hop : opField w = op) {mk : VReg → VReg → Scale → Instr} :
    decodeRScale w mk = .ok i ↔
      ∃ rd rs : VReg, ∃ sel : Scale, Fields.ofWord w = ⟨op, rd, rs, 0, sel.bit⟩ ∧ mk rd rs sel = i := by
  simp only [decodeRScale, bind_eq_ok, asVReg_eq_ok, mustBeZero_eq_ok, asScale_eq_ok, pure_eq_ok, exists_const,
    Fields.ofWord, hop, Fields.mk.injEq, true_and, exists_and_left, and_assoc]

theorem decodeRF_eq_ok (hop : opField w = op) {mk : VReg → VReg → Nat → Instr} :
    decodeRF w mk = .ok i ↔
      ∃ rd rs : VReg, ∃ slot < 32, Fields.ofWord w = ⟨op, rd, rs, 0, slot⟩ ∧ mk rd rs slot = i := by
  simp only [decodeRF, bind_eq_ok, asVReg_eq_ok, mustBeZero_eq_ok, pure_eq_ok, exists_const, Fields.ofWord, hop,
    Fields.mk.injEq, true_and]
  constructor
  · rintro ⟨rd, hrd, rs, hrs, hrt, hk, hi⟩
    obtain ⟨hslot, himm⟩ := (kField_slotField_iff w).1 ⟨hk, rfl⟩
    exact ⟨rd, rs, _, hslot, ⟨hrd, hrs, hrt, himm⟩, hi⟩
  · rintro ⟨rd, rs, slot, hslot, ⟨hrd, hrs, hrt, himm⟩, hi⟩
    obtain ⟨hk, rfl⟩ := (kField_slotField_iff w).2 ⟨hslot, himm⟩
    exact ⟨rd, hrd, rs, hrs, hrt, hk, hi⟩

theorem decodeRFT_eq_ok (hop : opField w = op) {mk : VReg → VReg → RunState → Nat → Instr} :
    decodeRFT w mk = .ok i ↔ ∃ rd rs : VReg, ∃ t : RunState, ∃ slot < 32,
      Fields.ofWord w = ⟨op, rd, rs, t, slot⟩ ∧ mk rd rs t slot = i := by
  simp only [decodeRFT, bind_eq_ok, asVReg_eq_ok, mustBeZero_eq_ok, pure_eq_ok, exists_const, Fields.ofWord, hop,
    Fields.mk.injEq, true_and]
  constructor
  · rintro ⟨rd, hrd, rs, hrs, hk, hi⟩
    obtain ⟨hslot, himm⟩ := (kField_slotField_iff w).1 ⟨hk, rfl⟩
    exact ⟨rd, rs, asRunState (rtField w), _, hslot, ⟨hrd, hrs, (asRunState_rtField_val w).symm, himm⟩, hi⟩
  · rintro ⟨rd, rs, t, slot, hslot, ⟨hrd, hrs, hrt, himm⟩, hi⟩
    obtain ⟨hk, rfl⟩ := (kField_slotField_iff w).2 ⟨hslot, himm⟩
    exact ⟨rd, hrd, rs, hrs, hk, by rw [hrt, asRunState_val]; exact hi⟩

end

/-! ## The fields of an instruction -/

/-- The numbers the encoder writes (R92). -/
def Instr.fields (i : Instr) : Fields :=
  match i with
  | .endProg => ⟨i.op, 0, 0, 0, 0⟩
  | .skipz cbit => ⟨i.op, 0, 0, 0, cbit⟩
  | .adv imm => ⟨i.op, 0, 0, 0, imm⟩
  | .ldblk rd => ⟨i.op, rd, 0, 0, 0⟩
  | .emit16 rs => ⟨i.op, 0, rs, 0, 0⟩
  | .emitf rs rt => ⟨i.op, 0, rs, rt, 0⟩
  | .firB rd rs slot | .iirB rd rs slot => ⟨i.op, rd, rs, 0, slot⟩
  | .firS rd rs t slot | .iirS rd rs t slot => ⟨i.op, rd, rs, t, slot⟩
  | .trimhk rd rs k slot => ⟨i.op, rd, rs, 0, k * 2 ^ 5 + slot⟩
  | .trimh rd rs imm | .decim rd rs imm => ⟨i.op, rd, rs, 0, imm⟩
  | .chop rd rs imm => ⟨i.op, rd, rs, 0, imm⟩
  | .anlt rd rs => ⟨i.op, rd, rs, 0, 0⟩
  | .angle rd rs => ⟨i.op, rd, rs, 0, 0⟩
  | .diff rd rs | .fix0 rd rs | .unwrap rd rs | .clipdev rd rs | .iremap rd rs => ⟨i.op, rd, rs, 0, 0⟩
  | .sclhz rd rs sel | .wrapc rd rs sel => ⟨i.op, rd, rs, 0, sel.bit⟩
  | .subcf rd rs sel => ⟨i.op, rd, rs, 0, sel.bit⟩

theorem encode_eq_word (i : Instr) : encode i = i.fields.word := by cases i <;> rfl

theorem Instr.fields_op (i : Instr) : i.fields.op = i.op := by cases i <;> rfl

section
variable {w : Word} {i : Instr}

/-- A word that decodes spells the operands of what it decodes to, and zero where the format has no operand. -/
theorem fields_of_decode (h : decode w = .ok i) : i.wellFormed = true ∧ Fields.ofWord w = i.fields := by
  unfold decode at h
  split at h
  next hop => -- END
    simp only [bind_eq_ok, mustBeZero_eq_ok, pure_eq_ok, exists_const] at h
    obtain ⟨hrd, hrs, hrt, himm, rfl⟩ := h
    exact ⟨rfl, Fields.ext hop hrd hrs hrt himm⟩
  next hop => -- SKIPZ
    simp only [bind_eq_ok, mustBeZero_eq_ok, pure_eq_ok, exists_const, fieldOf_three_nine_eq_div,
      fieldOf_zero_three_eq_mod] at h
    obtain ⟨hrd, hrs, hrt, hhigh, rfl⟩ := h
    have himm : immField w = immField w % 8 % 8 := by omega
    exact ⟨rfl, Fields.ext hop hrd hrs hrt himm⟩
  next hop => -- ADV
    simp only [bind_eq_ok, mustBeZero_eq_ok, pure_eq_ok, exists_const] at h
    obtain ⟨hrd, hrs, hrt, rfl⟩ := h
    exact ⟨decide_eq_true (fieldOf_lt w 0 12), Fields.ext hop hrd hrs hrt rfl⟩
  next hop => -- LDBLK
    simp only [bind_eq_ok, asVReg_eq_ok, mustBeZero_eq_ok, pure_eq_ok, exists_const] at h
    obtain ⟨rd, hrd, hrs, hrt, himm, rfl⟩ := h
    exact ⟨rfl, Fields.ext hop hrd hrs hrt himm⟩
  next hop => -- EMIT16
    simp only [bind_eq_ok, asVReg_eq_ok, mustBeZero_eq_ok, pure_eq_ok, exists_const] at h
    obtain ⟨hrd, rs, hrs, hrt, himm, rfl⟩ := h
    exact ⟨rfl, Fields.ext hop hrd hrs hrt himm⟩
  next hop => -- EMITF
    simp only [bind_eq_ok, asVReg_eq_ok, mustBeZero_eq_ok, pure_eq_ok, exists_const] at h
    obtain ⟨hrd, rs, hrs, rt, hrt, himm, rfl⟩ := h
    exact ⟨rfl, Fields.ext hop hrd hrs hrt himm⟩
  next hop => -- FIR.B
    obtain ⟨rd, rs, slot, hslot, hf, rfl⟩ := (decodeRF_eq_ok hop).1 h
    exact ⟨decide_eq_true hslot, hf⟩
  next hop => -- FIR.S
    obtain ⟨rd, rs, t, slot, hslot, hf, rfl⟩ := (decodeRFT_eq_ok hop).1 h
    exact ⟨decide_eq_true hslot, hf⟩
  next hop => -- IIR.B
    obtain ⟨rd, rs, slot, hslot, hf, rfl⟩ := (decodeRF_eq_ok hop).1 h
    exact ⟨decide_eq_true hslot, hf⟩
  next hop => -- IIR.S
    obtain ⟨rd, rs, t, slot, hslot, hf, rfl⟩ := (decodeRFT_eq_ok hop).1 h
    exact ⟨decide_eq_true hslot, hf⟩
  next hop => -- TRIMH
    obtain ⟨rd, rs, imm, himm, hf, rfl⟩ := (decodeRI_eq_ok hop).1 h
    exact ⟨decide_eq_true himm, hf⟩
  next hop => -- TRIMHK
    simp only [bind_eq_ok, asVReg_eq_ok, mustBeZero_eq_ok, pure_eq_ok, exists_const] at h
    obtain ⟨rd, hrd, rs, hrs, hrt, rfl⟩ := h
    exact ⟨Bool.and_eq_true_iff.2 ⟨decide_eq_true (fieldOf_lt w 5 7), decide_eq_true (fieldOf_lt w 0 5)⟩,
      Fields.ext hop hrd hrs hrt (immField_eq w)⟩
  next hop => -- DECIM
    obtain ⟨rd, rs, imm, himm, hf, rfl⟩ := (decodeRI_eq_ok hop).1 h
    exact ⟨decide_eq_true himm, hf⟩
  next hop => -- ANLT
    simp only [bind_eq_ok, asVReg_eq_ok, asZReg_eq_ok, mustBeZero_eq_ok, pure_eq_ok, exists_const] at h
    obtain ⟨rd, hrd, rs, hrs, hrt, himm, rfl⟩ := h
    exact ⟨rfl, Fields.ext hop hrd hrs hrt himm⟩
  next hop => -- CHOP
    simp only [bind_eq_ok, asZReg_eq_ok, mustBeZero_eq_ok, pure_eq_ok, exists_const] at h
    obtain ⟨rd, hrd, rs, hrs, hrt, rfl⟩ := h
    exact ⟨decide_eq_true (fieldOf_lt w 0 12), Fields.ext hop hrd hrs hrt rfl⟩
  next hop => -- ANGLE
    simp only [bind_eq_ok, asVReg_eq_ok, asZReg_eq_ok, mustBeZero_eq_ok, pure_eq_ok, exists_const] at h
    obtain ⟨rd, hrd, rs, hrs, hrt, himm, rfl⟩ := h
    exact ⟨rfl, Fields.ext hop hrd hrs hrt himm⟩
  next hop => -- DIFF
    obtain ⟨rd, rs, hf, rfl⟩ := (decodeR_eq_ok hop).1 h
    exact ⟨rfl, hf⟩
  next hop => -- FIX0
    obtain ⟨rd, rs, hf, rfl⟩ := (decodeR_eq_ok hop).1 h
    exact ⟨rfl, hf⟩
  next hop => -- UNWRAP
    obtain ⟨rd, rs, hf, rfl⟩ := (decodeR_eq_ok hop).1 h
    exact ⟨rfl, hf⟩
  next hop => -- SCLHZ
    obtain ⟨rd, rs, sel, hf, rfl⟩ := (decodeRScale_eq_ok hop).1 h
    exact ⟨rfl, hf⟩
  next hop => -- WRAPC
    obtain ⟨rd, rs, sel, hf, rfl⟩ := (decodeRScale_eq_ok hop).1 h
    exact ⟨rfl, hf⟩
  next hop => -- SUBCF
    simp only [bind_eq_ok, asVReg_eq_ok, asChannel_eq_ok, mustBeZero_eq_ok, pure_eq_ok, exists_const] at h
    obtain ⟨rd, hrd, rs, hrs, hrt, sel, himm, rfl⟩ := h
    exact ⟨rfl, Fields.ext hop hrd hrs hrt himm⟩
  next hop => -- CLIPDEV
    obtain ⟨rd, rs, hf, rfl⟩ := (decodeR_eq_ok hop).1 h
    exact ⟨rfl, hf⟩
  next hop => -- IREMAP
    obtain ⟨rd, rs, hf, rfl⟩ := (decodeR_eq_ok hop).1 h
    exact ⟨rfl, hf⟩
  next => cases h

/-- The fields of a well-formed instruction decode to it. -/
theorem decode_of_fields (hi : i.wellFormed = true) (h : Fields.ofWord w = i.fields) : decode w = .ok i := by
  have hop : opField w = i.op := (congrArg Fields.op h).trans i.fields_op
  unfold decode
  rw [hop]
  cases i with
  | firB rd rs slot | iirB rd rs slot =>
    exact (decodeRF_eq_ok hop).2 ⟨rd, rs, slot, of_decide_eq_true hi, h, rfl⟩
  | firS rd rs t slot | iirS rd rs t slot =>
    exact (decodeRFT_eq_ok hop).2 ⟨rd, rs, t, slot, of_decide_eq_true hi, h, rfl⟩
  | trimh rd rs imm | decim rd rs imm =>
    exact (decodeRI_eq_ok hop).2 ⟨rd, rs, imm, of_decide_eq_true hi, h, rfl⟩
  | diff rd rs | fix0 rd rs | unwrap rd rs | clipdev rd rs | iremap rd rs =>
    exact (decodeR_eq_ok hop).2 ⟨rd, rs, h, rfl⟩
  | sclhz rd rs sel | wrapc rd rs sel =>
    exact (decodeRScale_eq_ok hop).2 ⟨rd, rs, sel, h, rfl⟩
  | endProg =>
    obtain ⟨-, hrd, hrs, hrt, himm⟩ := Fields.mk.inj h
    simp only [Instr.op, bind_eq_ok, mustBeZero_eq_ok, pure_eq_ok, exists_const]
    exact ⟨hrd, hrs, hrt, himm, trivial⟩
  | skipz cbit =>
    obtain ⟨-, hrd, hrs, hrt, himm⟩ := Fields.mk.inj h
    simp only [Instr.op, bind_eq_ok, mustBeZero_eq_ok, pure_eq_ok, exists_const, fieldOf_three_nine_eq_div,
      fieldOf_zero_three_eq_mod, Instr.skipz.injEq, Fin.ext_iff, Fin.val_ofNat]
    omega
  | adv imm =>
    obtain ⟨-, hrd, hrs, hrt, rfl⟩ := Fields.mk.inj h
    simp only [Instr.op, bind_eq_ok, mustBeZero_eq_ok, pure_eq_ok, exists_const]
    exact ⟨hrd, hrs, hrt, trivial⟩
  | ldblk rd =>
    obtain ⟨-, hrd, hrs, hrt, himm⟩ := Fields.mk.inj h
    simp only [Instr.op, bind_eq_ok, asVReg_eq_ok, mustBeZero_eq_ok, pure_eq_ok, exists_const]
    exact ⟨rd, hrd, hrs, hrt, himm, rfl⟩
  | emit16 rs =>
    obtain ⟨-, hrd, hrs, hrt, himm⟩ := Fields.mk.inj h
    simp only [Instr.op, bind_eq_ok, asVReg_eq_ok, mustBeZero_eq_ok, pure_eq_ok, exists_const]
    exact ⟨hrd, rs, hrs, hrt, himm, rfl⟩
  | emitf rs rt =>
    obtain ⟨-, hrd, hrs, hrt, himm⟩ := Fields.mk.inj h
    simp only [Instr.op, bind_eq_ok, asVReg_eq_ok, mustBeZero_eq_ok, pure_eq_ok, exists_const]
    exact ⟨hrd, rs, hrs, rt, hrt, himm, rfl⟩
  | trimhk rd rs k slot =>
    obtain ⟨-, hrd, hrs, hrt, himm⟩ := Fields.mk.inj h
    have hsizes : k < 128 ∧ slot < 32 := by simpa [Instr.wellFormed, kFits, slotFits] using hi
    simp only [Instr.op, bind_eq_ok, asVReg_eq_ok, mustBeZero_eq_ok, pure_eq_ok, exists_const]
    refine ⟨rd, hrd, rs, hrs, hrt, ?_⟩
    have hk : kField w = k := by rw [kField_eq_div]; omega
    have hslot : slotField w = slot := by rw [slotField_eq_mod]; omega
    rw [hk, hslot]
  | anlt rd rs | angle rd rs =>
    obtain ⟨-, hrd, hrs, hrt, himm⟩ := Fields.mk.inj h
    simp only [Instr.op, bind_eq_ok, asVReg_eq_ok, asZReg_eq_ok, mustBeZero_eq_ok, pure_eq_ok, exists_const]
    exact ⟨rd, hrd, rs, hrs, hrt, himm, rfl⟩
  | chop rd rs imm =>
    obtain ⟨-, hrd, hrs, hrt, rfl⟩ := Fields.mk.inj h
    simp only [Instr.op, bind_eq_ok, asZReg_eq_ok, mustBeZero_eq_ok, pure_eq_ok, exists_const]
    exact ⟨rd, hrd, rs, hrs, hrt, rfl⟩
  | subcf rd rs sel =>
    obtain ⟨-, hrd, hrs, hrt, himm⟩ := Fields.mk.inj h
    simp only [Instr.op, bind_eq_ok, asVReg_eq_ok, asChannel_eq_ok, mustBeZero_eq_ok, pure_eq_ok, exists_const]
    exact ⟨rd, hrd, rs, hrs, hrt, sel, himm, rfl⟩

end

end Sys2Proof
end

section
/-!
PROOFS. The opcode table as one layout of fields for each row (30_encoding.md R96); decoder and encoder agree (O1, O2),
and both agree with the table (O3, O4).
-/
namespace Sys2Proof

/-! ## Layouts: a row as an operation code and the operand bits of each field (R92, R96) -/

/-- The bits of an `m`-bit number from bit `k` up are zero exactly when the number is below `2 ^ k`. -/
theorem and_highBits_eq_zero_iff {n m k : Nat} (hn : n < 2 ^ m) (hk : k ≤ m) :
    n &&& (2 ^ m - 2 ^ k) = 0 ↔ n < 2 ^ k := by
  have hbit (j : Nat) : (2 ^ m - 2 ^ k).testBit j = (decide (j < m) && !decide (j < k)) := by
    have hsub : 2 ^ k - 1 < 2 ^ m := (Nat.sub_lt (Nat.two_pow_pos k) one_pos).trans_le (Nat.pow_le_pow_right two_pos hk)
    rw [← Nat.testBit_two_pow_sub_one k j, ← Nat.testBit_two_pow_sub_succ hsub, Nat.sub_add_cancel (Nat.two_pow_pos k)]
  constructor
  · intro h
    refine Nat.lt_pow_two_of_testBit n fun j hj => ?_
    have hzero := congrArg (Nat.testBit · j) h
    by_cases hm : j < m
    · simpa [hbit, hm, Nat.not_lt.2 hj] using hzero
    · exact Nat.testBit_lt_two_pow (hn.trans_le (Nat.pow_le_pow_right two_pos (Nat.not_lt.1 hm)))
  · intro h
    refine Nat.eq_of_testBit_eq fun j => ?_
    by_cases hj : j < k
    · simp [hbit, hj]
    · simp [Nat.testBit_lt_two_pow (h.trans_le (Nat.pow_le_pow_right two_pos (Nat.not_lt.1 hj)))]

/-- The operation code, and how many low bits of each other field are operand; the bits above them are zero. -/
structure Layout where
  op : Nat
  rd : Nat
  rs : Nat
  rt : Nat
  imm : Nat

namespace Layout

/-- The widths fit their fields. -/
def Valid (l : Layout) : Prop := l.op < 256 ∧ l.rd ≤ 4 ∧ l.rs ≤ 4 ∧ l.rt ≤ 4 ∧ l.imm ≤ 12

/-- The fields have the operation code, and zero bits where there is no operand. -/
def Admits (l : Layout) (f : Fields) : Prop :=
  f.op = l.op ∧ f.rd < 2 ^ l.rd ∧ f.rs < 2 ^ l.rs ∧ f.rt < 2 ^ l.rt ∧ f.imm < 2 ^ l.imm

def pattern (l : Layout) : Fields := ⟨l.op, 0, 0, 0, 0⟩

def mask (l : Layout) : Fields :=
  ⟨2 ^ 8 - 2 ^ 0, 2 ^ 4 - 2 ^ l.rd, 2 ^ 4 - 2 ^ l.rs, 2 ^ 4 - 2 ^ l.rt, 2 ^ 12 - 2 ^ l.imm⟩

variable {l : Layout}

theorem fits_of_admits (hl : l.Valid) {f : Fields} (h : l.Admits f) : f.Fits := by
  obtain ⟨hop, hrd, hrs, hrt, himm⟩ := hl
  obtain ⟨fop, frd, frs, frt, fimm⟩ := h
  have below {x k n : Nat} (hx : x < 2 ^ k) (hk : k ≤ n) : x < 2 ^ n := hx.trans_le (Nat.pow_le_pow_right two_pos hk)
  exact ⟨fop ▸ hop, below frd hrd, below frs hrs, below frt hrt, below fimm himm⟩

theorem pattern_fits (hl : l.Valid) : l.pattern.Fits := by
  obtain ⟨hop, -⟩ := hl
  simpa [Fields.Fits, pattern] using hop

theorem mask_fits (l : Layout) : l.mask.Fits := by
  have below (n k : Nat) : 2 ^ n - 2 ^ k < 2 ^ n := Nat.sub_lt (Nat.two_pow_pos n) (Nat.two_pow_pos k)
  exact ⟨below 8 _, below 4 _, below 4 _, below 4 _, below 12 _⟩

/-- A word matches the row of a layout exactly when the layout admits its fields (R96). -/
theorem and_mask_eq_pattern_iff (hl : l.Valid) (w : Word) :
    w &&& l.mask.word = l.pattern.word ↔ l.Admits (Fields.ofWord w) := by
  rw [eq_comm, Fields.word_eq_iff (pattern_fits hl), Fields.ofWord_and, Fields.ofWord_word (mask_fits l)]
  obtain ⟨-, hrd, hrs, hrt, himm⟩ := hl
  obtain ⟨fop, frd, frs, frt, fimm⟩ := Fields.ofWord_fits w
  have hop : (Fields.ofWord w).op &&& (2 ^ 8 - 1) = (Fields.ofWord w).op := by
    rw [Nat.and_two_pow_sub_one_eq_mod, Nat.mod_eq_of_lt fop]
  simp only [Fields.ext_iff, Fields.land, mask, pattern, Admits, and_highBits_eq_zero_iff (m := 4) frd hrd,
    and_highBits_eq_zero_iff (m := 4) frs hrs, and_highBits_eq_zero_iff (m := 4) frt hrt,
    and_highBits_eq_zero_iff (m := 12) fimm himm, pow_zero, hop]

end Layout

/-! ## Selector bits -/

theorem Scale.bit_lt (sel : Scale) : sel.bit < 2 := by cases sel <;> decide

theorem Channel.bit_lt (sel : Channel) : sel.bit < 2 := by cases sel <;> decide

theorem Scale.exists_bit_eq {n : Nat} (h : n < 2) : ∃ sel : Scale, n = sel.bit :=
  match n, h with
  | 0, _ => ⟨.full, rfl⟩
  | 1, _ => ⟨.quarter, rfl⟩

theorem Channel.exists_bit_eq {n : Nat} (h : n < 2) : ∃ sel : Channel, n = sel.bit :=
  match n, h with
  | 0, _ => ⟨.left, rfl⟩
  | 1, _ => ⟨.right, rfl⟩

/-! ## The rows of the table -/

/-- The layout of an instruction's row (R92). -/
def Instr.layout (i : Instr) : Layout :=
  match i with
  | .endProg => ⟨i.op, 0, 0, 0, 0⟩
  | .skipz _ => ⟨i.op, 0, 0, 0, 3⟩
  | .adv _ => ⟨i.op, 0, 0, 0, 12⟩
  | .ldblk _ => ⟨i.op, 3, 0, 0, 0⟩
  | .emit16 _ => ⟨i.op, 0, 3, 0, 0⟩
  | .emitf _ _ => ⟨i.op, 0, 3, 3, 0⟩
  | .firB _ _ _ | .iirB _ _ _ => ⟨i.op, 3, 3, 0, 5⟩
  | .firS _ _ _ _ | .iirS _ _ _ _ => ⟨i.op, 3, 3, 4, 5⟩
  | .trimh _ _ _ | .trimhk _ _ _ _ | .decim _ _ _ => ⟨i.op, 3, 3, 0, 12⟩
  | .anlt _ _ => ⟨i.op, 1, 3, 0, 0⟩
  | .chop _ _ _ => ⟨i.op, 1, 1, 0, 12⟩
  | .angle _ _ => ⟨i.op, 3, 1, 0, 0⟩
  | .diff _ _ | .fix0 _ _ | .unwrap _ _ | .clipdev _ _ | .iremap _ _ => ⟨i.op, 3, 3, 0, 0⟩
  | .sclhz _ _ _ | .wrapc _ _ _ | .subcf _ _ _ => ⟨i.op, 3, 3, 0, 1⟩

/-- The table's row of an instruction, written out from its layout. -/
def Instr.row (i : Instr) : OpcodeRow := ⟨i.mnemonic, i.layout.pattern.word, i.layout.mask.word⟩

theorem Instr.layout_valid (i : Instr) : i.layout.Valid := by
  cases i <;> simp [Layout.Valid, Instr.layout, Instr.op]

/-- The operands of a well-formed instruction lie in the operand bits of its row. -/
theorem Instr.layout_admits_fields {i : Instr} (hi : i.wellFormed = true) : i.layout.Admits i.fields := by
  cases i with
  | endProg => exact ⟨rfl, one_pos, one_pos, one_pos, one_pos⟩
  | skipz cbit => exact ⟨rfl, one_pos, one_pos, one_pos, cbit.isLt⟩
  | adv imm => exact ⟨rfl, one_pos, one_pos, one_pos, of_decide_eq_true hi⟩
  | ldblk rd => exact ⟨rfl, rd.isLt, one_pos, one_pos, one_pos⟩
  | emit16 rs => exact ⟨rfl, one_pos, rs.isLt, one_pos, one_pos⟩
  | emitf rs rt => exact ⟨rfl, one_pos, rs.isLt, rt.isLt, one_pos⟩
  | firB rd rs slot | iirB rd rs slot => exact ⟨rfl, rd.isLt, rs.isLt, one_pos, of_decide_eq_true hi⟩
  | firS rd rs t slot | iirS rd rs t slot => exact ⟨rfl, rd.isLt, rs.isLt, t.isLt, of_decide_eq_true hi⟩
  | trimh rd rs imm | decim rd rs imm | chop rd rs imm => exact ⟨rfl, rd.isLt, rs.isLt, one_pos, of_decide_eq_true hi⟩
  | trimhk rd rs k slot =>
    have hsizes : k < 128 ∧ slot < 32 := by simpa [Instr.wellFormed, kFits, slotFits] using hi
    have himm : k * 2 ^ 5 + slot < 2 ^ 12 := by omega
    exact ⟨rfl, rd.isLt, rs.isLt, one_pos, himm⟩
  | sclhz rd rs sel | wrapc rd rs sel | subcf rd rs sel => exact ⟨rfl, rd.isLt, rs.isLt, one_pos, sel.bit_lt⟩
  | anlt rd rs | angle rd rs | diff rd rs | fix0 rd rs | unwrap rd rs | clipdev rd rs | iremap rd rs =>
    exact ⟨rfl, rd.isLt, rs.isLt, one_pos, one_pos⟩

/-- Fields that a row's layout admits are those of an instruction of the row. -/
theorem Instr.exists_fields_eq_of_admits (j : Instr) {f : Fields} (h : j.layout.Admits f) :
    ∃ i : Instr, i.mnemonic = j.mnemonic ∧ i.wellFormed = true ∧ f = i.fields := by
  obtain ⟨hop, hrd, hrs, hrt, himm⟩ := h
  have zero {n : Nat} (hn : n < 2 ^ 0) : n = 0 := Nat.lt_one_iff.1 hn
  cases j with
  | endProg => exact ⟨.endProg, rfl, rfl, Fields.ext hop (zero hrd) (zero hrs) (zero hrt) (zero himm)⟩
  | skipz _ => exact ⟨.skipz ⟨_, himm⟩, rfl, rfl, Fields.ext hop (zero hrd) (zero hrs) (zero hrt) rfl⟩
  | adv _ => exact ⟨.adv f.imm, rfl, decide_eq_true himm, Fields.ext hop (zero hrd) (zero hrs) (zero hrt) rfl⟩
  | ldblk _ => exact ⟨.ldblk ⟨_, hrd⟩, rfl, rfl, Fields.ext hop rfl (zero hrs) (zero hrt) (zero himm)⟩
  | emit16 _ => exact ⟨.emit16 ⟨_, hrs⟩, rfl, rfl, Fields.ext hop (zero hrd) rfl (zero hrt) (zero himm)⟩
  | emitf _ _ => exact ⟨.emitf ⟨_, hrs⟩ ⟨_, hrt⟩, rfl, rfl, Fields.ext hop (zero hrd) rfl rfl (zero himm)⟩
  | firB _ _ _ =>
    exact ⟨.firB ⟨_, hrd⟩ ⟨_, hrs⟩ _, rfl, decide_eq_true himm, Fields.ext hop rfl rfl (zero hrt) rfl⟩
  | firS _ _ _ _ =>
    exact ⟨.firS ⟨_, hrd⟩ ⟨_, hrs⟩ ⟨_, hrt⟩ _, rfl, decide_eq_true himm, Fields.ext hop rfl rfl rfl rfl⟩
  | iirB _ _ _ =>
    exact ⟨.iirB ⟨_, hrd⟩ ⟨_, hrs⟩ _, rfl, decide_eq_true himm, Fields.ext hop rfl rfl (zero hrt) rfl⟩
  | iirS _ _ _ _ =>
    exact ⟨.iirS ⟨_, hrd⟩ ⟨_, hrs⟩ ⟨_, hrt⟩ _, rfl, decide_eq_true himm, Fields.ext hop rfl rfl rfl rfl⟩
  | trimh _ _ _ =>
    exact ⟨.trimh ⟨_, hrd⟩ ⟨_, hrs⟩ _, rfl, decide_eq_true himm, Fields.ext hop rfl rfl (zero hrt) rfl⟩
  | trimhk _ _ _ _ =>
    have hk : f.imm / 2 ^ 5 < 128 := Nat.div_lt_of_lt_mul himm
    have hslot : f.imm % 2 ^ 5 < 32 := Nat.mod_lt _ (by decide)
    exact ⟨.trimhk ⟨_, hrd⟩ ⟨_, hrs⟩ _ _, rfl, Bool.and_eq_true_iff.2 ⟨decide_eq_true hk, decide_eq_true hslot⟩,
      Fields.ext hop rfl rfl (zero hrt) (Nat.div_add_mod' _ _).symm⟩
  | decim _ _ _ =>
    exact ⟨.decim ⟨_, hrd⟩ ⟨_, hrs⟩ _, rfl, decide_eq_true himm, Fields.ext hop rfl rfl (zero hrt) rfl⟩
  | anlt _ _ => exact ⟨.anlt ⟨_, hrd⟩ ⟨_, hrs⟩, rfl, rfl, Fields.ext hop rfl rfl (zero hrt) (zero himm)⟩
  | chop _ _ _ =>
    exact ⟨.chop ⟨_, hrd⟩ ⟨_, hrs⟩ _, rfl, decide_eq_true himm, Fields.ext hop rfl rfl (zero hrt) rfl⟩
  | angle _ _ => exact ⟨.angle ⟨_, hrd⟩ ⟨_, hrs⟩, rfl, rfl, Fields.ext hop rfl rfl (zero hrt) (zero himm)⟩
  | diff _ _ => exact ⟨.diff ⟨_, hrd⟩ ⟨_, hrs⟩, rfl, rfl, Fields.ext hop rfl rfl (zero hrt) (zero himm)⟩
  | fix0 _ _ => exact ⟨.fix0 ⟨_, hrd⟩ ⟨_, hrs⟩, rfl, rfl, Fields.ext hop rfl rfl (zero hrt) (zero himm)⟩
  | unwrap _ _ => exact ⟨.unwrap ⟨_, hrd⟩ ⟨_, hrs⟩, rfl, rfl, Fields.ext hop rfl rfl (zero hrt) (zero himm)⟩
  | sclhz _ _ _ =>
    obtain ⟨sel, hsel⟩ := Scale.exists_bit_eq himm
    exact ⟨.sclhz ⟨_, hrd⟩ ⟨_, hrs⟩ sel, rfl, rfl, Fields.ext hop rfl rfl (zero hrt) hsel⟩
  | wrapc _ _ _ =>
    obtain ⟨sel, hsel⟩ := Scale.exists_bit_eq himm
    exact ⟨.wrapc ⟨_, hrd⟩ ⟨_, hrs⟩ sel, rfl, rfl, Fields.ext hop rfl rfl (zero hrt) hsel⟩
  | subcf _ _ _ =>
    obtain ⟨sel, hsel⟩ := Channel.exists_bit_eq himm
    exact ⟨.subcf ⟨_, hrd⟩ ⟨_, hrs⟩ sel, rfl, rfl, Fields.ext hop rfl rfl (zero hrt) hsel⟩
  | clipdev _ _ => exact ⟨.clipdev ⟨_, hrd⟩ ⟨_, hrs⟩, rfl, rfl, Fields.ext hop rfl rfl (zero hrt) (zero himm)⟩
  | iremap _ _ => exact ⟨.iremap ⟨_, hrd⟩ ⟨_, hrs⟩, rfl, rfl, Fields.ext hop rfl rfl (zero hrt) (zero himm)⟩

/-- One instruction of each row, in the order of the table. -/
def rowInstrs : List Instr :=
  [.endProg, .skipz 0, .adv 0, .ldblk 0, .emit16 0, .emitf 0 0, .firB 0 0 0, .firS 0 0 0 0, .iirB 0 0 0, .iirS 0 0 0 0,
   .trimh 0 0 0, .trimhk 0 0 0 0, .decim 0 0 0, .anlt 0 0, .chop 0 0 0, .angle 0 0, .diff 0 0, .fix0 0 0, .unwrap 0 0,
   .sclhz 0 0 .full, .wrapc 0 0 .full, .subcf 0 0 .left, .clipdev 0 0, .iremap 0 0]

/-- The table is that of the layouts, mask by mask (R96). -/
theorem opcodeTable_eq : opcodeTable = rowInstrs.map Instr.row := by decide +kernel

theorem opcodeTable_mnemonics_nodup : (opcodeTable.map OpcodeRow.mnemonic).Nodup := by decide +kernel

theorem Instr.row_mem (i : Instr) : i.row ∈ opcodeTable := by
  have hfind : (rowInstrs.find? fun j => j.op == i.op).map Instr.row = some i.row := by cases i <;> rfl
  obtain ⟨j, hj, hrow⟩ := Option.map_eq_some_iff.1 hfind
  rw [opcodeTable_eq, ← hrow]
  exact List.mem_map_of_mem (List.mem_of_find?_eq_some hj)

/-- The mnemonic names one row. -/
theorem row_eq_of_mnemonic {row : OpcodeRow} (hrow : row ∈ opcodeTable) {i : Instr}
    (h : i.mnemonic = row.mnemonic) : row = i.row :=
  List.inj_on_of_nodup_map opcodeTable_mnemonics_nodup hrow i.row_mem h.symm

theorem matches_row_of_decode {w : Word} {i : Instr} (h : decode w = .ok i) : w &&& i.row.mask = i.row.pattern := by
  obtain ⟨hi, hf⟩ := fields_of_decode h
  rw [Instr.row, Layout.and_mask_eq_pattern_iff i.layout_valid, hf]
  exact Instr.layout_admits_fields hi

/-- A word matches a row exactly when it decodes to an instruction with the row's mnemonic. -/
theorem matches_row_iff_decode {row : OpcodeRow} (hrow : row ∈ opcodeTable) (w : Word) :
    w &&& row.mask = row.pattern ↔ ∃ i, decode w = .ok i ∧ i.mnemonic = row.mnemonic := by
  constructor
  · intro h
    rw [opcodeTable_eq, List.mem_map] at hrow
    obtain ⟨j, -, rfl⟩ := hrow
    rw [Instr.row, Layout.and_mask_eq_pattern_iff j.layout_valid] at h
    obtain ⟨i, hname, hi, hf⟩ := j.exists_fields_eq_of_admits h
    exact ⟨i, decode_of_fields hi hf, hname⟩
  · rintro ⟨i, hd, hname⟩
    rw [row_eq_of_mnemonic hrow hname]
    exact matches_row_of_decode hd

/-! ## The obligations -/

theorem encode_eq_iff {w : Word} {i : Instr} (hi : i.wellFormed = true) :
    encode i = w ↔ Fields.ofWord w = i.fields := by
  rw [encode_eq_word, Fields.word_eq_iff (Layout.fits_of_admits i.layout_valid (Instr.layout_admits_fields hi))]

/-- Settles O1: the fields of an instruction's word are the instruction's. -/
theorem decodeOfEncodeIsIdentity : Obligations.DecodeOfEncodeIsIdentity := fun _ hi =>
  decode_of_fields hi ((encode_eq_iff hi).1 rfl)

/-- Settles O2: a word that decodes has the fields of what it decodes to. -/
theorem encodeOfDecodeIsIdentity : Obligations.EncodeOfDecodeIsIdentity := fun _ _ h =>
  have ⟨hi, hf⟩ := fields_of_decode h
  ⟨hi, (encode_eq_iff hi).2 hf⟩

/-- Settles O3: the rows are those of the layouts, and an instruction's mnemonic picks out its row. -/
theorem decodeAgreesWithOpcodeTable : Obligations.DecodeAgreesWithOpcodeTable := by
  refine ⟨fun w row hrow => matches_row_iff_decode hrow w, fun w => ⟨?_, ?_⟩, ?_⟩
  · rintro ⟨e, he⟩ row hrow hmatch
    obtain ⟨i, hi, -⟩ := (matches_row_iff_decode hrow w).1 hmatch
    exact nomatch he.symm.trans hi
  · intro hnone
    cases hd : decode w with
    | error e => exact ⟨e, rfl⟩
    | ok i => exact absurd (matches_row_of_decode hd) (hnone _ i.row_mem)
  · have hne : opcodeTable.Pairwise (fun r q => r.mnemonic ≠ q.mnemonic) :=
      List.pairwise_map.1 opcodeTable_mnemonics_nodup
    refine hne.imp_of_mem fun hr hq hne w ⟨hmr, hmq⟩ => hne ?_
    obtain ⟨i, hi, hir⟩ := (matches_row_iff_decode hr w).1 hmr
    obtain ⟨k, hk, hkq⟩ := (matches_row_iff_decode hq w).1 hmq
    cases hi.symm.trans hk
    exact hir.symm.trans hkq

/-- Settles O4: six words are those of instructions (O1), and three stop at the first reader that refuses. -/
theorem exampleWordsDecode : Obligations.ExampleWordsDecode :=
  ⟨decodeOfEncodeIsIdentity (.skipz 2) rfl, decodeOfEncodeIsIdentity (.emitf 1 2) rfl,
    decodeOfEncodeIsIdentity (.firS 1 0 0 13) rfl, decodeOfEncodeIsIdentity (.trimhk 1 1 64 31) rfl,
    decodeOfEncodeIsIdentity (.chop 0 0 256) rfl, decodeOfEncodeIsIdentity (.subcf 2 2 .right) rfl, rfl, rfl, rfl⟩

end Sys2Proof
end

section
/-!
PROOFS. The step at an illegal word (30_encoding.md R97): fault entry with ILLEGAL_UOP (O6).
-/
namespace Sys2Proof.Machine

/-- A fault raised by a micro-operation, seen from outside (60_exceptions.md R256). -/
theorem faultTaken_raise (c : Cause) (s : State) : FaultTaken c.code (s.upc.setWidth 32) s (raise c s) :=
  ⟨rfl, rfl, rfl, rfl, rfl, rfl, fun _ => rfl, fun _ => rfl, fun _ => ⟨rfl, rfl⟩, ⟨rfl, rfl⟩, ⟨rfl, rfl, rfl⟩,
    ⟨rfl, fun _ => rfl⟩, ⟨rfl, rfl, rfl, rfl, rfl, rfl, rfl, rfl, rfl, rfl⟩⟩

theorem step_of_no_turns {s : State} (h : s.turns = []) : step s = seqStep s := by rw [step, h]

theorem seqStep_of_processing {s : State} (h : s.ostate = .processing) : seqStep s = processingStep s := by
  rw [seqStep, h]

theorem processingStep_of_illegal {s : State} {e : IllegalWord} (h : decode s.fetch = .error e) :
    processingStep s = .next (raise .illegalUop s) := by rw [processingStep, h]

/-- Settles O6: the next state is that of fault entry. -/
theorem illegalWordRaisesIllegalUop : Obligations.IllegalWordRaisesIllegalUop := fun s _ ho hturns hd => by
  rw [step_of_no_turns hturns, seqStep_of_processing ho, processingStep_of_illegal hd]
  exact ⟨_, rfl, faultTaken_raise .illegalUop s⟩

end Sys2Proof.Machine
end

section
/-!
PROOFS. The slot field: what it resolves to, how reading its slot fails, and the faults of the five micro-operations
that read one (O35).
-/
namespace Sys2Proof.Machine

section
variable {s : State} {f : Nat}

/-! ## Resolving the field (40_coefficient_rom.md R123) -/

theorem resolveSlot_of_lt {n : Fin 16} (h : n.val = f) : resolveSlot s f = .ok n := by
  subst h
  exact dif_pos n.isLt

theorem resolveSlot_lpf {n : Fin 16} (hsel : s.lpfSel ≤ 4) (h : n.val = 1 + s.lpfSel) :
    resolveSlot s 30 = .ok n := by
  rw [show n = ⟨1 + s.lpfSel, by omega⟩ from Fin.ext h]
  exact dif_pos hsel

theorem resolveSlot_lpf_error (hsel : 4 < s.lpfSel) : resolveSlot s 30 = .error .configDesign :=
  dif_neg (Nat.not_le.2 hsel)

theorem resolveSlot_deemphasis : resolveSlot s 31 = .ok (if s.deemphAlt then 7 else 6) := rfl

theorem resolveSlot_reserved (h16 : 16 ≤ f) (h29 : f ≤ 29) : resolveSlot s f = .error .illegalUop := by
  rw [resolveSlot, dif_neg (by omega), if_neg (by omega), if_neg (by omega)]

/-- The three forms of the field, each by its equation. -/
theorem resolveSlot_of_namesSlot {n : Fin 16} (h : NamesSlot s f n) : resolveSlot s f = .ok n := by
  rcases h with ⟨-, hn⟩ | ⟨rfl, hsel, hn⟩ | ⟨rfl, hn⟩
  · exact resolveSlot_of_lt hn
  · exact resolveSlot_lpf hsel hn
  · rw [resolveSlot_deemphasis]
    congr 1
    apply Fin.ext
    rw [hn]
    split <;> rfl

/-! ## Reading the slot (R124; 41_filter_datapaths.md R138) -/

theorem readSlot_of_resolveSlot_error {c : Cause} (h : resolveSlot s f = .error c) : readSlot s f = .error c := by
  rw [readSlot, h]

theorem readSlot_of_namesSlot {n : Fin 16} (h : NamesSlot s f n) :
    readSlot s f = if (s.cfg.rom.get n).valid then .ok (s.cfg.rom.get n) else .error .configDesign := by
  rw [readSlot, resolveSlot_of_namesSlot h]

theorem readSlot_of_namesValidSlot {sl : Slot} (h : NamesValidSlot s f sl) : readSlot s f = .ok sl := by
  obtain ⟨n, hn, rfl, hv⟩ := h
  rw [readSlot_of_namesSlot hn, if_pos hv]

theorem readSlot_of_invalid {n : Fin 16} (h : NamesSlot s f n) (hv : (s.cfg.rom.get n).valid = false) :
    readSlot s f = .error .configDesign := by
  rw [readSlot_of_namesSlot h, if_neg (by rw [hv]; decide)]

/-- The FIR datapath fails where the read of the slot does, before its kind is looked at. -/
theorem readFirSlot_of_readSlot_error {c : Cause} (h : readSlot s f = .error c) : readFirSlot s f = .error c := by
  rw [readFirSlot, h]

theorem readFirSlot_of_iirKind {sl : Slot} (h : NamesValidSlot s f sl) (ha : sl.a.length ≠ 1) :
    readFirSlot s f = .error .slotKind := by
  simp only [readFirSlot, readSlot_of_namesValidSlot h]
  exact if_neg (by rw [slotIsFir, decide_eq_true_eq]; exact ha)

/-! ## The micro-operations that read a slot -/

variable {c : Cause} (rd rs : VReg) (r : RunState)

theorem exec_firB_of_error (h : readFirSlot s f = .error c) : exec (.firB rd rs f) s = .next (raise c s) := by
  rw [exec, execFirB, h]

theorem exec_firS_of_error (h : readFirSlot s f = .error c) : exec (.firS rd rs r f) s = .next (raise c s) := by
  rw [exec, execFirS, h]

theorem exec_iirB_of_error (h : readSlot s f = .error c) : exec (.iirB rd rs f) s = .next (raise c s) := by
  rw [exec, execIirB, h]

theorem exec_iirS_of_error (h : readSlot s f = .error c) : exec (.iirS rd rs r f) s = .next (raise c s) := by
  rw [exec, execIirS, h]

theorem exec_trimhk_of_error (k : Nat) (h : readSlot s f = .error c) :
    exec (.trimhk rd rs k f) s = .next (raise c s) := by
  rw [exec, execTrimhk, h]

variable {rd rs r}

/-- Whichever of the five reads the slot, a failed read is its fault. -/
theorem exec_slotReader_of_error {k : Nat} {i : Instr} (hi : i ∈ slotReaders rd rs r k f)
    (h : readSlot s f = .error c) : exec i s = .next (raise c s) := by
  simp only [slotReaders, List.mem_cons, List.not_mem_nil, or_false] at hi
  rcases hi with rfl | rfl | rfl | rfl | rfl
  · exact exec_firB_of_error rd rs (readFirSlot_of_readSlot_error h)
  · exact exec_firS_of_error rd rs r (readFirSlot_of_readSlot_error h)
  · exact exec_iirB_of_error rd rs h
  · exact exec_iirS_of_error rd rs r h
  · exact exec_trimhk_of_error rd rs k h

theorem faultTaken_of_exec_raise {i : Instr} (h : exec i s = .next (raise c s)) :
    ∃ t, exec i s = .next t ∧ FaultTaken c.code (s.upc.setWidth 32) s t :=
  ⟨_, h, faultTaken_raise c s⟩

end

/-- Settles O35: three ways in which the read of the slot fails, and the test of its kind on the FIR datapath. -/
theorem slotFieldFaults : Obligations.SlotFieldFaults := by
  intro rd rs r k f s i hi
  refine ⟨fun h16 h29 => ?_, ?_, fun n hn hv => ?_, fun sl hsl ha hfir => ?_⟩
  · have hread := readSlot_of_resolveSlot_error (s := s) (resolveSlot_reserved h16 h29)
    exact faultTaken_of_exec_raise (exec_slotReader_of_error hi hread)
  · rintro rfl hsel
    have hread := readSlot_of_resolveSlot_error (resolveSlot_lpf_error hsel)
    exact faultTaken_of_exec_raise (exec_slotReader_of_error hi hread)
  · exact faultTaken_of_exec_raise (exec_slotReader_of_error hi (readSlot_of_invalid hn hv))
  · have hread := readFirSlot_of_iirKind hsl ha
    rcases hfir with rfl | rfl
    · exact faultTaken_of_exec_raise (exec_firB_of_error rd rs hread)
    · exact faultTaken_of_exec_raise (exec_firS_of_error rd rs r hread)

end Sys2Proof.Machine
end

section
/-!
PROOFS. What a filter or a trim does once its slot is read (41_filter_datapaths.md R138 to R143), and the trims (O38,
O39).
-/
namespace Sys2Proof.Machine

/-! ## Completed writes -/

/-- A micro-operation that writes one real register and completes (10_state.md R32). -/
theorem writesOnlyV_complete_writeV (s : State) (rd : VReg) (xs : List Num64) :
    WritesOnlyV rd s (complete (s.writeV rd xs)) :=
  ⟨fun _ hj => State.readV_writeV_ne s hj xs, fun _ => rfl, fun _ => ⟨rfl, rfl⟩, ⟨rfl, rfl⟩, ⟨rfl, rfl, rfl⟩,
    ⟨⟨rfl, fun _ => rfl⟩, ⟨rfl, rfl, rfl, rfl, rfl, rfl, rfl, rfl, rfl, rfl⟩, ⟨rfl, rfl, rfl, rfl⟩, rfl⟩, rfl⟩

@[simp] theorem readV_complete_writeV (s : State) (rd : VReg) (xs : List Num64) :
    (complete (s.writeV rd xs)).readV rd = xs := State.readV_writeV_same s rd xs

/-- A micro-operation that writes one real register and one run-state and completes. -/
theorem writesOnlyVAndRun_complete (s : State) (rd : VReg) (r : RunState) (ys xh yh : List Num64) :
    WritesOnlyVAndRun rd r s (complete ((s.writeV rd ys).writeRun r xh yh)) :=
  have ⟨hv, hz, _, hout, hcursor, hrest, hupc⟩ := writesOnlyV_complete_writeV s rd ys
  ⟨hv, hz, keepsRunsBut_writeRun (s.writeV rd ys) r xh yh, hout, hcursor, hrest, hupc⟩

/-! ## What the trims and the filters do on a valid slot -/

section
variable {s : State} {f : Nat} {c : Slot} (rd rs : VReg) (r : RunState)

theorem readFirSlot_of_firKind (h : NamesValidSlot s f c) (ha : c.a.length = 1) : readFirSlot s f = .ok c := by
  simp only [readFirSlot, readSlot_of_namesValidSlot h]
  exact if_pos (decide_eq_true ha)

theorem exec_trimhk_of_valid (k : Nat) (h : NamesValidSlot s f c) :
    exec (.trimhk rd rs k f) s = .next (complete (s.writeV rd (trimHead (k * c.b.length) (s.readV rs)))) := by
  rw [exec, execTrimhk, readSlot_of_namesValidSlot h]

theorem exec_iirB_of_valid (h : NamesValidSlot s f c) :
    exec (.iirB rd rs f) s = .next (complete (filterBlock rd rs c.b c.a s)) := by
  rw [exec, execIirB, readSlot_of_namesValidSlot h]

theorem exec_iirS_of_valid (h : NamesValidSlot s f c) :
    exec (.iirS rd rs r f) s = .next (complete (filterStream rd rs r c.b c.a s)) := by
  rw [exec, execIirS, readSlot_of_namesValidSlot h]

theorem exec_firB_of_valid (h : NamesValidSlot s f c) (ha : c.a.length = 1) :
    exec (.firB rd rs f) s = .next (complete (filterBlock rd rs c.b firDenominator s)) := by
  rw [exec, execFirB, readFirSlot_of_firKind h ha]

theorem exec_firS_of_valid (h : NamesValidSlot s f c) (ha : c.a.length = 1) :
    exec (.firS rd rs r f) s = .next (complete (filterStream rd rs r c.b firDenominator s)) := by
  rw [exec, execFirS, readFirSlot_of_firKind h ha]

end

/-! ## The trims -/

theorem trimHead_getElem? {β : Type} (n : Nat) (xs : List β) (j : Nat) : (trimHead n xs)[j]? = xs[n + j]? :=
  List.getElem?_drop

/-- Settles O38: the samples are those of the trimmed list. -/
theorem trimhDropsTheFirstSamples : Obligations.TrimhDropsTheFirstSamples := by
  intro rd rs imm s
  refine ⟨_, rfl, writesOnlyV_complete_writeV s rd _, ?_⟩
  rw [readV_complete_writeV]
  exact ⟨trimHead_length imm _, trimHead_getElem? imm _⟩

/-- Settles O39: as TRIMH, once the slot is read. -/
theorem trimhkDropsFilterLengths : Obligations.TrimhkDropsFilterLengths := by
  intro rd rs k f s c h
  refine ⟨_, exec_trimhk_of_valid rd rs k h, writesOnlyV_complete_writeV s rd _, ?_⟩
  rw [readV_complete_writeV]
  exact ⟨trimHead_length _ _, trimHead_getElem? _ _⟩

end Sys2Proof.Machine
end

section
/-!
PROOFS. The recurrence (41_filter_datapaths.md R136): its loops as folds over the tap index, and its outputs and
histories read index by index (O33, O34).
-/
namespace Sys2Proof.Machine

section
variable {α : Type} (N : Numerics α)

/-! ## The loops over the taps -/

/-- Numerator tap `k` multiplies element `k` of the history. -/
theorem addTaps_eq_foldl (b h : List α) (acc : α) :
    addTaps N b h acc =
      (List.range b.length).foldl (fun acc k => N.add acc (N.mul (b.getD k N.zero) (h.getD k N.zero))) acc := by
  induction b generalizing h acc with
  | nil => rfl
  | cons b bs ih =>
    rw [addTaps, ih, List.length_cons, List.range_succ_eq_map, List.foldl_cons, List.foldl_map]
    cases h <;> simp

/-- The denominator loop is the numerator loop with subtraction for addition. -/
theorem subTaps_eq_addTaps (a h : List α) (acc : α) : subTaps N a h acc = addTaps { N with add := N.sub } a h acc := by
  induction a generalizing h acc with
  | nil => rfl
  | cons a as ih => exact ih _ _

/-- Denominator tap `k` after `a[0]` multiplies element `k` of the history. -/
theorem subTaps_eq_foldl (a h : List α) (acc : α) :
    subTaps N a h acc =
      (List.range a.length).foldl (fun acc k => N.sub acc (N.mul (a.getD k N.zero) (h.getD k N.zero))) acc := by
  rw [subTaps_eq_addTaps, addTaps_eq_foldl]

/-! ## The outputs -/

/-- Output `i` is computed from the inputs up to `i` and the outputs before `i`, newest first. -/
theorem df1Run_sample (b a xs xh yh : List α) (i : Nat) (hi : i < xs.length) :
    (df1Run N b a xs xh yh).1.getD i N.zero =
      df1Sample N b a (xs.getD i N.zero) ((xs.take i).reverse ++ xh)
        (((df1Run N b a xs xh yh).1.take i).reverse ++ yh) := by
  induction xs generalizing xh yh i with
  | nil => cases hi
  | cons x xs ih =>
    cases i with
    | zero => rfl
    | succ i =>
      have hi' := Nat.lt_of_succ_lt_succ hi
      simpa [df1Run] using ih (x :: xh) (df1Sample N b a x xh yh :: yh) i hi'

end

/-! ## Histories and sequences, read at one index -/

/-- What precedes index `i` of a sequence, newest first in front of the history. -/
theorem getD_reverse_take_append (x xh : List Num64) {i : Nat} (hi : i ≤ x.length) (k : Nat) :
    ((x.take i).reverse ++ xh).getD k Fp.posZero = sampleAt x xh ((i : Int) - 1 - k) := by
  have htake : (x.take i).length = i := List.length_take_of_le hi
  have hlen : (x.take i).reverse.length = i := by rw [List.length_reverse, htake]
  unfold sampleAt
  split
  · next h =>
    rw [List.getD_append _ _ _ _ (by omega), List.getD_eq_getElem _ _ (by omega), List.getD_eq_getElem _ _ (by omega)]
    simp only [List.getElem_reverse, List.getElem_take]
    congr 1
    omega
  · next h =>
    rw [List.getD_append_right _ _ _ _ (by omega)]
    congr 1
    omega

theorem addTaps_eq_numeratorSum (b x xh : List Num64) {i : Nat} (hi : i < x.length) :
    addTaps binary64 b (x.getD i Fp.posZero :: ((x.take i).reverse ++ xh)) Fp.posZero = numeratorSum b x xh i := by
  have hcons : x.getD i Fp.posZero :: ((x.take i).reverse ++ xh) = (x.take (i + 1)).reverse ++ xh := by
    rw [List.take_succ_eq_append_getElem hi, List.reverse_append, List.getD_eq_getElem _ _ hi]
    rfl
  rw [hcons, addTaps_eq_foldl]
  refine List.foldl_ext _ _ _ fun acc k _ => ?_
  have hk := getD_reverse_take_append x xh (Nat.succ_le_of_lt hi) k
  rw [show ((i + 1 : Nat) : Int) - 1 - k = i - k by omega] at hk
  exact congrArg (fun v => Fp.add acc (Fp.mul (b.getD k Fp.posZero) v)) hk

theorem subTaps_eq_denominatorSum (a y yh : List Num64) {i : Nat} (hi : i ≤ y.length) (acc : Num64) :
    subTaps binary64 a.tail ((y.take i).reverse ++ yh) acc = denominatorSum a y yh i acc := by
  rw [subTaps_eq_foldl, denominatorSum, List.range'_eq_map_range, List.foldl_map, List.length_tail]
  refine List.foldl_ext _ _ _ fun acc k _ => ?_
  have hk := getD_reverse_take_append y yh hi k
  have ha : a.tail.getD k Fp.posZero = a.getD (1 + k) Fp.posZero := by cases a <;> simp [Nat.add_comm]
  rw [show (i : Int) - 1 - k = i - (1 + k : Nat) by omega] at hk
  exact congrArg₂ (fun u v => Fp.sub acc (Fp.mul u v)) ha hk

/-! ## The new histories -/

theorem newest_getD {α : Type} (N : Numerics α) {H j : Nat} (hj : j < H) (h : List α) :
    (newest N H h).getD j N.zero = h.getD j N.zero := by
  rw [List.getD_eq_getElem?_getD, newest_getElem?, if_pos hj, Option.getD_some]

/-- After a whole sequence a history holds what precedes the sequence's end. -/
theorem newest_reverse_append_getD (H : Nat) (x xh : List Num64) {j : Nat} (hj : j < H) :
    (newest binary64 H (x.reverse ++ xh)).getD j Fp.posZero = sampleAt x xh ((x.length : Int) - 1 - j) := by
  have h := getD_reverse_take_append x xh le_rfl j
  rw [List.take_length] at h
  exact (newest_getD binary64 hj _).trans h

/-- The datapath's recurrence is the rule's, whatever the lengths of the taps and the histories. -/
theorem df1Rule_df1 (H : Nat) (b a x xh yh : List Num64) :
    Df1Rule H b a x xh yh (df1 binary64 H b a x xh yh).1 (df1 binary64 H b a x xh yh).2.1
      (df1 binary64 H b a x xh yh).2.2 where
  length := df1_length binary64 H b a x xh yh
  sample i hi := by
    have hy : i ≤ (df1Run binary64 b a x xh yh).1.length := by rw [df1Run_length]; exact hi.le
    calc (df1 binary64 H b a x xh yh).1.getD i Fp.posZero
        = df1Sample binary64 b a (x.getD i Fp.posZero) ((x.take i).reverse ++ xh)
            (((df1Run binary64 b a x xh yh).1.take i).reverse ++ yh) := df1Run_sample binary64 b a x xh yh i hi
      _ = denominatorSum a (df1Run binary64 b a x xh yh).1 yh i _ := subTaps_eq_denominatorSum a _ yh hy _
      _ = _ := congrArg (denominatorSum a _ yh i) (addTaps_eq_numeratorSum b x xh hi)
  xhLength := df1_xh_length binary64 H b a x xh yh
  yhLength := df1_yh_length binary64 H b a x xh yh
  xhSample j hj := by
    rw [df1, df1Run_inputs]
    exact newest_reverse_append_getD H x xh hj
  yhSample j hj := by
    have h := newest_reverse_append_getD H (df1Run binary64 b a x xh yh).1 yh hj
    rw [df1Run_length] at h
    rw [df1, df1Run_outputs]
    exact h

/-! ## The filter micro-operations -/

section
variable (s : State) (rd rs : VReg) (r : RunState) (b a : List Num64)

/-- Block mode completed: the recurrence from rest into `rd` (41_filter_datapaths.md R137). -/
theorem filterBlock_spec : WritesOnlyV rd s (complete (filterBlock rd rs b a s)) ∧
    ∃ xh yh, Df1Rule s.histLen b a (s.readV rs) (List.replicate s.histLen Fp.posZero)
      (List.replicate s.histLen Fp.posZero) ((complete (filterBlock rd rs b a s)).readV rd) xh yh := by
  refine ⟨writesOnlyV_complete_writeV s rd _, ?_⟩
  rw [filterBlock, readV_complete_writeV]
  exact ⟨_, _, df1Rule_df1 s.histLen b a (s.readV rs) _ _⟩

/-- Streaming mode completed: the recurrence from run-state `r` into `rd` and back (41_filter_datapaths.md R135). -/
theorem filterStream_spec : let t := complete (filterStream rd rs r b a s)
    WritesOnlyVAndRun rd r s t ∧
    Df1Rule s.histLen b a (s.readV rs) (s.readXh r) (s.readYh r) (t.readV rd) (t.readXh r) (t.readYh r) := by
  refine ⟨writesOnlyVAndRun_complete s rd r _ _ _, ?_⟩
  simp only [filterStream, complete, State.readV_advance, State.readXh_advance, State.readYh_advance,
    State.readV_writeRun, State.readV_writeV_same, State.readXh_writeRun, State.readYh_writeRun, if_true]
  exact df1Rule_df1 s.histLen b a (s.readV rs) (s.readXh r) (s.readYh r)

end

/-- Settles O33: the slot is read, then the block mode of the recurrence. -/
theorem blockFiltersFollowTheRecurrence : Obligations.BlockFiltersFollowTheRecurrence := by
  intro rd rs f s c h
  refine ⟨?_, fun ha => ?_⟩
  · obtain ⟨hw, xh, yh, hrule⟩ := filterBlock_spec s rd rs c.b c.a
    exact ⟨_, xh, yh, exec_iirB_of_valid rd rs h, hw, hrule⟩
  · obtain ⟨hw, xh, yh, hrule⟩ := filterBlock_spec s rd rs c.b firDenominator
    exact ⟨_, xh, yh, exec_firB_of_valid rd rs h ha, hw, hrule⟩

/-- Settles O34: the slot is read, then the streaming mode of the recurrence. -/
theorem streamFiltersFollowTheRecurrence : Obligations.StreamFiltersFollowTheRecurrence := by
  intro rd rs r f s c h
  exact ⟨⟨_, exec_iirS_of_valid rd rs r h, filterStream_spec s rd rs r c.b c.a⟩,
    fun ha => ⟨_, exec_firS_of_valid rd rs r h ha, filterStream_spec s rd rs r c.b firDenominator⟩⟩

end Sys2Proof.Machine
end

section
/-!
PROOFS. The laws of the recurrence (41_filter_datapaths.md R144 to R146): streaming continues across blocks (O36), a
one-tap denominator is the FIR case, and block mode is streaming from rest (O37).
-/
namespace Sys2Proof.Machine

section
variable {α : Type} (N : Numerics α)

/-! ## Histories that agree where the taps reach -/

/-- Two histories with the same `H` newest values. -/
def AgreeUpTo (H : Nat) (h h' : List α) : Prop := ∀ j, j < H → h.getD j N.zero = h'.getD j N.zero

variable {N} {H : Nat} {h h' : List α}

theorem newest_agrees (H : Nat) (h : List α) : AgreeUpTo N H (newest N H h) h :=
  fun _ hj => newest_getD N hj h

/-- The newest values are all that `newest` keeps. -/
theorem AgreeUpTo.newest_eq (hh : AgreeUpTo N H h h') : newest N H h = newest N H h' :=
  List.map_congr_left fun j hj => hh j (List.mem_range.mp hj)

/-- One more value in front reaches one index further. -/
theorem AgreeUpTo.cons (hh : AgreeUpTo N H h h') (x : α) : AgreeUpTo N (H + 1) (x :: h) (x :: h') := by
  intro j hj
  cases j with
  | zero => rfl
  | succ j => exact hh j (Nat.lt_of_succ_lt_succ hj)

theorem AgreeUpTo.mono {K : Nat} (hh : AgreeUpTo N H h h') (hK : K ≤ H) : AgreeUpTo N K h h' :=
  fun j hj => hh j (hj.trans_le hK)

theorem AgreeUpTo.append (hh : AgreeUpTo N H h h') (xs : List α) : AgreeUpTo N H (xs ++ h) (xs ++ h') := by
  induction xs with
  | nil => exact hh
  | cons x xs ih => exact (ih.cons x).mono (Nat.le_succ H)

theorem AgreeUpTo.addTaps_eq (hh : AgreeUpTo N H h h') {b : List α} (hb : b.length ≤ H) (acc : α) :
    addTaps N b h acc = addTaps N b h' acc := by
  rw [addTaps_eq_foldl, addTaps_eq_foldl]
  refine List.foldl_ext _ _ _ fun acc k hk => ?_
  rw [hh k ((List.mem_range.mp hk).trans_le hb)]

theorem AgreeUpTo.subTaps_eq (hh : AgreeUpTo N H h h') {a : List α} (ha : a.length ≤ H) (acc : α) :
    subTaps N a h acc = subTaps N a h' acc := by
  rw [subTaps_eq_addTaps, subTaps_eq_addTaps]
  exact AgreeUpTo.addTaps_eq (N := { N with add := N.sub }) hh ha acc

section
variable {b a : List α} (hb : b.length ≤ H + 1) (ha : a.length ≤ H + 1)
include hb ha

/-- Taps of at most `H + 1` read no older value than the `H` newest. -/
theorem df1Sample_congr {xh xh' yh yh' : List α} (hx : AgreeUpTo N H xh xh') (hy : AgreeUpTo N H yh yh') (x : α) :
    df1Sample N b a x xh yh = df1Sample N b a x xh' yh' := by
  have ha' : a.tail.length ≤ H := by rw [List.length_tail]; omega
  rw [df1Sample, (hx.cons x).addTaps_eq hb, hy.subTaps_eq ha', df1Sample]

theorem df1Run_congr (xs : List α) {xh xh' yh yh' : List α} (hx : AgreeUpTo N H xh xh')
    (hy : AgreeUpTo N H yh yh') : (df1Run N b a xs xh yh).1 = (df1Run N b a xs xh' yh').1 := by
  induction xs generalizing xh xh' yh yh' with
  | nil => rfl
  | cons x xs ih =>
    have hs := df1Sample_congr hb ha hx hy x
    have hx' := (hx.cons x).mono (Nat.le_succ H)
    have hy' := (hy.cons (df1Sample N b a x xh' yh')).mono (Nat.le_succ H)
    simp only [df1Run, hs, ih hx' hy']

/-- Outputs and new histories depend on the `H` newest values of the old histories only. -/
theorem df1_congr (xs : List α) {xh xh' yh yh' : List α} (hx : AgreeUpTo N H xh xh')
    (hy : AgreeUpTo N H yh yh') : df1 N H b a xs xh yh = df1 N H b a xs xh' yh' := by
  have hout := df1Run_congr hb ha xs hx hy
  simp only [df1, df1Run_inputs, df1Run_outputs, hout, (hx.append _).newest_eq, (hy.append _).newest_eq]

end

/-! ## Two blocks -/

/-- A run over a concatenation is a run over its first part, then one over its second from the histories left. -/
theorem df1Run_append (b a x1 x2 xh yh : List α) :
    df1Run N b a (x1 ++ x2) xh yh =
      ((df1Run N b a x1 xh yh).1 ++
          (df1Run N b a x2 (df1Run N b a x1 xh yh).2.1 (df1Run N b a x1 xh yh).2.2).1,
        (df1Run N b a x2 (df1Run N b a x1 xh yh).2.1 (df1Run N b a x1 xh yh).2.2).2) := by
  induction x1 generalizing xh yh with
  | nil => rfl
  | cons x xs ih => simp only [List.cons_append, df1Run, ih]

end

/-- Settles O36: the second call starts from the `H` newest values of the run's histories, and they are all its taps
reach. -/
theorem streamingContinuesAcrossBlocks : Obligations.StreamingContinuesAcrossBlocks := by
  intro α N H b a x1 x2 xh yh hb ha _ _ r1 r2 r
  have hr2 : r2 = df1 N H b a x2 (df1Run N b a x1 xh yh).2.1 (df1Run N b a x1 xh yh).2.2 :=
    df1_congr hb ha x2 (newest_agrees H _) (newest_agrees H _)
  have hr : r = (r1.1 ++ r2.1, r2.2.1, r2.2.2) := by
    rw [hr2]
    simp only [r, r1, df1, df1Run_append]
  rw [hr]
  exact ⟨rfl, rfl, rfl⟩

/-! ## One-tap denominators -/

/-- The recurrence reads the denominator's taps after `a[0]` only. -/
theorem df1_of_tail_eq {α : Type} (N : Numerics α) (H : Nat) (b : List α) {a a' : List α} (ha : a.tail = a'.tail)
    (x xh yh : List α) : df1 N H b a x xh yh = df1 N H b a' x xh yh := by
  have hrun : ∀ xh yh, df1Run N b a x xh yh = df1Run N b a' x xh yh := by
    induction x with
    | nil => exact fun _ _ => rfl
    | cons x xs ih => exact fun xh yh => by simp only [df1Run, df1Sample, ha, ih]
  rw [df1, df1, hrun]

section
variable {a : List Num64} (ha : a.length = 1) (rd rs : VReg) (r : RunState) (b : List Num64) (s : State)
include ha

theorem tail_eq_firDenominator_tail : a.tail = firDenominator.tail :=
  List.eq_nil_of_length_eq_zero (by rw [List.length_tail, ha])

theorem filterBlock_of_firKind : filterBlock rd rs b a s = filterBlock rd rs b firDenominator s := by
  rw [filterBlock, df1Block, df1_of_tail_eq binary64 _ b (tail_eq_firDenominator_tail ha)]
  rfl

theorem filterStream_of_firKind : filterStream rd rs r b a s = filterStream rd rs r b firDenominator s := by
  rw [filterStream, df1_of_tail_eq binary64 _ b (tail_eq_firDenominator_tail ha)]
  rfl

end

/-! ## Block mode is streaming from rest -/

theorem filterBlock_readV_of_rest (rd rs : VReg) {r : RunState} (b a : List Num64) {s : State}
    (hx : s.readXh r = restHistory s.cfg) (hy : s.readYh r = restHistory s.cfg) :
    (complete (filterBlock rd rs b a s)).readV rd = (complete (filterStream rd rs r b a s)).readV rd := by
  have hblock : (complete (filterBlock rd rs b a s)).readV rd = df1Block binary64 s.histLen b a (s.readV rs) :=
    readV_complete_writeV s rd _
  have hstream : (complete (filterStream rd rs r b a s)).readV rd =
      (df1 binary64 s.histLen b a (s.readV rs) (s.readXh r) (s.readYh r)).1 := readV_complete_writeV s rd _
  rw [hblock, hstream, hx, hy]
  rfl

/-- Settles O37: the second loop of the recurrence is empty on a slot of FIR kind, and the rest state is the run-state
that block mode starts from. -/
theorem firIsTheSpecialCase : Obligations.FirIsTheSpecialCase := by
  intro rd rs r f s c h ha
  refine ⟨?_, ?_, fun hx hy => ?_⟩
  · rw [exec_iirB_of_valid rd rs h, exec_firB_of_valid rd rs h ha, filterBlock_of_firKind ha]
  · rw [exec_iirS_of_valid rd rs r h, exec_firS_of_valid rd rs r h ha, filterStream_of_firKind ha]
  · exact ⟨_, _, exec_firB_of_valid rd rs h ha, exec_firS_of_valid rd rs r h ha,
      filterBlock_readV_of_rest rd rs c.b firDenominator hx hy⟩

end Sys2Proof.Machine
end

section
/-!
PROOFS. The demodulator's one-write operations: ANLT (O41), CHOP (O42), DIFF (O45), FIX0 (O46), SCLHZ (O49).
-/
namespace Sys2Proof.Machine

/-- A micro-operation that writes one complex register and completes (10_state.md R32). -/
theorem writesOnlyZ_complete_writeZ (s : State) (rd : ZReg) (xs : List (Num64 × Num64)) :
    WritesOnlyZ rd s (complete (s.writeZ rd xs)) :=
  ⟨fun _ => rfl, fun _ hj => State.readZ_writeZ_ne s hj xs, fun _ => ⟨rfl, rfl⟩, ⟨rfl, rfl⟩, ⟨rfl, rfl, rfl⟩,
    ⟨⟨rfl, fun _ => rfl⟩, ⟨rfl, rfl, rfl, rfl, rfl, rfl, rfl, rfl, rfl, rfl⟩, ⟨rfl, rfl, rfl, rfl⟩, rfl⟩, rfl⟩

@[simp] theorem readZ_complete_writeZ (s : State) (rd : ZReg) (xs : List (Num64 × Num64)) :
    (complete (s.writeZ rd xs)).readZ rd = xs := State.readZ_writeZ_same s rd xs

/-! ## Complex registers -/

/-- Settles O41: the window is the bounded one, and the record's analytic signal has its length. -/
theorem anltTakesTheBoundedWindow : Obligations.AnltTakesTheBoundedWindow := by
  intro rd rs s w
  have result : (complete (s.writeZ rd (Fp.analytic w))).readZ rd = Fp.analytic w := readZ_complete_writeZ s rd _
  refine ⟨_, rfl, writesOnlyZ_complete_writeZ s rd _, result, ?_, fun hw => ?_, fun x hw => ?_⟩
  · exact (congrArg List.length result).trans
      ((Fp.analytic_length w).trans (List.length_take.trans (Nat.min_comm _ _)))
  · exact result.trans (congrArg Fp.analytic hw)
  · exact result.trans (congrArg Fp.analytic hw)

theorem chopEnds_getElem? {β : Type} {n : Nat} {xs : List β} {j : Nat} (h : n + j < xs.length - n) :
    (chopEnds n xs)[j]? = xs[n + j]? := by
  rw [chopEnds, List.getElem?_drop, List.getElem?_take_of_lt h]

/-- Settles O42: the samples are those of the chopped list. -/
theorem chopDropsBothEnds : Obligations.ChopDropsBothEnds := by
  intro rd rs imm s
  refine ⟨_, rfl, writesOnlyZ_complete_writeZ s rd _, ?_⟩
  rw [readZ_complete_writeZ]
  exact ⟨chopEnds_length imm _, fun _ => chopEnds_getElem?⟩

/-! ## Differences, the first sample, the scale -/

theorem differences_getElem? {α : Type} (N : Numerics α) {xs : List α} {i : Nat} {x y : α} (hx : xs[i]? = some x)
    (hy : xs[i + 1]? = some y) : (differences N xs)[i]? = some (N.sub y x) := by
  rw [differences, List.getElem?_zipWith_eq_some]
  exact ⟨x, y, hx, by rw [List.getElem?_tail, hy], rfl⟩

/-- Settles O45: each sample is the difference of the two it lies between. -/
theorem diffSubtractsNeighbours : Obligations.DiffSubtractsNeighbours := by
  intro rd rs s
  refine ⟨_, rfl, writesOnlyV_complete_writeV s rd _, ?_⟩
  rw [readV_complete_writeV]
  exact ⟨differences_length binary64 _, fun _ _ _ hx hy => differences_getElem? binary64 hx hy⟩

/-- Settles O46: the list splits into its first sample, which the comparison decides, and the rest, which stays. -/
theorem fix0CorrectsTheFirstOnly : Obligations.Fix0CorrectsTheFirstOnly := by
  intro rd rs s
  refine ⟨_, rfl, writesOnlyV_complete_writeV s rd _, ?_⟩
  rw [readV_complete_writeV]
  refine ⟨fixFirst_length binary64 _, ?_⟩
  cases s.readV rs with
  | nil => exact ⟨fun _ _ => rfl, fun _ hx => nomatch hx⟩
  | cons d ds =>
    refine ⟨fun i hi => ?_, fun x hx => ?_⟩
    · obtain ⟨k, rfl⟩ := Nat.exists_eq_succ_of_ne_zero hi
      rfl
    · cases hx
      rfl

/-- Settles O49: the gain does not depend on the sample. -/
theorem sclhzAppliesOneGain : Obligations.SclhzAppliesOneGain := by
  intro rd rs sel s
  refine ⟨_, rfl, writesOnlyV_complete_writeV s rd _, ?_⟩
  rw [readV_complete_writeV]
  cases sel <;> rfl

end Sys2Proof.Machine
end

section
/-!
PROOFS. The phase of a pair (42_fm_demodulator.md R170): its cases (O43) and its range (O44).
-/
namespace Sys2Proof.Machine

/-- A comparison that holds has no NaN operand. -/
theorem Fp.notNaN_of_eq {a b : Num64} (h : Fp.eq a b = true) : Fp.isNaN a = false := by
  simp only [Fp.eq, Bool.and_eq_true, Bool.not_eq_true'] at h
  exact h.1.1

/-! ## The cases of the phase, in the rule's order -/

/-- Both components are zero. -/
def ZeroPair (p : Num64 × Num64) : Prop := Fp.eq p.1 Fp.posZero = true ∧ Fp.eq p.2 Fp.posZero = true

/-- The pair lies on the negative real axis. -/
def OnNegativeAxis (p : Num64 × Num64) : Prop := Fp.eq p.2 Fp.posZero = true ∧ Fp.lt p.1 Fp.posZero = true

section
variable {p : Num64 × Num64}

theorem phaseOf_of_zeroPair (h : ZeroPair p) : phaseOf binary64 p = Fp.posZero :=
  if_pos (Bool.and_eq_true_iff.mpr h)

theorem OnNegativeAxis.not_zeroPair (h : OnNegativeAxis p) : ¬ZeroPair p := by
  rintro ⟨heq, -⟩
  obtain ⟨-, hlt⟩ := h
  simp only [Fp.eq, Fp.lt, Bool.and_eq_true, decide_eq_true_eq] at heq hlt
  omega

theorem phaseOf_of_onNegativeAxis (h : OnNegativeAxis p) : phaseOf binary64 p = Fp.pi :=
  (if_neg fun hz => h.not_zeroPair (Bool.and_eq_true_iff.mp hz)).trans (if_pos (Bool.and_eq_true_iff.mpr h))

theorem phaseOf_of_elsewhere (hz : ¬ZeroPair p) (ha : ¬OnNegativeAxis p) :
    phaseOf binary64 p =
      if Fp.eq (Fp.atan2 p.2 p.1) (Fp.neg Fp.pi) = true then Fp.pi else Fp.atan2 p.2 p.1 :=
  (if_neg fun h => hz (Bool.and_eq_true_iff.mp h)).trans (if_neg fun h => ha (Bool.and_eq_true_iff.mp h))

/-- A NaN component: neither of the first two cases applies, and a NaN differs from -PI. -/
theorem isNaN_phaseOf (h : Fp.isNaN p.1 = true ∨ Fp.isNaN p.2 = true) : Fp.isNaN (phaseOf binary64 p) = true := by
  have notZero : ¬ZeroPair p := fun ⟨h1, h2⟩ => by simp [Fp.notNaN_of_eq h1, Fp.notNaN_of_eq h2] at h
  have notAxis : ¬OnNegativeAxis p := fun ⟨h2, h1⟩ => by
    rcases h with h | h
    · simp [Fp.lt, h] at h1
    · simp [Fp.notNaN_of_eq h2] at h
  have nan : Fp.isNaN (Fp.atan2 p.2 p.1) = true := Fp.isNaN_atan2 h.symm
  rw [phaseOf_of_elsewhere notZero notAxis, (Fp.compare_nan (.inl nan)).2.2]
  exact nan

end

/-- Settles O43: the phase of each pair, case by case. -/
theorem angleFollowsItsCases : Obligations.AngleFollowsItsCases := by
  intro rd rs s
  refine ⟨_, rfl, writesOnlyV_complete_writeV s rd _, ?_⟩
  rw [readV_complete_writeV]
  refine ⟨List.length_map _, fun i re im p hpair hp => ?_⟩
  rw [List.getElem?_map, hpair] at hp
  obtain rfl := Option.some.inj hp
  refine ⟨phaseOf_of_zeroPair (p := (re, im)), phaseOf_of_onNegativeAxis (p := (re, im)), fun hz ha heq => ?_,
    fun hz ha hne => ?_, isNaN_phaseOf (p := (re, im))⟩
  · exact (phaseOf_of_elsewhere (p := (re, im)) hz ha).trans (if_pos heq)
  · exact (phaseOf_of_elsewhere (p := (re, im)) hz ha).trans (if_neg (Bool.eq_false_iff.mp hne))

/-! ## The range of the phase -/

theorem Fp.abs_key (a : Num64) : |Fp.key a| = Fp.magBits a := by
  unfold Fp.key
  split <;> simp

/-- A datum between two finite data is finite: its key is no further from zero than theirs. -/
theorem Fp.isFinite_of_between {a x b : Num64} (ha : Fp.isFinite a = true) (hb : Fp.isFinite b = true)
    (hax : Fp.le a x = true) (hxb : Fp.le x b = true) : Fp.isFinite x = true := by
  simp only [Fp.le, Bool.and_eq_true, decide_eq_true_eq] at hax hxb
  obtain ⟨-, lower⟩ := hax
  obtain ⟨-, upper⟩ := hxb
  have between := abs_le_max_abs_abs lower upper
  rw [Fp.abs_key, Fp.abs_key, Fp.abs_key] at between
  rw [Fp.isFinite_iff] at *
  omega

/-- A datum of the half-open interval (-PI, PI]. -/
def InHalfOpenTurn (x : Num64) : Prop :=
  Fp.isFinite x = true ∧ realOf (Fp.neg Fp.pi) < realOf x ∧ realOf x ≤ realOf Fp.pi

theorem isFinite_pi : Fp.isFinite Fp.pi = true := by decide

theorem isFinite_neg_pi : Fp.isFinite (Fp.neg Fp.pi) = true := Fp.isFinite_neg isFinite_pi

theorem inHalfOpenTurn_iff {x : Num64} (hx : Fp.isFinite x = true) :
    InHalfOpenTurn x ↔ Fp.lt (Fp.neg Fp.pi) x = true ∧ Fp.le x Fp.pi = true := by
  obtain ⟨lower, -, -⟩ := Fp.compare_finite isFinite_neg_pi hx
  obtain ⟨-, upper, -⟩ := Fp.compare_finite hx isFinite_pi
  rw [InHalfOpenTurn, lower, upper, and_iff_right hx]

theorem inHalfOpenTurn_posZero : InHalfOpenTurn Fp.posZero := (inHalfOpenTurn_iff (by decide)).mpr (by decide)

theorem inHalfOpenTurn_pi : InHalfOpenTurn Fp.pi := (inHalfOpenTurn_iff isFinite_pi).mpr (by decide)

/-- A datum of [-PI, PI] that does not compare equal to -PI. -/
theorem inHalfOpenTurn_of_ne {x : Num64} (lower : Fp.le (Fp.neg Fp.pi) x = true) (upper : Fp.le x Fp.pi = true)
    (hne : ¬Fp.eq x (Fp.neg Fp.pi) = true) : InHalfOpenTurn x := by
  have hx := Fp.isFinite_of_between isFinite_neg_pi isFinite_pi lower upper
  obtain ⟨-, lowerReal, -⟩ := Fp.compare_finite isFinite_neg_pi hx
  obtain ⟨-, upperReal, -⟩ := Fp.compare_finite hx isFinite_pi
  obtain ⟨-, -, eqReal⟩ := Fp.compare_finite hx isFinite_neg_pi
  rw [eqReal] at hne
  exact ⟨hx, lt_of_le_of_ne (lowerReal.mp lower) (Ne.symm hne), upperReal.mp upper⟩

theorem inHalfOpenTurn_phaseOf {p : Num64 × Num64} (h1 : Fp.isNaN p.1 = false) (h2 : Fp.isNaN p.2 = false) :
    InHalfOpenTurn (phaseOf binary64 p) := by
  by_cases hz : ZeroPair p
  · rw [phaseOf_of_zeroPair hz]
    exact inHalfOpenTurn_posZero
  by_cases ha : OnNegativeAxis p
  · rw [phaseOf_of_onNegativeAxis ha]
    exact inHalfOpenTurn_pi
  obtain ⟨lower, upper⟩ := Fp.atan2_range h2 h1 fun ⟨him, hre⟩ => hz ⟨hre, him⟩
  rw [phaseOf_of_elsewhere hz ha]
  split
  · exact inHalfOpenTurn_pi
  · exact inHalfOpenTurn_of_ne lower upper (by assumption)

/-- Settles O44: the fixed cases are 0 and PI, the others come from [-PI, PI] with -PI replaced. -/
theorem anglesLieInTheHalfOpenRange : Obligations.AnglesLieInTheHalfOpenRange := by
  intro rd rs s t hexec i re im p hpair hp hre him
  cases hexec
  rw [readV_complete_writeV, List.getElem?_map, hpair] at hp
  obtain rfl := Option.some.inj hp
  exact inHalfOpenTurn_phaseOf hre him

end Sys2Proof.Machine
end

section
/-!
PROOFS. The unwrap (42_fm_demodulator.md R173): each sample less its accumulated turns, over any numerics record; the
machine's reading (O47) and the exact one (O48).
-/
namespace Sys2Proof.Machine

/-! ## The accumulated turns -/

section
variable {α : Type} (N : Numerics α)

/-- The turns that jump `j` of a sequence adds. -/
def turnsAt (xs : List α) (j : Nat) : Int := unwrapTurns N (N.sub (xs.getD (j + 1) N.zero) (xs.getD j N.zero))

/-- The turns that the jumps before sample `i` add. -/
def turnsBefore (xs : List α) (i : Nat) : Int := ((List.range i).map (turnsAt N xs)).sum

theorem turnsAt_of_getElem? {xs : List α} {j : Nat} {x y : α} (hx : xs[j]? = some x) (hy : xs[j + 1]? = some y) :
    turnsAt N xs j = unwrapTurns N (N.sub y x) := by
  rw [turnsAt, List.getD_eq_getElem?_getD, List.getD_eq_getElem?_getD, hx, hy, Option.getD_some, Option.getD_some]

theorem turnsBefore_succ (xs : List α) (i : Nat) :
    turnsBefore N xs (i + 1) = turnsBefore N xs i + turnsAt N xs i := by
  rw [turnsBefore, List.range_succ, List.map_append, List.sum_append, ← turnsBefore, List.map_singleton,
    List.sum_singleton]

/-- The first jump of a sequence, and then the jumps of its tail. -/
theorem turnsBefore_cons_succ (x : α) (xs : List α) (i : Nat) :
    turnsBefore N (x :: xs) (i + 1) = turnsAt N (x :: xs) 0 + turnsBefore N xs i := by
  rw [turnsBefore, List.range_succ_eq_map, List.map_cons, List.sum_cons, List.map_map]
  rfl

theorem unwrapFrom_getElem? (prev : α) (Q : Int) (ds : List α) (i : Nat) :
    (unwrapFrom N prev Q ds)[i]? = ds[i]?.map (unwrapOut N (Q + turnsBefore N (prev :: ds) (i + 1))) := by
  induction ds generalizing prev Q i with
  | nil => rfl
  | cons d ds ih =>
    have first : turnsAt N (prev :: d :: ds) 0 = unwrapTurns N (N.sub d prev) := rfl
    rw [turnsBefore_cons_succ, first, ← Int.add_assoc]
    cases i with
    | zero => exact congrArg (fun q => some (unwrapOut N q d)) (Int.add_zero _).symm
    | succ i => exact ih d _ i

theorem unwrapSeq_getElem? (xs : List α) (i : Nat) :
    (unwrapSeq N xs)[i]? = xs[i]?.map (unwrapOut N (turnsBefore N xs i)) := by
  cases xs with
  | nil => rfl
  | cons d ds =>
    cases i with
    | zero => rfl
    | succ i => exact (unwrapFrom_getElem? N d 0 ds i).trans (by rw [Int.zero_add]; rfl)

end

/-! ## binary64 -/

/-- An integer below 2^53 is a datum: its rounding drops nothing. -/
theorem roundSig_of_small {m : Nat} (hm : m ≠ 0) (hlt : m < 2 ^ 53) :
    (roundSig 52 (-1074) m 0 : ℝ) * (2 : ℝ) ^ roundExp 52 (-1074) m 0 = m := by
  have hlog : m.log2 < 53 := (Nat.log2_lt hm).mpr hlt
  have hexp : roundExp 52 (-1074) m 0 ≤ 0 := by
    unfold roundExp
    omega
  rw [roundSig, if_pos hexp]
  push_cast
  rw [mul_assoc, ← zpow_natCast, Int.toNat_of_nonneg (by omega), ← zpow_add₀ (by norm_num)]
  simp

theorem roundMag_of_small {m : Nat} (hlt : m < 2 ^ 53) :
    Fp.roundMag 52 (-1074) 0x7FF0000000000000 m 0 < 0x7FF0000000000000 ∧
    magValue 52 (-1074) (Fp.roundMag 52 (-1074) 0x7FF0000000000000 m 0) = m := by
  by_cases hm : m = 0
  · simp [Fp.roundMag, hm]
  obtain ⟨sigLe, lead⟩ := @roundSig_bounds 52 (-1074) m 0 hm
  have hlog : m.log2 < 53 := (Nat.log2_lt hm).mpr hlt
  have hexp : -1074 ≤ roundExp 52 (-1074) m 0 ∧ roundExp 52 (-1074) m 0 ≤ 0 := by
    unfold roundExp
    omega
  have hcut : (roundExp 52 (-1074) m 0 - -1074).toNat * 2 ^ 52 + roundSig 52 (-1074) m 0 < 0x7FF0000000000000 := by
    omega
  rw [Fp.roundMag_eq hm, min_eq_left hcut.le]
  exact ⟨hcut, (magValue_assemble hexp.1 sigLe lead).trans (roundSig_of_small hm hlt)⟩

/-- `num(n)` is the number `n` below 2^53 (00_scope.md R13). -/
theorem Fp.ofInt_exact {n : Int} (h : n.natAbs < 2 ^ 53) :
    Fp.isFinite (Fp.ofInt n) = true ∧ realOf (Fp.ofInt n) = (n : ℝ) := by
  obtain ⟨hcut, value⟩ := roundMag_of_small h
  rw [Fp.ofInt, Fp.round, Fp.isFinite_iff, realOf_eq, Fp.magBits_ofMag (by omega), Fp.signBit_ofMag (by omega), value,
    signFactor_mul_natAbs]
  exact ⟨hcut, rfl⟩

/-- The turns of one jump: none where the rule says so, otherwise `rhz` of the quotient. -/
theorem isTurnsOf_unwrapTurns (e : Num64) : IsTurnsOf e (unwrapTurns binary64 e) := by
  refine ⟨fun h => if_pos (Bool.or_eq_true_iff.mpr h), fun hnan hle hfin => ?_⟩
  have jump : unwrapTurns binary64 e = Fp.rhz (Fp.div e Fp.twoPi) :=
    if_neg (Bool.eq_false_iff.mp (Bool.or_eq_false_iff.mpr ⟨hnan, hle⟩))
  rw [jump]
  exact Fp.rhz_isRhz hfin

/-- Settles O47: the turns of each jump are its `q`, and the sequence accumulates them. -/
theorem unwrapAppliesTheAccumulatedTurns : Obligations.UnwrapAppliesTheAccumulatedTurns := by
  intro rd rs s
  refine ⟨_, rfl, writesOnlyV_complete_writeV s rd _, ?_⟩
  rw [readV_complete_writeV]
  refine ⟨unwrapSeq_length binary64 _, turnsAt binary64 (s.readV rs), fun j x y hx hy => ?_, fun i d hd => ?_⟩
  · rw [turnsAt_of_getElem? binary64 hx hy]
    exact isTurnsOf_unwrapTurns _
  · refine ⟨?_, Fp.ofInt_exact⟩
    rw [unwrapSeq_getElem?, hd]
    rfl

/-! ## The exact reading -/

/-- `rhz` moves a real by at most one half. -/
theorem abs_sub_rhzExact_le (t : ℝ) : |t - rhzExact t| ≤ 1 / 2 := by
  rw [abs_le]
  unfold rhzExact
  split
  · have h1 := Int.le_ceil (t - 1 / 2)
    have h2 := Int.ceil_lt_add_one (t - 1 / 2)
    constructor <;> linarith
  · have h1 := Int.floor_le (t + 1 / 2)
    have h2 := Int.lt_floor_add_one (t + 1 / 2)
    constructor <;> linarith

/-- A jump less its own turns is at most half a turn. -/
theorem abs_jump_sub_turns_le (e : ℝ) : |e - unwrapTurns exactReals e * (2 * Real.pi)| ≤ Real.pi := by
  by_cases h : |e| ≤ Real.pi
  · have none : unwrapTurns exactReals e = 0 := if_pos (decide_eq_true h)
    simpa [none] using h
  · have turns : unwrapTurns exactReals e = rhzExact (e / (2 * Real.pi)) := if_neg (mt of_decide_eq_true h)
    have hpos : 0 < 2 * Real.pi := Real.two_pi_pos
    calc |e - unwrapTurns exactReals e * (2 * Real.pi)|
        = |(e / (2 * Real.pi) - rhzExact (e / (2 * Real.pi))) * (2 * Real.pi)| := by
          rw [turns, sub_mul, div_mul_cancel₀ e hpos.ne']
      _ = |e / (2 * Real.pi) - rhzExact (e / (2 * Real.pi))| * (2 * Real.pi) := by rw [abs_mul, abs_of_pos hpos]
      _ ≤ 1 / 2 * (2 * Real.pi) := mul_le_mul_of_nonneg_right (abs_sub_rhzExact_le _) hpos.le
      _ = Real.pi := by ring

theorem unwrapOut_exact (Q : Int) (d : ℝ) : unwrapOut exactReals Q d = d - 2 * Real.pi * Q := by
  show d - Q * (2 * Real.pi) = d - 2 * Real.pi * Q
  ring

/-- A sample of the exact unwrap comes from one of the source, less its turns. -/
theorem exists_of_unwrapSeq_exact {d : List ℝ} {i : Nat} {x : ℝ} (h : (unwrapSeq exactReals d)[i]? = some x) :
    ∃ a, d[i]? = some a ∧ x = a - 2 * Real.pi * turnsBefore exactReals d i := by
  rw [unwrapSeq_getElem?, Option.map_eq_some_iff] at h
  obtain ⟨a, ha, rfl⟩ := h
  exact ⟨a, ha, unwrapOut_exact _ a⟩

/-- Settles O48: neighbours differ by the jump between them less that jump's own turns. -/
theorem exactUnwrapBoundsTheJumps : Obligations.ExactUnwrapBoundsTheJumps := by
  refine fun d => ⟨fun i x y hx hy => ?_, fun i x hx => ⟨turnsBefore exactReals d i, ?_⟩, ?_⟩
  · obtain ⟨a, ha, rfl⟩ := exists_of_unwrapSeq_exact hx
    obtain ⟨b, hb, rfl⟩ := exists_of_unwrapSeq_exact hy
    have bound := abs_jump_sub_turns_le (b - a)
    rw [show b - a = exactReals.sub b a from rfl, ← turnsAt_of_getElem? exactReals ha hb] at bound
    rw [turnsBefore_succ]
    convert bound using 2
    push_cast
    show _ = b - a - _
    ring
  · rw [unwrapSeq_getElem?, hx, Option.map_some, unwrapOut_exact]
  · rw [unwrapSeq_getElem?]
    cases d with
    | nil => rfl
    | cons x xs =>
      show some (unwrapOut exactReals 0 x) = some x
      rw [unwrapOut_exact, Int.cast_zero, mul_zero, sub_zero]

end Sys2Proof.Machine
end

section
/-!
PROOFS. WRAPC (42_fm_demodulator.md R176): its loop (O50) and the range of its result (O51).
-/
namespace Sys2Proof.Machine

/-! ## The correction pass, one round at a time -/

section
variable {α : Type} (N : Numerics α) (F : α)

/-- The pass has to sweep: no sample is NaN and one is out of range. -/
def Violates (s : List α) : Prop := s.any N.isNaN = false ∧ outOfRange N F s = true

variable {N F} {s : List α}

theorem wrapCorrect_of_nan (left : Nat) (h : s.any N.isNaN = true) : wrapCorrect N F left s = .error .numeric := by
  unfold wrapCorrect
  rw [if_pos h]

theorem wrapCorrect_of_inRange (left : Nat) (hnan : s.any N.isNaN = false) (hr : outOfRange N F s = false) :
    wrapCorrect N F left s = .ok s := by
  unfold wrapCorrect
  rw [if_neg (Bool.eq_false_iff.mp hnan), hr]
  rfl

theorem wrapCorrect_zero_of_violates (h : Violates N F s) : wrapCorrect N F 0 s = .error .decodeNonconverge := by
  obtain ⟨hnan, hr⟩ := h
  unfold wrapCorrect
  rw [if_neg (Bool.eq_false_iff.mp hnan), hr]
  rfl

theorem wrapCorrect_succ_of_violates (n : Nat) (h : Violates N F s) :
    wrapCorrect N F (n + 1) s = wrapCorrect N F n (sweep N F s) := by
  obtain ⟨hnan, hr⟩ := h
  conv_lhs => unfold wrapCorrect
  rw [if_neg (Bool.eq_false_iff.mp hnan), hr]
  rfl

/-- As long as each round violates, the pass sweeps. -/
theorem wrapCorrect_add_of_violates (n k : Nat) (h : ∀ j, j < k → Violates N F (sweeps N F j s)) :
    wrapCorrect N F (n + k) s = wrapCorrect N F n (sweeps N F k s) := by
  induction k generalizing s with
  | zero => rfl
  | succ k ih =>
    have first : Violates N F s := h 0 (Nat.succ_pos k)
    rw [← Nat.add_assoc, wrapCorrect_succ_of_violates _ first]
    exact ih fun j hj => h (j + 1) (Nat.succ_lt_succ hj)

theorem wrapCorrect_of_violates {cap k : Nat} (hk : k ≤ cap) (h : ∀ j, j < k → Violates N F (sweeps N F j s)) :
    wrapCorrect N F cap s = wrapCorrect N F (cap - k) (sweeps N F k s) := by
  rw [← wrapCorrect_add_of_violates (cap - k) k h, Nat.sub_add_cancel hk]

end

/-! ## The micro-operation -/

section
variable {s : State} {sel : Scale} (rd rs : VReg)

theorem exec_wrapc_of_ok {xs : List Num64}
    (h : wrapCorrect binary64 (carrierScale s sel) s.cfg.wrapIterMax (s.readV rs) = .ok xs) :
    exec (.wrapc rd rs sel) s = .next (complete (s.writeV rd xs)) := by
  rw [exec, execWrapc, h]

theorem exec_wrapc_of_error {c : Cause}
    (h : wrapCorrect binary64 (carrierScale s sel) s.cfg.wrapIterMax (s.readV rs) = .error c) :
    exec (.wrapc rd rs sel) s = .next (raise c s) := by
  rw [exec, execWrapc, h]

/-- The rounds before the decisive one violate, so the pass answers as it does there. -/
theorem wrapc_completes {k : Nat} (hk : k ≤ s.cfg.wrapIterMax)
    (h : ConvergesIn binary64 (carrierScale s sel) k (s.readV rs)) :
    ∃ t, exec (.wrapc rd rs sel) s = .next t ∧ WritesOnlyV rd s t ∧
      t.readV rd = sweeps binary64 (carrierScale s sel) k (s.readV rs) := by
  obtain ⟨noNaN, before, after⟩ := h
  have result := (wrapCorrect_of_violates hk fun j hj => ⟨noNaN j hj.le, before j hj⟩).trans
    (wrapCorrect_of_inRange _ (noNaN k le_rfl) after)
  exact ⟨_, exec_wrapc_of_ok rd rs result, writesOnlyV_complete_writeV s rd _, readV_complete_writeV s rd _⟩

theorem wrapc_raises_numeric {k : Nat} (hk : k ≤ s.cfg.wrapIterMax)
    (before : ∀ j, j < k → Violates binary64 (carrierScale s sel) (sweeps binary64 (carrierScale s sel) j (s.readV rs)))
    (nan : (sweeps binary64 (carrierScale s sel) k (s.readV rs)).any Fp.isNaN = true) :
    ∃ t, exec (.wrapc rd rs sel) s = .next t ∧ FaultTaken 5 (s.upc.setWidth 32) s t := by
  have result := (wrapCorrect_of_violates hk before).trans (wrapCorrect_of_nan _ nan)
  exact ⟨_, exec_wrapc_of_error rd rs result, faultTaken_raise .numeric s⟩

theorem wrapc_raises_nonconverge
    (h : ∀ j, j ≤ s.cfg.wrapIterMax →
      Violates binary64 (carrierScale s sel) (sweeps binary64 (carrierScale s sel) j (s.readV rs))) :
    ∃ t, exec (.wrapc rd rs sel) s = .next t ∧ FaultTaken 2 (s.upc.setWidth 32) s t := by
  have result := wrapCorrect_of_violates (le_refl s.cfg.wrapIterMax) fun j hj => h j hj.le
  rw [Nat.sub_self, wrapCorrect_zero_of_violates (h _ le_rfl)] at result
  exact ⟨_, exec_wrapc_of_error rd rs result, faultTaken_raise .decodeNonconverge s⟩

end

/-- Settles O50: the three ways the loop can end. -/
theorem wrapcFollowsItsLoop : Obligations.WrapcFollowsItsLoop := by
  intro rd rs sel s
  have loop := And.intro (fun k => wrapc_completes (s := s) (sel := sel) rd rs (k := k))
    (And.intro (fun k => wrapc_raises_numeric (s := s) (sel := sel) rd rs (k := k))
      (wrapc_raises_nonconverge (s := s) (sel := sel) rd rs))
  cases sel <;> exact loop

/-! ## The carrier scale is finite -/

theorem Fp.abs_realOf_lt {a : Num64} (h : Fp.isFinite a = true) :
    |realOf a| < (2 : ℝ) ^ (1024 : ℕ) - 2 ^ (970 : ℕ) := by
  have hle : Fp.magBits a ≤ 0x7FEFFFFFFFFFFFFF := by
    rw [Fp.isFinite_iff] at h
    omega
  rw [realOf_eq, abs_signFactor_mul, abs_of_nonneg (magValue_nonneg _), ← magMid_top64]
  exact (magValue_strictMono.monotone hle).trans_lt (magMid_bounds _).1

theorem Fp.isFinite_of_not_special {a : Num64} (hnan : Fp.isNaN a = false) (hinf : ¬Fp.isInf a = true) :
    Fp.isFinite a = true := by
  rw [← Bool.not_eq_true, Fp.isNaN_iff] at hnan
  rw [Fp.isInf_iff] at hinf
  rw [Fp.isFinite_iff]
  omega

/-- A number no larger than a finite datum rounds to a finite one. -/
theorem RoundsTo.isFinite_of_abs_le {r a : Num64} {x : ℝ} (h : RoundsTo r x) (ha : Fp.isFinite a = true)
    (hx : |x| ≤ |realOf a|) : Fp.isFinite r = true := by
  obtain ⟨hnan, hinf, -⟩ := h
  refine Fp.isFinite_of_not_special hnan fun hi => ?_
  exact absurd (hinf.mp hi) (not_le.mpr (hx.trans_lt (Fp.abs_realOf_lt ha)))

theorem isFinite_quarterOf {F : Num64} (h : Fp.isFinite F = true) : Fp.isFinite (quarterOf binary64 F) = true := by
  obtain ⟨finFour, four⟩ := Fp.ofInt_exact (n := 4) (by norm_num)
  have rounds := Fp.div_roundsTo h finFour (by rw [four]; norm_num)
  refine rounds.isFinite_of_abs_le h ?_
  rw [four, abs_div]
  exact div_le_self (abs_nonneg _) (by norm_num)

theorem cfgLegal_isFinite_fC {c : Cfg} (h : cfgLegal c = true) : Fp.isFinite c.fC = true := by
  simp only [cfgLegal, Bool.and_eq_true] at h
  tauto

theorem isFinite_carrierScale {s : State} (h : cfgLegal s.cfg = true) (sel : Scale) :
    Fp.isFinite (carrierScale s sel) = true := by
  have hF := cfgLegal_isFinite_fC h
  cases sel with
  | full => exact hF
  | quarter => exact isFinite_quarterOf hF

/-! ## The range of the result -/

/-- A datum that is not NaN and for which neither comparison of the sweeps holds. -/
theorem Fp.inRange_of_not_lt {F x : Num64} (hF : Fp.isFinite F = true) (hnan : Fp.isNaN x = false)
    (hhi : Fp.lt F x = false) (hlo : Fp.lt x Fp.posZero = false) :
    Fp.isFinite x = true ∧ 0 ≤ realOf x ∧ realOf x ≤ realOf F := by
  have hzero : Fp.isFinite Fp.posZero = true := by decide
  have realZero : realOf Fp.posZero = 0 := by
    rw [realOf_eq, show Fp.magBits Fp.posZero = 0 from rfl, magValue_zero, mul_zero]
  have hx : Fp.isFinite x = true := Fp.isFinite_of_not_special hnan fun hinf => by
    obtain ⟨above, -, -⟩ := Fp.compare_inf hF hinf
    obtain ⟨-, below, -⟩ := Fp.compare_inf hzero hinf
    rw [hhi] at above
    rw [hlo] at below
    rw [← below] at above
    exact absurd above (by decide)
  obtain ⟨upper, -, -⟩ := Fp.compare_finite hF hx
  obtain ⟨lower, -, -⟩ := Fp.compare_finite hx hzero
  rw [← Bool.not_eq_true, upper, not_lt] at hhi
  rw [← Bool.not_eq_true, lower, realZero, not_lt] at hlo
  exact ⟨hx, hlo, hhi⟩

theorem forall_inRange_of_wrapCorrect_ok {F : Num64} {n : Nat} {xs ys : List Num64} (hF : Fp.isFinite F = true)
    (h : wrapCorrect binary64 F n xs = .ok ys) :
    ∀ x ∈ ys, Fp.isFinite x = true ∧ 0 ≤ realOf x ∧ realOf x ≤ realOf F := by
  obtain ⟨noNaN, inRange, -⟩ := wrapCorrect_ok binary64 h
  obtain ⟨notAbove, notBelow⟩ := Bool.or_eq_false_iff.mp inRange
  rw [List.any_eq_false] at noNaN notAbove notBelow
  exact fun x hx => Fp.inRange_of_not_lt hF (Bool.eq_false_iff.mpr (noNaN x hx))
    (Bool.eq_false_iff.mpr (notAbove x hx)) (Bool.eq_false_iff.mpr (notBelow x hx))

/-- Without a fault the result is that of a pass that succeeded. -/
theorem forall_inRange_of_exec_wrapc {rd rs : VReg} {sel : Scale} {s t : State} (hlegal : cfgLegal s.cfg = true)
    (hexec : exec (.wrapc rd rs sel) s = .next t) (hfault : t.ostate ≠ .fault) :
    ∀ x ∈ t.readV rd, Fp.isFinite x = true ∧ 0 ≤ realOf x ∧ realOf x ≤ realOf (carrierScale s sel) := by
  cases hpass : wrapCorrect binary64 (carrierScale s sel) s.cfg.wrapIterMax (s.readV rs) with
  | error c =>
    rw [exec_wrapc_of_error rd rs hpass] at hexec
    cases hexec
    exact absurd rfl hfault
  | ok xs =>
    rw [exec_wrapc_of_ok rd rs hpass] at hexec
    cases hexec
    rw [readV_complete_writeV]
    exact forall_inRange_of_wrapCorrect_ok (isFinite_carrierScale hlegal sel) hpass

/-- Settles O51: both scales are the selected carrier scale. -/
theorem wrapcResultIsInRange : Obligations.WrapcResultIsInRange := by
  intro rd rs sel s t hlegal hexec _ hfault
  have inRange := forall_inRange_of_exec_wrapc hlegal hexec hfault
  cases sel <;> exact inRange

end Sys2Proof.Machine
end

section
/-!
PROOFS. WRAPC in the exact reading (42_fm_demodulator.md R177): what one sweep does to a sample, and the closed form
(O52).
-/
namespace Sys2Proof.Machine

section
variable {F x : ℝ}

/-! ## The sweeps a sample needs, and where they take it -/

theorem sweepsNeeded_of_above (h : F < x) : sweepsNeeded F x = ⌈x / F⌉₊ - 1 := if_pos h

theorem sweepsNeeded_of_below (hF : 0 < F) (h : x < 0) : sweepsNeeded F x = ⌈-x / F⌉₊ := by
  rw [sweepsNeeded, if_neg (by linarith), if_pos h]

theorem sweepsNeeded_of_inRange (h0 : 0 ≤ x) (h1 : x ≤ F) : sweepsNeeded F x = 0 := by
  rw [sweepsNeeded, if_neg (by linarith), if_neg (by linarith)]

theorem wrappedValue_of_inRange (h0 : 0 ≤ x) (h1 : x ≤ F) : wrappedValue F x = x := by
  rw [wrappedValue, if_neg (by linarith), if_neg (by linarith)]

theorem wrappedValue_of_nonneg (h : 0 ≤ x) : wrappedValue F x = x - sweepsNeeded F x * F := by
  rcases lt_or_ge F x with above | hle
  · exact if_pos above
  · rw [wrappedValue_of_inRange h hle, sweepsNeeded_of_inRange h hle]
    simp

theorem wrappedValue_of_le (h : x ≤ F) : wrappedValue F x = x + sweepsNeeded F x * F := by
  rcases lt_or_ge x 0 with below | hge
  · exact (if_neg (not_lt.mpr h)).trans (if_pos below)
  · rw [wrappedValue_of_inRange hge h, sweepsNeeded_of_inRange hge h]
    simp

/-! ## One scale down or up is one sweep less -/

theorem sweepsNeeded_of_above_eq_succ (hF : 0 < F) (h : F < x) : sweepsNeeded F x = sweepsNeeded F (x - F) + 1 := by
  have quotient : x / F = (x - F) / F + 1 := by rw [sub_div, div_self hF.ne', sub_add_cancel]
  have hpos : 0 < (x - F) / F := div_pos (sub_pos.mpr h) hF
  rw [sweepsNeeded_of_above h, quotient, Nat.ceil_add_one hpos.le]
  rcases lt_or_ge F (x - F) with still | inside
  · have := Nat.ceil_pos.mpr hpos
    rw [sweepsNeeded_of_above still]
    omega
  · have last : ⌈(x - F) / F⌉₊ = 1 :=
      (Nat.ceil_eq_iff one_ne_zero).mpr ⟨by simpa using hpos, by simpa using (div_le_one hF).mpr inside⟩
    rw [sweepsNeeded_of_inRange (by linarith) inside, last]

theorem sweepsNeeded_of_below_eq_succ (hF : 0 < F) (h : x < 0) : sweepsNeeded F x = sweepsNeeded F (x + F) + 1 := by
  rw [sweepsNeeded_of_below hF h]
  rcases lt_or_ge (x + F) 0 with still | inside
  · have quotient : -x / F = -(x + F) / F + 1 := by field_simp; ring
    rw [sweepsNeeded_of_below hF still, quotient, Nat.ceil_add_one (div_nonneg (by linarith) hF.le)]
  · rw [sweepsNeeded_of_inRange inside (by linarith)]
    have hpos : 0 < -x / F := div_pos (neg_pos.mpr h) hF
    exact (Nat.ceil_eq_iff one_ne_zero).mpr ⟨by simpa using hpos, by simpa using (div_le_one hF).mpr (by linarith)⟩

theorem wrappedValue_sub (hF : 0 < F) (h : F < x) : wrappedValue F (x - F) = wrappedValue F x := by
  rw [wrappedValue_of_nonneg (by linarith), wrappedValue_of_nonneg (by linarith),
    sweepsNeeded_of_above_eq_succ hF h]
  push_cast
  ring

theorem wrappedValue_add (hF : 0 < F) (h : x < 0) : wrappedValue F (x + F) = wrappedValue F x := by
  rw [wrappedValue_of_le (by linarith), wrappedValue_of_le (by linarith), sweepsNeeded_of_below_eq_succ hF h]
  push_cast
  ring

/-! ## Where the sample ends -/

theorem wrappedValue_of_above_bounds (hF : 0 < F) (h : F < x) : 0 < wrappedValue F x ∧ wrappedValue F x ≤ F := by
  have hpos : 0 < x / F := div_pos (hF.trans h) hF
  have needed : (sweepsNeeded F x : ℝ) = ⌈x / F⌉₊ - 1 := by
    rw [sweepsNeeded_of_above h, Nat.cast_sub (Nat.ceil_pos.mpr hpos), Nat.cast_one]
  have upper := (div_le_iff₀ hF).mp (Nat.le_ceil (x / F))
  have lower := (lt_div_iff₀ hF).mp (sub_lt_iff_lt_add.mpr (Nat.ceil_lt_add_one hpos.le))
  rw [wrappedValue_of_nonneg (hF.trans h).le, needed]
  constructor <;> linarith

theorem wrappedValue_of_below_bounds (hF : 0 < F) (h : x < 0) : 0 ≤ wrappedValue F x ∧ wrappedValue F x < F := by
  have upper := (div_le_iff₀ hF).mp (Nat.le_ceil (-x / F))
  have lower := (lt_div_iff₀ hF).mp
    (sub_lt_iff_lt_add.mpr (Nat.ceil_lt_add_one (div_pos (neg_pos.mpr h) hF).le))
  rw [wrappedValue_of_le (h.trans hF).le, sweepsNeeded_of_below hF h]
  constructor <;> linarith

/-! ## One sweep of one sample -/

/-- A sample after one sweep down and one sweep up. -/
noncomputable def sweepSample (F x : ℝ) : ℝ := if F < x then x - F else if x < 0 then x + F else x

/-- A sample that the sweep down moved is still positive, so the sweep up leaves it. -/
theorem sweep_exact (v : List ℝ) : sweep exactReals F v = v.map (sweepSample F) := by
  have pointwise (x : ℝ) : (if (if F < x then x - F else x) < 0 then (if F < x then x - F else x) + F
      else if F < x then x - F else x) = sweepSample F x := by
    unfold sweepSample
    split
    · rw [if_neg (by linarith)]
    · rfl
  rw [sweep, sweepUp, sweepDown, List.map_map]
  refine List.map_congr_left fun x _ => Eq.trans ?_ (pointwise x)
  simp [exactReals]

/-- One sweep uses up one of the sweeps needed and keeps where they lead. -/
theorem sweepSample_spec (hF : 0 < F) (x : ℝ) :
    sweepsNeeded F (sweepSample F x) = sweepsNeeded F x - 1 ∧ wrappedValue F (sweepSample F x) = wrappedValue F x := by
  unfold sweepSample
  split
  · rename_i above
    rw [sweepsNeeded_of_above_eq_succ hF above]
    exact ⟨rfl, wrappedValue_sub hF above⟩
  · split
    · rename_i below
      rw [sweepsNeeded_of_below_eq_succ hF below]
      exact ⟨rfl, wrappedValue_add hF below⟩
    · rename_i hle hge
      rw [sweepsNeeded_of_inRange (not_lt.mp hge) (not_lt.mp hle)]
      exact ⟨rfl, rfl⟩

theorem sweepsNeeded_eq_zero_iff (hF : 0 < F) : sweepsNeeded F x = 0 ↔ 0 ≤ x ∧ x ≤ F := by
  refine ⟨fun h => ⟨?_, ?_⟩, fun ⟨h0, h1⟩ => sweepsNeeded_of_inRange h0 h1⟩
  · by_contra hc
    rw [sweepsNeeded_of_below_eq_succ hF (not_le.mp hc)] at h
    exact Nat.succ_ne_zero _ h
  · by_contra hc
    rw [sweepsNeeded_of_above_eq_succ hF (not_le.mp hc)] at h
    exact Nat.succ_ne_zero _ h

/-! ## The pass -/

theorem outOfRange_exact_iff (hF : 0 < F) (v : List ℝ) :
    outOfRange exactReals F v = true ↔ ∃ x ∈ v, 0 < sweepsNeeded F x := by
  have outside (x : ℝ) : 0 < sweepsNeeded F x ↔ F < x ∨ x < 0 := by
    rw [Nat.pos_iff_ne_zero, Ne, sweepsNeeded_eq_zero_iff hF, not_and_or, not_le, not_le, or_comm]
  simp only [outside, outOfRange, exactReals, Bool.or_eq_true, List.any_eq_true, decide_eq_true_eq, and_or_left,
    exists_or]

theorem not_isNaN_exact (v : List ℝ) : v.any exactReals.isNaN = false :=
  List.any_eq_false.mpr fun _ _ => Bool.false_ne_true

/-- A sequence whose samples need no sweep is the answer at once. -/
theorem wrapCorrect_exact_of_inRange (hF : 0 < F) (cap : Nat) {v : List ℝ} (h : ∀ x ∈ v, sweepsNeeded F x = 0) :
    wrapCorrect exactReals F cap v = .ok (v.map (wrappedValue F)) := by
  have stays : v.map (wrappedValue F) = v := (List.map_congr_left fun x hx => by
    obtain ⟨h0, h1⟩ := (sweepsNeeded_eq_zero_iff hF).mp (h x hx)
    exact wrappedValue_of_inRange h0 h1).trans (List.map_id v)
  rw [stays]
  refine wrapCorrect_of_inRange cap (not_isNaN_exact v) ?_
  rw [← Bool.not_eq_true, outOfRange_exact_iff hF]
  rintro ⟨x, hx, hpos⟩
  exact hpos.ne' (h x hx)

/-- A sequence with a sample that needs a sweep gets one, if the cap allows it. -/
theorem violates_exact (hF : 0 < F) {v : List ℝ} (h : ∃ x ∈ v, 0 < sweepsNeeded F x) : Violates exactReals F v :=
  ⟨not_isNaN_exact v, (outOfRange_exact_iff hF v).mpr h⟩

/-- The answer of the pass, by induction on the cap: a sweep takes one from what every sample needs. -/
theorem wrapCorrect_exact (hF : 0 < F) (cap : Nat) (v : List ℝ) :
    ((∀ x ∈ v, sweepsNeeded F x ≤ cap) → wrapCorrect exactReals F cap v = .ok (v.map (wrappedValue F))) ∧
    ((∃ x ∈ v, cap < sweepsNeeded F x) → wrapCorrect exactReals F cap v = .error .decodeNonconverge) := by
  induction cap generalizing v with
  | zero =>
    exact ⟨fun h => wrapCorrect_exact_of_inRange hF 0 fun x hx => Nat.le_zero.mp (h x hx),
      fun h => wrapCorrect_zero_of_violates (violates_exact hF h)⟩
  | succ n ih =>
    by_cases hv : ∃ x ∈ v, 0 < sweepsNeeded F x
    · obtain ⟨converges, fails⟩ := ih (v.map (sweepSample F))
      have values : (v.map (sweepSample F)).map (wrappedValue F) = v.map (wrappedValue F) := by
        rw [List.map_map]
        exact List.map_congr_left fun x _ => (sweepSample_spec hF x).2
      rw [wrapCorrect_succ_of_violates n (violates_exact hF hv), sweep_exact, ← values]
      refine ⟨fun h => converges (List.forall_mem_map.mpr fun x hx => ?_),
        fun ⟨x, hx, h⟩ => fails ⟨_, List.mem_map_of_mem hx, ?_⟩⟩
      · have := h x hx
        rw [(sweepSample_spec hF x).1]
        omega
      · rw [(sweepSample_spec hF x).1]
        omega
    · have settled : ∀ x ∈ v, sweepsNeeded F x = 0 := fun x hx => Nat.eq_zero_of_not_pos fun h => hv ⟨x, hx, h⟩
      exact ⟨fun _ => wrapCorrect_exact_of_inRange hF _ settled,
        fun ⟨x, hx, h⟩ => absurd ⟨x, hx, Nat.zero_lt_of_lt h⟩ hv⟩

end

/-- Settles O52: the pass by induction on the cap, each value by the ceiling that counts its sweeps. -/
theorem exactWrapcHasAClosedForm : Obligations.ExactWrapcHasAClosedForm := by
  intro F cap v hF
  obtain ⟨converges, fails⟩ := wrapCorrect_exact hF cap v
  exact ⟨converges, fails, fun _ _ => ⟨wrappedValue_of_inRange, wrappedValue_of_above_bounds hF,
    wrappedValue_of_below_bounds hF⟩⟩

end Sys2Proof.Machine
end

section
/-!
PROOFS. The analytic signal in the exact reading (42_fm_demodulator.md R165): the weights of two conjugate frequencies
add up to two, so the real part is the inverse transform of the transform (O53).
-/
namespace Sys2Proof.Machine

/-! ## Roots of unity -/

/-- `e^(2πi/N)`. -/
noncomputable def unitRoot (N : Nat) : ℂ := Complex.exp (2 * Real.pi * Complex.I / N)

theorem unitRoot_pow_ne_zero (N n : Nat) : unitRoot N ^ n ≠ 0 := pow_ne_zero _ (Complex.exp_ne_zero _)

theorem isPrimitiveRoot_unitRoot {N : Nat} (hN : N ≠ 0) : IsPrimitiveRoot (unitRoot N) N :=
  Complex.isPrimitiveRoot_exp N hN

theorem rootPower_eq_pow (N k n : Nat) : rootPower N k n = unitRoot N ^ (k * n) := by
  rw [rootPower, unitRoot, ← Complex.exp_nat_mul]
  congr 1
  push_cast
  ring

/-- The quotient of two samples of the first frequency, of which every frequency takes a power. -/
noncomputable def lagRoot (N n m : Nat) : ℂ := unitRoot N ^ n * (unitRoot N ^ m)⁻¹

theorem rootPower_mul_inv (N k n m : Nat) :
    rootPower N k n * (rootPower N k m)⁻¹ = lagRoot N n m ^ k := by
  rw [rootPower_eq_pow, rootPower_eq_pow, lagRoot, mul_pow, inv_pow, ← pow_mul, ← pow_mul, Nat.mul_comm n,
    Nat.mul_comm m]

section
variable {N n m : Nat}

theorem lagRoot_pow_card (hN : N ≠ 0) : lagRoot N n m ^ N = 1 := by
  have hroot : unitRoot N ^ N = 1 := (isPrimitiveRoot_unitRoot hN).pow_eq_one
  rw [lagRoot, mul_pow, inv_pow, pow_right_comm, hroot, one_pow, pow_right_comm, hroot, one_pow, inv_one, one_mul]

theorem lagRoot_self (n : Nat) : lagRoot N n n = 1 := mul_inv_cancel₀ (unitRoot_pow_ne_zero N n)

theorem lagRoot_ne_one (hn : n < N) (hm : m < N) (h : n ≠ m) : lagRoot N n m ≠ 1 := by
  intro hone
  rw [lagRoot, mul_inv_eq_one₀ (unitRoot_pow_ne_zero N m)] at hone
  exact h ((isPrimitiveRoot_unitRoot (Nat.ne_zero_of_lt hn)).pow_inj hn hm hone)

/-- The powers of a root of unity other than one add up to zero. -/
theorem sum_lagRoot_pow (hn : n < N) (hm : m < N) :
    ∑ k ∈ Finset.range N, lagRoot N n m ^ k = if n = m then (N : ℂ) else 0 := by
  split
  · rename_i h
    rw [h, lagRoot_self]
    simp
  · rename_i h
    rw [geom_sum_eq (lagRoot_ne_one hn hm h), lagRoot_pow_card (Nat.ne_zero_of_lt hn), sub_self, zero_div]

end

/-! ## The weights -/

theorem spectrumWeight_zero (N : Nat) : spectrumWeight N 0 = 1 := if_pos rfl

theorem spectrumWeight_of_pos {N k : Nat} (h : 0 < k) :
    spectrumWeight N k = if 2 * k = N then 1 else if 2 * k < N then 2 else 0 := if_neg h.ne'

/-- A frequency and its conjugate one have weights 2 and 0, or 1 and 1. -/
theorem spectrumWeight_add_conj {N k : Nat} (h0 : 0 < k) (hk : k < N) :
    spectrumWeight N k + spectrumWeight N (N - k) = 2 := by
  rw [spectrumWeight_of_pos h0, spectrumWeight_of_pos (Nat.sub_pos_of_lt hk)]
  rcases lt_trichotomy (2 * k) N with h | h | h
  · rw [if_neg h.ne, if_pos h, if_neg (by omega), if_neg (by omega)]
    norm_num
  · rw [if_pos h, if_pos (by omega)]
    norm_num
  · rw [if_neg h.ne', if_neg (by omega), if_neg (by omega), if_pos (by omega)]
    norm_num

/-- A sum over the frequencies in which conjugate ones cancel. -/
theorem sum_eq_zero_of_conj {N : Nat} {g : Nat → ℝ} (h0 : g 0 = 0) (h : ∀ k, 0 < k → k < N → g (N - k) = -g k) :
    ∑ k ∈ Finset.range N, g k = 0 := by
  cases N with
  | zero => rfl
  | succ M =>
    have reflected : ∑ k ∈ Finset.range M, g (k + 1) = -∑ k ∈ Finset.range M, g (k + 1) := by
      rw [← Finset.sum_neg_distrib, ← Finset.sum_range_reflect]
      refine Finset.sum_congr rfl fun k hk => ?_
      have hlt := Finset.mem_range.mp hk
      rw [← h (k + 1) (Nat.succ_pos k) (by omega)]
      congr 1
      omega
    rw [Finset.sum_range_succ', h0, add_zero]
    linarith

/-- The powers of a root of unity at conjugate frequencies are conjugate. -/
theorem re_pow_sub {z : ℂ} {N k : Nat} (hz : z ^ N = 1) (hk : k < N) : (z ^ (N - k)).re = (z ^ k).re := by
  have hunit : ‖z ^ k‖ = 1 := by
    rw [norm_pow, Complex.norm_eq_one_of_pow_eq_one hz (Nat.ne_zero_of_lt hk), one_pow]
  have hinv : z ^ (N - k) = (z ^ k)⁻¹ := by
    refine eq_inv_of_mul_eq_one_left ?_
    rw [← pow_add, Nat.sub_add_cancel hk.le, hz]
  rw [hinv, Complex.inv_eq_conj hunit, Complex.conj_re]

/-- In the real part the one-sided weights are as good as ones. -/
theorem re_weighted_sum {z : ℂ} {N : Nat} (hz : z ^ N = 1) :
    (∑ k ∈ Finset.range N, (spectrumWeight N k : ℂ) * z ^ k).re = (∑ k ∈ Finset.range N, z ^ k).re := by
  have cancel : ∑ k ∈ Finset.range N, (spectrumWeight N k - 1) * (z ^ k).re = 0 := by
    refine sum_eq_zero_of_conj ?_ fun k h0 hk => ?_
    · rw [spectrumWeight_zero, sub_self, zero_mul]
    · rw [re_pow_sub hz hk, ← neg_mul]
      congr 1
      linarith [spectrumWeight_add_conj h0 hk]
  rw [Complex.re_sum, Complex.re_sum, ← sub_eq_zero, ← Finset.sum_sub_distrib, ← cancel]
  refine Finset.sum_congr rfl fun k _ => ?_
  rw [Complex.re_ofReal_mul, sub_one_mul]

/-! ## The analytic signal -/

/-- The analytic signal as a weighted sum of the window's samples. -/
theorem analyticValue_eq_sum (w : List ℝ) (n : Nat) :
    analyticValue w n = ∑ m ∈ Finset.range w.length, ((w.getD m 0 / w.length : ℝ) : ℂ) *
      ∑ k ∈ Finset.range w.length, (spectrumWeight w.length k : ℂ) * lagRoot w.length n m ^ k := by
  simp only [analyticValue, dftExact, Finset.mul_sum, Finset.sum_mul, ← rootPower_mul_inv]
  rw [Finset.sum_comm]
  refine Finset.sum_congr rfl fun m _ => Finset.sum_congr rfl fun k _ => ?_
  push_cast
  ring

theorem analyticValue_re {w : List ℝ} {n : Nat} (hn : n < w.length) : (analyticValue w n).re = w.getD n 0 := by
  have hN : w.length ≠ 0 := Nat.ne_zero_of_lt hn
  have kernel (m : Nat) (hm : m < w.length) :
      (∑ k ∈ Finset.range w.length, (spectrumWeight w.length k : ℂ) * lagRoot w.length n m ^ k).re =
        if n = m then (w.length : ℝ) else 0 := by
    rw [re_weighted_sum (lagRoot_pow_card hN), sum_lagRoot_pow hn hm]
    split <;> simp
  calc (analyticValue w n).re
      = ∑ m ∈ Finset.range w.length, w.getD m 0 / w.length * if n = m then (w.length : ℝ) else 0 := by
        rw [analyticValue_eq_sum, Complex.re_sum]
        refine Finset.sum_congr rfl fun m hm => ?_
        rw [Complex.re_ofReal_mul, kernel m (Finset.mem_range.mp hm)]
    _ = w.getD n 0 / w.length * w.length := by
        simp only [mul_ite, mul_zero, Finset.sum_ite_eq, Finset.mem_range, hn, if_true]
    _ = w.getD n 0 := div_mul_cancel₀ _ (Nat.cast_ne_zero.mpr hN)

/-- Settles O53: sample by sample, the real part is the window's sample. -/
theorem exactAnalyticKeepsTheWindow : Obligations.ExactAnalyticKeepsTheWindow := by
  intro w
  show (analyticExact w).map Prod.fst = w
  rw [analyticExact, List.map_map]
  refine List.ext_getElem (by simp) fun n hn _ => ?_
  have hlt : n < w.length := by simpa using hn
  rw [List.getElem_map, List.getElem_range]
  show (analyticValue w n).re = w[n]
  rw [analyticValue_re hlt, List.getD_eq_getElem _ _ hlt]

end Sys2Proof.Machine
end

section
/-!
PROOFS. The video stage: the bytes of the block as exact numbers (O30) and the map to IRE (O56).
-/
namespace Sys2Proof.Machine

/-! ## IREMAP (43_video_stage.md R187) -/

/-- Settles O56: the range and the scale are those that CONFIG.WIDE picks, once for all samples. -/
theorem iremapMapsHzToIre : Obligations.IremapMapsHzToIre := by
  intro rd rs s
  refine ⟨_, rfl, writesOnlyV_complete_writeV s rd _, ?_⟩
  rw [readV_complete_writeV]
  rfl

/-! ## LDBLK (43_video_stage.md R186) -/

/-- `num(n)` has the sign of `n`, and zero is positive (00_scope.md R13). -/
theorem Fp.signBit_ofInt (n : Int) : Fp.signBit (Fp.ofInt n) = decide (n < 0) := Fp.signBit_round _ _ _

theorem sampleOfByte_exact (b : Byte) :
    Fp.isFinite (sampleOfByte binary64 b) = true ∧ Fp.signBit (sampleOfByte binary64 b) = false ∧
    realOf (sampleOfByte binary64 b) = (b.toNat : ℝ) := by
  have hb : b.toNat < 256 := b.isLt
  obtain ⟨fin, value⟩ := Fp.ofInt_exact (n := (b.toNat : ℤ)) (by omega)
  have sign : Fp.signBit (Fp.ofInt (b.toNat : ℤ)) = false := by
    rw [Fp.signBit_ofInt, decide_eq_false_iff_not]
    omega
  exact ⟨fin, sign, value.trans (Int.cast_natCast _)⟩

theorem Memory.byteAt_of_read {m : Memory} {j : Nat} {b : Byte} (h : m.read j = some b) : m.byteAt j = b := by
  rw [Memory.byteAt, h, Option.getD_some]

theorem Memory.bytes_getElem?_of_read {m : Memory} {n j : Nat} {b : Byte} (hj : j < n) (h : m.read j = some b) :
    (m.bytes n)[j]? = some b := by
  rw [Memory.bytes_getElem?, if_pos hj, Memory.byteAt_of_read h]

/-- Settles O30: a byte is far below 2^53, so its conversion is exact. -/
theorem ldblkLoadsTheBytesExactly : Obligations.LdblkLoadsTheBytesExactly := by
  intro rd s
  refine ⟨_, rfl, writesOnlyV_complete_writeV s rd _, ?_⟩
  rw [readV_complete_writeV]
  refine ⟨by rw [List.length_map, Memory.bytes_length], fun j b hj hb => ⟨_, ?_, sampleOfByte_exact b⟩⟩
  rw [List.getElem?_map, Memory.bytes_getElem?_of_read hj hb, Option.map_some]

end Sys2Proof.Machine
end

section
/-!
PROOFS. EMIT16 (43_video_stage.md R188): the clip as two bounds on a datum, the truncation as the floor of the number,
and the codes it pushes (O31).
-/
namespace Sys2Proof.Machine

/-! ## The clip, one end at a time -/

/-- The datum `x`, or `lo` where `x` is below it. -/
def atLeast (lo x : Num64) : Num64 := if Fp.lt x lo then lo else x

/-- The datum `x`, or `hi` where `x` is above it. -/
def atMost (hi x : Num64) : Num64 := if Fp.lt hi x then hi else x

/-- The scaled sample between the two ends of the codes. -/
def clipToCodes (x : Num64) : Num64 := atMost (Fp.ofInt 65535) (atLeast (Fp.ofInt 0) x)

theorem clipCode_eq (x : Num64) : clipCode binary64 x = Fp.trunc (clipToCodes x) := rfl

section
variable {lo hi x : Num64}

theorem atLeast_finite (hlo : Fp.isFinite lo = true) (hx : Fp.isFinite x = true) :
    Fp.isFinite (atLeast lo x) = true ∧ realOf (atLeast lo x) = max (realOf lo) (realOf x) := by
  obtain ⟨below, -, -⟩ := Fp.compare_finite hx hlo
  unfold atLeast
  split
  · rename_i h
    exact ⟨hlo, (max_eq_left (below.mp h).le).symm⟩
  · rename_i h
    exact ⟨hx, (max_eq_right (not_lt.mp (mt below.mpr h))).symm⟩

theorem atMost_finite (hhi : Fp.isFinite hi = true) (hx : Fp.isFinite x = true) :
    Fp.isFinite (atMost hi x) = true ∧ realOf (atMost hi x) = min (realOf hi) (realOf x) := by
  obtain ⟨above, -, -⟩ := Fp.compare_finite hhi hx
  unfold atMost
  split
  · rename_i h
    exact ⟨hhi, (min_eq_left (above.mp h).le).symm⟩
  · rename_i h
    exact ⟨hx, (min_eq_right (not_lt.mp (mt above.mpr h))).symm⟩

theorem atLeast_infinite (hlo : Fp.isFinite lo = true) (hx : Fp.isInf x = true) :
    atLeast lo x = if Fp.signBit x then lo else x := by
  obtain ⟨-, below, -⟩ := Fp.compare_inf hlo hx
  rw [atLeast, below]

theorem atMost_infinite (hhi : Fp.isFinite hi = true) (hx : Fp.isInf x = true) :
    atMost hi x = if Fp.signBit x then x else hi := by
  obtain ⟨above, -, -⟩ := Fp.compare_inf hhi hx
  rw [atMost, above]
  cases Fp.signBit x <;> rfl

theorem realOf_clipToCodes (hx : Fp.isFinite x = true) :
    realOf (clipToCodes x) = max 0 (min 65535 (realOf x)) := by
  obtain ⟨finLo, lo⟩ := Fp.ofInt_exact (n := 0) (by norm_num)
  obtain ⟨finHi, hi⟩ := Fp.ofInt_exact (n := 65535) (by norm_num)
  obtain ⟨finLow, low⟩ := atLeast_finite finLo hx
  obtain ⟨-, high⟩ := atMost_finite finHi finLow
  calc realOf (clipToCodes x) = min 65535 (max 0 (realOf x)) := by
        rw [clipToCodes, high, low, lo, hi, Int.cast_ofNat, Int.cast_zero]
    _ = max 0 (min 65535 (realOf x)) := by
        rw [max_min_distrib_left, max_eq_right (by norm_num : (0 : ℝ) ≤ 65535)]

/-- The lower bound takes the negative infinity, the upper one the positive. -/
theorem realOf_clipToCodes_of_isInf (hx : Fp.isInf x = true) :
    realOf (clipToCodes x) = if Fp.signBit x then 0 else 65535 := by
  obtain ⟨finLo, lo⟩ := Fp.ofInt_exact (n := 0) (by norm_num)
  obtain ⟨finHi, hi⟩ := Fp.ofInt_exact (n := 65535) (by norm_num)
  rw [clipToCodes, atLeast_infinite finLo hx]
  cases hs : Fp.signBit x with
  | true =>
    obtain ⟨-, high⟩ := atMost_finite finHi finLo
    rw [if_pos rfl, if_pos rfl, high, lo, hi]
    norm_num
  | false =>
    rw [if_neg Bool.false_ne_true, if_neg Bool.false_ne_true, atMost_infinite finHi hx, hs,
      if_neg Bool.false_ne_true, hi, Int.cast_ofNat]

end

/-! ## The truncation -/

/-- `trunc` drops the fraction of the magnitude (00_scope.md R13). -/
theorem Fp.trunc_eq_floor_abs (a : Num64) : Fp.trunc a = ⌊|realOf a|⌋₊ := by
  have magnitude : |realOf a| = (Fp.significand a : ℝ) * (2 : ℝ) ^ Fp.ulpExp a := by
    rw [realOf_eq_significand, abs_signFactor_mul, abs_of_nonneg (by positivity)]
  rw [magnitude]
  simp only [Fp.trunc]
  split
  · rename_i h
    obtain ⟨k, hk⟩ := Int.eq_ofNat_of_zero_le h
    have product := Nat.floor_natCast (R := ℝ) (Fp.significand a * 2 ^ k)
    rw [Nat.cast_mul, Nat.cast_pow, Nat.cast_ofNat] at product
    rw [hk, zpow_natCast, Int.toNat_natCast, product]
  · rename_i h
    obtain ⟨k, hk⟩ := Int.eq_ofNat_of_zero_le (a := -Fp.ulpExp a) (by omega)
    have quotient := Nat.floor_div_eq_div (K := ℝ) (Fp.significand a) (2 ^ k)
    rw [Nat.cast_pow, Nat.cast_ofNat] at quotient
    rw [← neg_neg (Fp.ulpExp a), hk, neg_neg, zpow_neg, zpow_natCast, ← div_eq_mul_inv, Int.toNat_natCast, quotient]

theorem isCodeOf_clipCode (x : Num64) : IsCodeOf x (clipCode binary64 x) := by
  rw [clipCode_eq, Fp.trunc_eq_floor_abs]
  refine ⟨fun hfin => ?_, fun hinf => ?_⟩
  · rw [realOf_clipToCodes hfin, abs_of_nonneg (le_max_left _ _)]
  · rw [realOf_clipToCodes_of_isInf hinf]
    cases Fp.signBit x <;> simp

/-! ## The codes of a register -/

theorem codeBytes_eq_littleEndian (u : Nat) : codeBytes u = littleEndian 2 u := by
  simp [codeBytes, littleEndian, List.range_succ]

section
variable {α : Type} {N : Numerics α} {scale : α} {xs : List α}

theorem videoCodes_of_notNaN (h : ∀ x ∈ xs, N.isNaN (N.mul x scale) = false) :
    videoCodes N scale xs = .ok (xs.map fun x => clipCode N (N.mul x scale)) := by
  have noNaN : (xs.map fun x => N.mul x scale).any N.isNaN = false := by
    rw [List.any_map, List.any_eq_false]
    exact fun x hx => Bool.eq_false_iff.mp (h x hx)
  rw [videoCodes, noNaN, List.map_map]
  rfl

theorem videoCodes_of_nan (h : ∃ x ∈ xs, N.isNaN (N.mul x scale) = true) :
    videoCodes N scale xs = .error .numeric := by
  have nan : (xs.map fun x => N.mul x scale).any N.isNaN = true := by
    rw [List.any_map, List.any_eq_true]
    exact h
  rw [videoCodes, nan]
  rfl

end

/-- Each code is that of the sample at its place. -/
theorem isCodeOf_of_getElem? {scale : Num64} {xs : List Num64} {i : Nat} {x : Num64} {u : Nat} (hx : xs[i]? = some x)
    (hu : (xs.map fun x => clipCode binary64 (Fp.mul x scale))[i]? = some u) : IsCodeOf (Fp.mul x scale) u := by
  rw [List.getElem?_map, hx, Option.map_some, Option.some_inj] at hu
  rw [← hu]
  exact isCodeOf_clipCode _

/-! ## The micro-operation -/

/-- A micro-operation that pushes output and completes (10_state.md R32). -/
theorem writesOnlyOutput_complete_emit (s : State) (bytes : List Byte) (n : Nat) :
    WritesOnlyOutput s (complete (s.emit bytes n)) :=
  ⟨fun _ => rfl, fun _ => rfl, fun _ => ⟨rfl, rfl⟩, ⟨rfl, rfl, rfl⟩,
    ⟨⟨rfl, fun _ => rfl⟩, ⟨rfl, rfl, rfl, rfl, rfl, rfl, rfl, rfl, rfl, rfl⟩, ⟨rfl, rfl, rfl, rfl⟩, rfl⟩, rfl⟩

section
variable {s : State} {rs : VReg}

theorem exec_emit16_of_ok {codes : List Nat} (h : videoCodes binary64 (outputScale s) (s.readV rs) = .ok codes) :
    exec (.emit16 rs) s = .next (complete (s.emit (codes.flatMap codeBytes) codes.length)) := by
  rw [exec, execEmit16, h]

theorem exec_emit16_of_error {c : Cause} (h : videoCodes binary64 (outputScale s) (s.readV rs) = .error c) :
    exec (.emit16 rs) s = .next (raise c s) := by
  rw [exec, execEmit16, h]

end

/-- Settles O31: the NaN test decides between the push of all codes and the fault. -/
theorem emit16PushesClippedCodes : Obligations.Emit16PushesClippedCodes := by
  intro rs s scale
  refine ⟨fun noNaN => ?_, fun nan => ?_⟩
  · have codes := videoCodes_of_notNaN (N := binary64) (scale := outputScale s) noNaN
    refine ⟨_, _, exec_emit16_of_ok codes, writesOnlyOutput_complete_emit s _ _, List.length_map _,
      fun _ _ _ => isCodeOf_of_getElem?, ?_, ?_⟩
    · exact congrArg (fun f => s.outq ++ List.flatMap f _) (funext codeBytes_eq_littleEndian)
    · exact congrArg (BitVec.ofNat 32) (List.length_map _)
  · have fails := videoCodes_of_nan (N := binary64) (scale := outputScale s) nan
    exact ⟨_, exec_emit16_of_error fails, faultTaken_raise .numeric s⟩

end Sys2Proof.Machine
end

section
/-!
PROOFS. The levels and the decimation of the audio stage: SUBCF (O54), CLIPDEV (O55) and DECIM (O40).
-/
namespace Sys2Proof.Machine

/-! ## SUBCF (44_audio_stage.md R202) -/

/-- Settles O54: the selector picks the centre once for all samples. -/
theorem subcfSubtractsTheCentre : Obligations.SubcfSubtractsTheCentre := by
  intro rd rs sel s
  refine ⟨_, rfl, writesOnlyV_complete_writeV s rd _, ?_⟩
  rw [readV_complete_writeV]
  cases sel <;> rfl

/-! ## DECIM (44_audio_stage.md R201) -/

/-- A kept index is below the length of the result exactly when the sample it names is in the source. -/
theorem lt_decimated_length_iff {n : Nat} (hn : 1 ≤ n) (len j : Nat) : j < (len + n - 1) / n ↔ n * j < len := by
  rw [← Nat.ceilDiv_eq_add_pred_div]
  exact lt_iff_lt_of_le_iff_le (ceilDiv_le_iff_le_mul hn)

theorem decimate_getElem? {α : Type} (N : Numerics α) {n : Nat} (hn : 1 ≤ n) (xs : List α) (j : Nat) :
    (decimate N n xs)[j]? = xs[n * j]? := by
  by_cases h : n * j < xs.length
  · have kept := (lt_decimated_length_iff hn xs.length j).mpr h
    rw [decimate, List.getElem?_map, List.getElem?_range kept, Option.map_some, List.getD_eq_getElem?_getD,
      List.getElem?_eq_getElem h, Option.getD_some]
  · have beyond := mt (lt_decimated_length_iff hn xs.length j).mp h
    rw [List.getElem?_eq_none (not_lt.mp h), List.getElem?_eq_none (by rwa [decimate_length, ← not_lt])]

theorem exec_decim_of_pos (rd rs : VReg) {imm : Nat} (s : State) (h : 1 ≤ imm) :
    exec (.decim rd rs imm) s = .next (complete (s.writeV rd (decimate binary64 imm (s.readV rs)))) := by
  rw [exec, execDecim, if_neg (Nat.ne_zero_of_lt h)]

/-- Settles O40: the samples are those of the decimated list; the factor is tested first. -/
theorem decimKeepsEveryNthSample : Obligations.DecimKeepsEveryNthSample := by
  intro rd rs imm s
  refine ⟨fun h => ?_, ?_⟩
  · refine ⟨_, exec_decim_of_pos rd rs s h, writesOnlyV_complete_writeV s rd _, ?_⟩
    rw [readV_complete_writeV]
    exact ⟨decimate_length binary64 imm _, decimate_getElem? binary64 h _⟩
  · rintro rfl
    exact ⟨_, rfl, faultTaken_raise .illegalUop s⟩

/-! ## CLIPDEV (44_audio_stage.md R203) -/

/-- The upper end of the kept range; the lower one is its negation. -/
def deviationLimit : Num64 := Fp.ofInt Config.devClip

theorem deviationLimit_exact : Fp.isFinite deviationLimit = true ∧ realOf deviationLimit = 150000 := by
  obtain ⟨fin, value⟩ := Fp.ofInt_exact (n := Config.devClip) (by decide)
  exact ⟨fin, value.trans (by norm_num [Config.devClip])⟩

theorem neg_deviationLimit_exact :
    Fp.isFinite (Fp.neg deviationLimit) = true ∧ realOf (Fp.neg deviationLimit) = -150000 := by
  obtain ⟨fin, value⟩ := deviationLimit_exact
  exact ⟨Fp.isFinite_neg fin, by rw [realOf_neg, value]⟩

section
variable {lo hi x : Num64}

theorem atLeast_eq_self (h : Fp.lt x lo = false) : atLeast lo x = x := by
  rw [atLeast, h]
  rfl

theorem atMost_eq_self (h : Fp.lt hi x = false) : atMost hi x = x := by
  rw [atMost, h]
  rfl

/-- The rule tests the lower end first. -/
theorem clipDeviation_eq_ite (x : Num64) :
    clipDeviation binary64 x =
      if Fp.lt x (Fp.neg deviationLimit) then Fp.neg deviationLimit else atMost deviationLimit x := rfl

/-- The two ends can be taken one after the other: a sample raised to the lower end is not above the upper one. -/
theorem clipDeviation_eq (x : Num64) :
    clipDeviation binary64 x = atMost deviationLimit (atLeast (Fp.neg deviationLimit) x) := by
  obtain ⟨finHi, hi⟩ := deviationLimit_exact
  obtain ⟨finLo, lo⟩ := neg_deviationLimit_exact
  have ordered : Fp.lt deviationLimit (Fp.neg deviationLimit) = false := by
    obtain ⟨above, -, -⟩ := Fp.compare_finite finHi finLo
    rw [Bool.eq_false_iff, ne_eq, above, hi, lo]
    norm_num
  rw [clipDeviation_eq_ite, atLeast]
  split
  · exact (atMost_eq_self ordered).symm
  · rfl

theorem clipDeviation_finite (hx : Fp.isFinite x = true) :
    Fp.isFinite (clipDeviation binary64 x) = true ∧
    realOf (clipDeviation binary64 x) = max (-150000) (min 150000 (realOf x)) := by
  obtain ⟨finHi, hi⟩ := deviationLimit_exact
  obtain ⟨finLo, lo⟩ := neg_deviationLimit_exact
  obtain ⟨finLow, low⟩ := atLeast_finite finLo hx
  obtain ⟨finClip, clip⟩ := atMost_finite finHi finLow
  rw [clipDeviation_eq]
  refine ⟨finClip, ?_⟩
  rw [clip, low, hi, lo, max_min_distrib_left, max_eq_right (by norm_num : (-150000 : ℝ) ≤ 150000)]

/-- Inside the closed range neither comparison holds. -/
theorem clipDeviation_of_abs_le (hx : Fp.isFinite x = true) (h : |realOf x| ≤ 150000) :
    clipDeviation binary64 x = x := by
  obtain ⟨finHi, hi⟩ := deviationLimit_exact
  obtain ⟨finLo, lo⟩ := neg_deviationLimit_exact
  obtain ⟨below, -, -⟩ := Fp.compare_finite hx finLo
  obtain ⟨above, -, -⟩ := Fp.compare_finite finHi hx
  obtain ⟨geLo, leHi⟩ := abs_le.mp h
  have notBelow : Fp.lt x (Fp.neg deviationLimit) = false := by
    rwa [Bool.eq_false_iff, ne_eq, below, lo, not_lt]
  have notAbove : Fp.lt deviationLimit x = false := by
    rwa [Bool.eq_false_iff, ne_eq, above, hi, not_lt]
  rw [clipDeviation_eq, atLeast_eq_self notBelow, atMost_eq_self notAbove]

/-- The lower end takes the negative infinity, the upper one the positive. -/
theorem clipDeviation_infinite (hx : Fp.isInf x = true) :
    clipDeviation binary64 x = if Fp.signBit x then Fp.neg deviationLimit else deviationLimit := by
  obtain ⟨above, -, -⟩ := Fp.compare_inf deviationLimit_exact.1 hx
  obtain ⟨-, below, -⟩ := Fp.compare_inf neg_deviationLimit_exact.1 hx
  rw [clipDeviation_eq_ite, atMost, below, above]
  cases Fp.signBit x <;> rfl

theorem clipDeviation_nan (hx : Fp.isNaN x = true) : clipDeviation binary64 x = x := by
  obtain ⟨notBelow, -, -⟩ := Fp.compare_nan (b := Fp.neg deviationLimit) (.inl hx)
  obtain ⟨notAbove, -, -⟩ := Fp.compare_nan (a := deviationLimit) (.inr hx)
  rw [clipDeviation_eq, atLeast_eq_self notBelow, atMost_eq_self notAbove]

end

/-- Settles O55: the clip of one sample, by the class of its datum. -/
theorem clipdevClipsToTheDeviation : Obligations.ClipdevClipsToTheDeviation := by
  intro rd rs s
  refine ⟨_, rfl, writesOnlyV_complete_writeV s rd _, ?_⟩
  rw [readV_complete_writeV]
  refine ⟨List.length_map _, fun i x y hx hy => ?_⟩
  rw [List.getElem?_map, hx, Option.map_some, Option.some_inj] at hy
  subst hy
  refine ⟨fun hfin => ?_, fun hinf => ?_, clipDeviation_nan⟩
  · obtain ⟨fin, value⟩ := clipDeviation_finite hfin
    exact ⟨fin, value, clipDeviation_of_abs_le hfin⟩
  · rw [clipDeviation_infinite hinf]
    cases Fp.signBit x with
    | true => exact neg_deviationLimit_exact
    | false => exact deviationLimit_exact

end Sys2Proof.Machine
end

section
/-!
PROOFS. EMITF (44_audio_stage.md R204): the NaN test sees the emitted samples of both channels, and each frame is read
back from OUTQ at its place (O32).
-/
namespace Sys2Proof.Machine

/-! ## Lists of units of one size -/

section
variable {α β : Type} {f : α → List β} {k : Nat}

theorem length_flatMap_of_forall_length (hf : ∀ x, (f x).length = k) (xs : List α) :
    (xs.flatMap f).length = k * xs.length := by
  induction xs with
  | nil => rfl
  | cons x xs ih => rw [List.flatMap_cons, List.length_append, hf, ih, List.length_cons, Nat.mul_succ, Nat.add_comm]

/-- Unit `i` stands `k * i` places behind the first. -/
theorem take_drop_flatMap (hf : ∀ x, (f x).length = k) {xs : List α} {i : Nat} {x : α} (hx : xs[i]? = some x) :
    ((xs.flatMap f).drop (k * i)).take k = f x := by
  induction xs generalizing i with
  | nil => cases hx
  | cons y ys ih =>
    rw [List.flatMap_cons]
    cases i with
    | zero =>
      cases hx
      exact List.take_left' (hf _)
    | succ i =>
      rw [Nat.mul_succ, Nat.add_comm, ← hf y, List.drop_length_add_append, hf y]
      exact ih hx

end

/-! ## Frames -/

theorem wordBytes_eq_littleEndian (p : BitVec 32) : wordBytes p = littleEndian 4 p.toNat := by
  simp [wordBytes, littleEndian, List.range_succ, BitVec.extractLsb', Nat.shiftRight_eq_div_pow]

theorem frameBytes_eq (p : Num64 × Num64) :
    frameBytes p = littleEndian 4 (Fp.toBinary32 p.1).toNat ++ littleEndian 4 (Fp.toBinary32 p.2).toNat := by
  rw [frameBytes, wordBytes_eq_littleEndian, wordBytes_eq_littleEndian]

theorem framesOf_length (left right : List Num64) :
    (framesOf left right).length = min left.length right.length := List.length_zip

theorem framesOf_getElem? {left right : List Num64} {i : Nat} {x y : Num64} (hx : left[i]? = some x)
    (hy : right[i]? = some y) : (framesOf left right)[i]? = some (x, y) :=
  List.getElem?_zip_eq_some.mpr ⟨hx, hy⟩

/-- The bytes of frame `i` in a queue that held `q` before the push. -/
theorem frameBytes_at {left right : List Num64} {i : Nat} {x y : Num64} (q : List Byte) (hx : left[i]? = some x)
    (hy : right[i]? = some y) :
    ((q ++ (framesOf left right).flatMap frameBytes).drop (q.length + 8 * i)).take 8 = frameBytes (x, y) := by
  rw [List.drop_length_add_append]
  exact take_drop_flatMap frameBytes_length (framesOf_getElem? hx hy)

/-- The samples that the frames hold: of each channel as many as the shorter one has. -/
def emittedSamples (left right : List Num64) : List Num64 :=
  left.take (min left.length right.length) ++ right.take (min left.length right.length)

/-- The NaN test over the frames is a test over the samples that they hold. -/
theorem any_isNaN_framesOf (left right : List Num64) :
    (framesOf left right).any (fun p => Fp.isNaN p.1 || Fp.isNaN p.2) =
      (emittedSamples left right).any Fp.isNaN := by
  induction left generalizing right with
  | nil => simp [framesOf, emittedSamples]
  | cons x left ih =>
    cases right with
    | nil => simp [framesOf, emittedSamples]
    | cons y right =>
      have ih := ih right
      rw [framesOf, emittedSamples, List.any_append] at ih
      rw [framesOf, emittedSamples, List.zip_cons_cons, List.any_cons, ih, List.length_cons, List.length_cons,
        Nat.succ_min_succ, List.take_succ_cons, List.take_succ_cons, List.any_append, List.any_cons,
        List.any_cons]
      ac_rfl

/-! ## The micro-operation -/

section
variable {s : State} {rs rt : VReg}

theorem exec_emitf_of_noNaN (h : ∀ x ∈ emittedSamples (s.readV rs) (s.readV rt), Fp.isNaN x = false) :
    exec (.emitf rs rt) s = .next (complete (s.emit ((framesOf (s.readV rs) (s.readV rt)).flatMap frameBytes)
      (framesOf (s.readV rs) (s.readV rt)).length)) := by
  have noNaN : (emittedSamples (s.readV rs) (s.readV rt)).any Fp.isNaN = false :=
    List.any_eq_false.mpr fun x hx => Bool.eq_false_iff.mp (h x hx)
  rw [exec, execEmitf, any_isNaN_framesOf, noNaN]
  rfl

theorem exec_emitf_of_nan (h : ∃ x ∈ emittedSamples (s.readV rs) (s.readV rt), Fp.isNaN x = true) :
    exec (.emitf rs rt) s = .next (raise .numeric s) := by
  rw [exec, execEmitf, any_isNaN_framesOf, List.any_eq_true.mpr h]
  rfl

end

/-- Settles O32: the NaN test decides between the push of all frames and the fault. -/
theorem emitfPushesStereoFrames : Obligations.EmitfPushesStereoFrames := by
  intro rs rt s n
  refine ⟨fun noNaN => ?_, fun nan => ?_⟩
  · refine ⟨_, exec_emitf_of_noNaN noNaN, writesOnlyOutput_complete_emit s _ _,
      congrArg (BitVec.ofNat 32) (framesOf_length _ _), ?_, List.take_left, fun i x y _ hx hy => ?_⟩
    · calc (s.outq ++ (framesOf (s.readV rs) (s.readV rt)).flatMap frameBytes).length
          = s.outq.length + 8 * (framesOf (s.readV rs) (s.readV rt)).length := by
            rw [List.length_append, length_flatMap_of_forall_length frameBytes_length]
        _ = s.outq.length + 8 * n := by rw [framesOf_length]
    · exact (frameBytes_at s.outq hx hy).trans (frameBytes_eq (x, y))
  · exact ⟨_, exec_emitf_of_nan nan, faultTaken_raise .numeric s⟩

end Sys2Proof.Machine
end

section
/-!
PROOFS. The step of SEQ, state by state (45_sequencer.md R216 to R231): where it is enabled (O10), what ends a run
(O11), FILLING (O18), entry to PROCESSING (O19), the fetched word (O5), and DRAINING (O20).
-/
namespace Sys2Proof.Machine

section
variable {s : State}

/-! ## The step in each orchestrator state (R216) -/

theorem seqStep_of_idle (h : s.ostate = .idle) : seqStep s = .fault .waitingForStart := by rw [seqStep, h]

theorem seqStep_of_filling (h : s.ostate = .filling) : seqStep s = fillingStep s := by rw [seqStep, h]

theorem seqStep_of_draining (h : s.ostate = .draining) : seqStep s = .next (drainingStep s) := by rw [seqStep, h]

theorem seqStep_of_done (h : s.ostate = .done) : seqStep s = .fault .runDone := by rw [seqStep, h]

theorem seqStep_of_fault (h : s.ostate = .fault) : seqStep s = .fault .runAborted := by rw [seqStep, h]

/-! ## FILLING, by the cases of R227 -/

theorem fillingStep_of_full (hf : s.fill = s.cfg.blockLen) : fillingStep s = .next s.enterProcessing := if_pos hf

theorem fillingStep_of_forced (hf : s.fill ≠ s.cfg.blockLen) (he : s.forceEmpty = true) :
    fillingStep s = .next { s with ostate := .done } := by
  rw [fillingStep, if_neg hf, if_pos he]

theorem fillingStep_of_input (hf : s.fill ≠ s.cfg.blockLen) (he : s.forceEmpty = false) {b : Byte} {rest : List Byte}
    (hi : s.inq = b :: rest) : fillingStep s = .next (s.takeInput b rest) := by
  rw [fillingStep, if_neg hf, if_neg (Bool.eq_false_iff.mp he), hi]

theorem fillingStep_of_exhausted (hf : s.fill ≠ s.cfg.blockLen) (he : s.forceEmpty = false) (hi : s.inq = [])
    (hs : s.eos = true) : fillingStep s = .next { s with ostate := .done } := by
  rw [fillingStep, if_neg hf, if_neg (Bool.eq_false_iff.mp he), hi]
  exact if_pos hs

theorem fillingStep_of_blocked (hf : s.fill ≠ s.cfg.blockLen) (he : s.forceEmpty = false) (hi : s.inq = [])
    (hs : s.eos = false) : fillingStep s = .fault .blockedOnInput := by
  rw [fillingStep, if_neg hf, if_neg (Bool.eq_false_iff.mp he), hi]
  exact if_neg (Bool.eq_false_iff.mp hs)

/-! ## PROCESSING and DRAINING -/

theorem processingStep_of_legal {i : Instr} (h : decode s.fetch = .ok i) : processingStep s = exec i s := by
  rw [processingStep, h]

theorem drainingStep_of_limited (h : s.limitEn = true) :
    drainingStep s = { s with
      remain := s.budgetAfter, forceEmpty := s.forceEmpty || budgetNegative s.budgetAfter, readcnt := 0,
      ostate := .filling } := if_pos h

theorem drainingStep_of_unlimited (h : s.limitEn = false) :
    drainingStep s = { s with readcnt := 0, ostate := .filling } := if_neg (Bool.eq_false_iff.mp h)

end

/-! ## Enabledness (R216, R242) -/

section
variable (s : State)

/-- What lets a FILLING step be taken (R227). -/
def CanFill : Prop := s.fill = s.cfg.blockLen ∨ s.forceEmpty = true ∨ s.inq ≠ [] ∨ s.eos = true

theorem exists_fillingStep_of_canFill (h : CanFill s) : ∃ t, fillingStep s = .next t := by
  by_cases hf : s.fill = s.cfg.blockLen
  · exact ⟨_, fillingStep_of_full hf⟩
  cases he : s.forceEmpty with
  | true => exact ⟨_, fillingStep_of_forced hf he⟩
  | false =>
    cases hi : s.inq with
    | cons b rest => exact ⟨_, fillingStep_of_input hf he hi⟩
    | nil => exact ⟨_, fillingStep_of_exhausted hf he hi (by simpa [CanFill, hf, he, hi] using h)⟩

theorem exists_processingStep : ∃ t, processingStep s = .next t := by
  cases hd : decode s.fetch with
  | error e => exact ⟨_, processingStep_of_illegal hd⟩
  | ok i =>
    obtain ⟨t, ht, -⟩ := exec_effect s i
    exact ⟨t, (processingStep_of_legal hd).trans ht⟩

variable {s}

theorem enabled_of_seqStep {t : State} (h : seqStep s = .next t) :
    s.ostate = .processing ∨ s.ostate = .draining ∨ (s.ostate = .filling ∧ CanFill s) := by
  cases seqStep_effect h with
  | enter ho hf => exact .inr (.inr ⟨ho, .inl hf⟩)
  | forced ho _ he => exact .inr (.inr ⟨ho, .inr (.inl he)⟩)
  | take b rest ho _ _ hi => exact .inr (.inr ⟨ho, .inr (.inr (.inl (by simp [hi])))⟩)
  | exhausted ho _ _ _ hs => exact .inr (.inr ⟨ho, .inr (.inr (.inr hs))⟩)
  | illegal ho => exact .inl ho
  | micro ho => exact .inl ho
  | drain ho => exact .inr (.inl ho)

end

/-- Settles O10: each enabled state has a step, every step is one of the known effects, and the four stops are the
step's own cases. -/
theorem seqStepsExactlyWhenEnabled : Obligations.SeqStepsExactlyWhenEnabled := by
  intro s
  refine ⟨⟨fun ⟨_, h⟩ => enabled_of_seqStep h, ?_⟩, seqStep_of_idle, fun ho hf he hi hs => ?_, seqStep_of_done,
    seqStep_of_fault⟩
  · rintro (ho | ho | ⟨ho, hfill⟩)
    · rw [seqStep_of_processing ho]
      exact exists_processingStep s
    · exact ⟨_, seqStep_of_draining ho⟩
    · rw [seqStep_of_filling ho]
      exact exists_fillingStep_of_canFill s hfill
  · rw [seqStep_of_filling ho, fillingStep_of_blocked hf he hi hs]

/-! ## The ends of a run (R231, R232) -/

theorem seqStep_ne_next_of_ended {s : State} (h : s.ostate = .done ∨ s.ostate = .fault) (t : State) :
    seqStep s ≠ .next t := by
  rcases h with ho | ho
  · rw [seqStep_of_done ho]
    exact nofun
  · rw [seqStep_of_fault ho]
    exact nofun

/-- Settles O11: register writes act in IDLE only, and every other action but reset moves the host's side alone. -/
theorem onlyResetLeavesTerminalStates : Obligations.OnlyResetLeavesTerminalStates := by
  intro s h
  refine ⟨seqStep_ne_next_of_ended h, fun a t ha ht => ?_⟩
  have notIdle : s.ostate ≠ .idle := by rcases h with ho | ho <;> simp [ho]
  rcases hostStep_cases ht with ⟨addr, v, rfl⟩ | ⟨rfl, -⟩ | moved
  · rw [writeReg_of_not_idle v notIdle]
  · exact absurd rfl ha
  · exact moved

/-! ## FILLING (R227, R228) -/

/-- The byte taken is the block's newest and no other byte moves (10_state.md R24). -/
theorem read_takeInput (s : State) (b : Byte) (rest : List Byte) (a : Nat) :
    (s.takeInput b rest).blk.read a = if a = s.fill then some b else s.blk.read a := by
  rw [State.takeInput_blk, Memory.read_write]

/-- Settles O18: one equation for each case of R227, and the read of the written byte for case 3. -/
theorem fillingFollowsItsCases : Obligations.FillingFollowsItsCases := by
  intro s ho hf
  rw [seqStep_of_filling ho]
  refine ⟨fillingStep_of_forced hf, fillingStep_of_exhausted hf, fun he hi hs t => ?_, fun b rest he hi => ?_⟩
  · rw [fillingStep_of_blocked hf he hi hs]
    exact nofun
  · refine ⟨_, fillingStep_of_input hf he hi, rfl, rfl, rfl, ?_, fun a ha => ?_, rfl⟩
    · rw [read_takeInput, if_pos rfl]
    · rw [read_takeInput, if_neg ha]

/-- Settles O19: the state is that of entry, whose fields are the rule's. -/
theorem processingEntryClearsTheRegisters : Obligations.ProcessingEntryClearsTheRegisters := by
  intro s ho hf
  rw [seqStep_of_filling ho, fillingStep_of_full hf]
  exact ⟨_, rfl, s.readV_enterProcessing, s.readZ_enterProcessing, rfl, rfl, rfl, rfl, fun _ => ⟨rfl, rfl⟩,
    ⟨rfl, fun _ => rfl⟩, ⟨rfl, rfl, rfl, rfl, rfl, rfl, rfl, rfl, rfl, rfl⟩, ⟨rfl, rfl, rfl, rfl⟩, rfl, rfl, rfl⟩

/-! ## PROCESSING (R220) -/

theorem step_of_seq_turn {s : State} {rest : List Turn} (h : s.turns = .seq :: rest) :
    step s = seqStep { s with turns := rest } := by rw [step, h]

theorem seqStep_of_decodes {s : State} {i : Instr} (ho : s.ostate = .processing) (h : decode s.fetch = .ok i) :
    seqStep s = exec i s :=
  (seqStep_of_processing ho).trans (processingStep_of_legal h)

/-- Settles O5: a turn of SEQ is used up before the fetch, which does not read the turns. -/
theorem stepRunsDecodedInstruction : Obligations.StepRunsDecodedInstruction := by
  intro s i ho hd
  refine ⟨fun hturns => ?_, fun rest hturns => ?_⟩
  · rw [step_of_no_turns hturns]
    exact seqStep_of_decodes ho hd
  · rw [step_of_seq_turn hturns]
    exact seqStep_of_decodes (s := { s with turns := rest }) ho hd

/-! ## DRAINING (R230) -/

/-- FORCE_EMPTY after the budget step: it was set, or the new budget is negative as a signed number (R235). -/
theorem or_budgetNegative_iff (e : Bool) (r : BitVec 64) :
    (e || budgetNegative r) = true ↔ r.toInt < 0 ∨ e = true := by
  rw [Bool.or_eq_true, budgetNegative, BitVec.msb_eq_toInt, decide_eq_true_eq]
  exact or_comm

/-- Settles O20: the two forms of the budget step, by LIMIT_EN. -/
theorem drainingTakesTheBudgetStep : Obligations.DrainingTakesTheBudgetStep := by
  intro s ho
  rw [seqStep_of_draining ho]
  refine ⟨fun limited => ?_, fun unlimited => ?_⟩
  · rw [drainingStep_of_limited limited]
    exact ⟨_, rfl, rfl, or_budgetNegative_iff _ _, rfl⟩
  · rw [drainingStep_of_unlimited unlimited]

end Sys2Proof.Machine
end

section
/-!
PROOFS. The host's port: START and its check (O21), the queue actions and the refusals (O24).
-/
namespace Sys2Proof.Machine

/-! ## The START check (45_sequencer.md R225, R226) -/

section
variable {s : State}

theorem notValid_iff {n : Nat} (c : Fin 16) (hc : c.val = n) : NotValid s n ↔ (!s.romValid c) = true := by
  rw [Bool.not_eq_true']
  exact ⟨fun ⟨d, hd, hv⟩ => by rwa [State.romValid, Fin.ext (hc.trans hd.symm)], fun hv => ⟨c, hc, hv⟩⟩

/-- The de-emphasis slot by DEEMPH_ALT (R226 condition 4). -/
theorem deemphasis_slot_val (alt : Bool) :
    (if alt then 7 else 6 : Fin 16).val = 6 + (if alt then 1 else 0) := by cases alt <;> rfl

theorem startFails_video_iff (hm : s.modeAudio = false) :
    s.startFails = true ↔ (4 < s.lpfSel ∨ NotValid s 0 ∨ NotValid s (1 + s.lpfSel) ∨
      NotValid s (6 + (if s.deemphAlt then 1 else 0)) ∨ (s.notchEn = true ∧ NotValid s 8)) := by
  by_cases hsel : s.lpfSel ≤ 4
  · rw [notValid_iff (n := 0) 0 rfl, notValid_iff ⟨1 + s.lpfSel, by omega⟩ rfl,
      notValid_iff _ (deemphasis_slot_val s.deemphAlt), notValid_iff (n := 8) 8 rfl]
    simp only [State.startFails, hm, hsel, Nat.not_lt.mpr hsel, Bool.not_false, if_true, dif_pos, Bool.or_eq_true,
      Bool.and_eq_true, false_or, or_assoc]
  · have fails : s.startFails = true := by rw [State.startFails, hm, dif_neg hsel]; rfl
    exact iff_of_true fails (.inl (by omega))

theorem startFails_audio_iff (hm : s.modeAudio = true) :
    s.startFails = true ↔ (NotValid s 9 ∨ NotValid s 10 ∨ NotValid s 11 ∨ NotValid s 12) := by
  rw [notValid_iff (n := 9) 9 rfl, notValid_iff (n := 10) 10 rfl, notValid_iff (n := 11) 11 rfl,
    notValid_iff (n := 12) 12 rfl]
  simp only [State.startFails, hm, Bool.not_true, Bool.false_eq_true, if_false, Bool.or_eq_true, or_assoc]

/-- The check as the model computes it is the check as the rule lists it. -/
theorem startFails_iff (s : State) : s.startFails = true ↔ StartCheckRaises s := by
  cases hm : s.modeAudio with
  | false => simp [StartCheckRaises, startFails_video_iff hm, hm]
  | true => simp [StartCheckRaises, startFails_audio_iff hm, hm]

/-! ## The write of CTRL -/

theorem writeReg_start {v : Word} (ho : s.ostate = .idle) (hv : v.getLsbD 0 = true) : s.writeReg 0x00 v = s.start := by
  rw [State.writeReg, if_pos ho]
  exact if_pos hv

theorem writeReg_ctrl_of_bit_clear {v : Word} (hv : v.getLsbD 0 = false) : s.writeReg 0x00 v = s := by
  rw [State.writeReg]
  split
  · exact if_neg (Bool.eq_false_iff.mp hv)
  · rfl

/-- A fault raised by the START check, seen from outside (60_exceptions.md R256). -/
theorem faultTaken_raiseAtStart (c : Cause) (s : State) : FaultTaken c.code 0x7F s (raiseAtStart c s) :=
  ⟨rfl, rfl, rfl, rfl, rfl, rfl, fun _ => rfl, fun _ => rfl, fun _ => ⟨rfl, rfl⟩, ⟨rfl, rfl⟩, ⟨rfl, rfl, rfl⟩,
    ⟨rfl, fun _ => rfl⟩, ⟨rfl, rfl, rfl, rfl, rfl, rfl, rfl, rfl, rfl, rfl⟩⟩

end

/-- Settles O21: the write is START in IDLE with bit 0 set, and START does what its check says. -/
theorem startRunsTheCheck : Obligations.StartRunsTheCheck := by
  intro s v
  rw [hostStep_memWrite (by decide)]
  refine ⟨fun ho hv hraises => ?_, fun ho hv hpasses => ?_, ?_⟩
  · rw [writeReg_start ho hv, State.start, if_pos ((startFails_iff s).mpr hraises)]
    exact ⟨_, rfl, faultTaken_raiseAtStart .configDesign s⟩
  · rw [writeReg_start ho hv, State.start, if_neg (mt (startFails_iff s).mp hpasses)]
  · rintro (ho | hv)
    · rw [writeReg_of_not_idle v ho]
    · rw [writeReg_ctrl_of_bit_clear hv]

/-! ## The queue actions (45_sequencer.md R240) -/

section
variable {s : State}

theorem hostStep_pushByte (h : s.eos = false) (b : Byte) :
    hostStep (.pushByte b) s = .next { s with inq := s.inq ++ [b] } := if_neg (Bool.eq_false_iff.mp h)

theorem hostStep_pushByte_of_eos (h : s.eos = true) (b : Byte) :
    hostStep (.pushByte b) s = .refused .pushAfterEos := if_pos h

theorem hostStep_setEos (h : s.eos = false) : hostStep .setEos s = .next { s with eos := true } :=
  if_neg (Bool.eq_false_iff.mp h)

theorem hostStep_setEos_of_eos (h : s.eos = true) : hostStep .setEos s = .refused .eosTwice := if_pos h

theorem hostStep_takeByte {b : Byte} {rest : List Byte} (h : s.outq = b :: rest) :
    hostStep .takeByte s = .next { s with outq := rest, hostByte := some b } := by rw [hostStep, h]

theorem hostStep_takeByte_of_empty (h : s.outq = []) : hostStep .takeByte s = .refused .takeFromEmpty := by
  rw [hostStep, h]

theorem accessOk_of_form {addr width : Nat} (h : width ≠ 4 ∨ addr % 4 ≠ 0) : ¬accessOk addr width = true := by
  rw [accessOk, Bool.and_eq_true, decide_eq_true_eq, decide_eq_true_eq]
  exact not_and_or.mpr h

end

/-- Settles O24: each clause is one case of the action. -/
theorem queueActionsFollowTheTable : Obligations.QueueActionsFollowTheTable := by
  intro s
  refine ⟨hostStep_pushByte, hostStep_setEos, fun b rest => hostStep_takeByte, hostStep_pushByte_of_eos,
    hostStep_setEos_of_eos, hostStep_takeByte_of_empty, fun addr width v form => ?_⟩
  exact ⟨if_neg (accessOk_of_form form), if_neg (accessOk_of_form form)⟩

end Sys2Proof.Machine
end

section
/-!
PROOFS. The control micro-operations SKIPZ (O27), ADV (O28) and END (O29), and the conservation of input bytes, which
END's slide keeps (O13).
-/
namespace Sys2Proof.Machine

/-! ## SKIPZ (45_sequencer.md R221) -/

theorem exec_skipz (cbit : Fin 8) (s : State) :
    exec (.skipz cbit) s = .next { s with upc := if s.config.getLsbD cbit.val then s.upc + 1 else s.upc + 2 } := by
  rw [exec, execSkipz]
  split <;> rfl

/-- Settles O27: only `upc` is written. -/
theorem skipzTestsOneConfigBit : Obligations.SkipzTestsOneConfigBit := fun cbit s =>
  ⟨_, exec_skipz cbit s, rfl, fun _ => rfl, fun _ => rfl, fun _ => ⟨rfl, rfl⟩, ⟨rfl, rfl⟩, ⟨rfl, rfl, rfl⟩,
    ⟨rfl, fun _ => rfl⟩, ⟨rfl, rfl, rfl, rfl, rfl, rfl, rfl, rfl, rfl, rfl⟩, ⟨rfl, rfl, rfl, rfl⟩, rfl⟩

/-! ## ADV (R223) -/

section
variable {imm : Nat} {s : State}

theorem exec_adv_of_count (h1 : 1 ≤ imm * s.outcnt.toNat) (hB : imm * s.outcnt.toNat ≤ s.cfg.blockLen) :
    exec (.adv imm) s = .next (complete { s with consumed := BitVec.ofNat 32 (imm * s.outcnt.toNat) }) := by
  have himm : imm ≠ 0 := Nat.ne_zero_of_mul_ne_zero_left (Nat.ne_zero_of_lt h1)
  rw [exec, execAdv, if_neg himm, if_neg (by omega)]

theorem exec_adv_zero : exec (.adv 0) s = .next (raise .illegalUop s) := rfl

theorem exec_adv_of_geometry (himm : imm ≠ 0)
    (h : imm * s.outcnt.toNat = 0 ∨ s.cfg.blockLen < imm * s.outcnt.toNat) :
    exec (.adv imm) s = .next (raise .geometry s) := by
  rw [exec, execAdv, if_neg himm, if_pos h]

end

/-- Settles O28: a count of at most B fits CONSUMED's 32 bits. -/
theorem advReportsTheConsumedCount : Obligations.AdvReportsTheConsumedCount := by
  intro imm s hlegal
  refine ⟨fun h1 hB => ?_, ?_, fun himm h => ?_⟩
  · obtain ⟨-, hlt, -⟩ := cfgLegal_sizes hlegal
    have count : (BitVec.ofNat 32 (imm * s.outcnt.toNat)).toNat = imm * s.outcnt.toNat :=
      (BitVec.toNat_ofNat _ _).trans (Nat.mod_eq_of_lt (hB.trans_lt hlt))
    exact ⟨_, exec_adv_of_count h1 hB, count, rfl, rfl, rfl, fun _ => rfl,
      fun _ => rfl, fun _ => ⟨rfl, rfl⟩, ⟨rfl, rfl⟩, ⟨rfl, fun _ => rfl⟩,
      ⟨rfl, rfl, rfl, rfl, rfl, rfl, rfl, rfl, rfl, rfl⟩, ⟨rfl, rfl, rfl, rfl⟩, rfl⟩
  · rintro rfl
    exact faultTaken_of_exec_raise exec_adv_zero
  · exact faultTaken_of_exec_raise (exec_adv_of_geometry himm h)

/-! ## END (R222, R229) -/

section
variable {s : State}

theorem exec_endProg_of_ne (h : s.consumed ≠ 0) : exec .endProg s = .next (s.endBlock s.consumed.toNat) := by
  have hc : s.consumed.toNat ≠ 0 := fun e => h (BitVec.eq_of_toNat_eq e)
  rw [exec, execEnd, if_neg hc]

theorem exec_endProg_of_zero (h : s.consumed = 0) : exec .endProg s = .next (raise .geometry s) := by
  rw [exec, execEnd, h]
  rfl

end

/-- Settles O29: the read of a slid byte gives both halves of the buffer. -/
theorem endSlidesTheBlock : Obligations.EndSlidesTheBlock := by
  intro s
  refine ⟨fun hc _ => ?_, fun hc => faultTaken_of_exec_raise (exec_endProg_of_zero hc)⟩
  have pos : 1 ≤ s.consumed.toNat := Nat.one_le_iff_ne_zero.mpr fun e => hc (BitVec.eq_of_toNat_eq e)
  have total : s.total + BitVec.ofNat 64 s.consumed.toNat = s.total + s.consumed.setWidth 64 := by
    rw [BitVec.ofNat_toNat]
  refine ⟨_, exec_endProg_of_ne hc, fun j hj => ?_, fun j hj => ?_, rfl, total, rfl, rfl, rfl, rfl, fun _ => rfl,
    fun _ => rfl, fun _ => ⟨rfl, rfl⟩, ⟨rfl, rfl⟩, ⟨rfl, rfl, rfl, rfl, rfl, rfl, rfl, rfl, rfl, rfl⟩,
    ⟨rfl, rfl, rfl, rfl⟩⟩
  · rw [State.endBlock_blk, Memory.read_slide _ _ _ _ pos, if_pos hj]
  · rw [State.endBlock_blk, Memory.read_slide _ _ _ _ pos, if_neg (Nat.not_lt.mpr hj)]

/-! ## Input bytes (R234) -/

/-- The bytes that have left the host: consumed, in the block buffer, or waiting, modulo 2^64. -/
def State.inputBytes (s : State) : BitVec 64 := s.total + BitVec.ofNat 64 (s.fill + s.inq.length)

section
variable {s t : State}

theorem inputBytes_of_kept (ht : t.total = s.total) (hf : t.fill = s.fill) (hi : t.inq = s.inq) :
    t.inputBytes = s.inputBytes := by rw [State.inputBytes, ht, hf, hi, State.inputBytes]

theorem inputBytes_takeInput {b : Byte} {rest : List Byte} (h : s.inq = b :: rest) :
    (s.takeInput b rest).inputBytes = s.inputBytes := by
  rw [State.inputBytes, State.inputBytes, State.takeInput_total, State.takeInput_fill, State.takeInput_inq, h,
    List.length_cons, Nat.add_right_comm, Nat.add_assoc]

/-- What a full block gives up in FILL, TOTAL gains. -/
theorem inputBytes_endBlock {c : Nat} (hfull : s.fill = s.cfg.blockLen) (hc : c ≤ s.cfg.blockLen) :
    (s.endBlock c).inputBytes = s.inputBytes := by
  have moved : c + (s.cfg.blockLen - c + s.inq.length) = s.fill + s.inq.length := by omega
  rw [State.inputBytes, State.inputBytes, State.endBlock_total, State.endBlock_fill, State.endBlock_inq,
    BitVec.add_assoc, ← BitVec.ofNat_add, moved]

theorem inputBytes_drainingStep (s : State) : (drainingStep s).inputBytes = s.inputBytes := by
  unfold drainingStep
  split <;> rfl

/-- Of the micro-operations only END moves a term of the sum. -/
theorem inputBytes_of_effect {i : Instr} (h : StateInv s) (ho : s.ostate = .processing) (e : Effect i s t) :
    t.inputBytes = s.inputBytes := by
  cases e with
  | raised | real | complex | stream | output | report | jump => exact inputBytes_of_kept rfl rfl rfl
  | endBlock => exact inputBytes_endBlock (h.fullInProcessing ho) h.consumedBound

end

/-- Settles O13: the three ways the sum could change, a byte taken, END and the budget step, each keep it. -/
theorem inputBytesAreConserved : Obligations.InputBytesAreConserved := by
  intro s t h hs
  change t.inputBytes = s.inputBytes
  cases seqStep_effect hs with
  | enter | forced | exhausted | illegal => exact inputBytes_of_kept rfl rfl rfl
  | take b rest _ _ _ hi => exact inputBytes_takeInput hi
  | micro ho _ _ _ _ e => exact inputBytes_of_effect h ho e
  | drain => exact inputBytes_drainingStep s

end Sys2Proof.Machine
end

section
/-!
PROOFS. Faults are precise (O15): which causes each micro-operation raises; any other answer of a block that was not in
FAULT is not in it either.
-/
namespace Sys2Proof.Machine

/-! ## The codes of the shared computations (60_exceptions.md R251) -/

section
variable {s : State} {f : Nat} {c : Cause}

theorem readSlot_code (h : readSlot s f = .error c) : c.code ∈ [(1 : BitVec 32), 3] := by
  rcases readSlot_error s h with rfl | rfl <;> decide

/-- The FIR datapath adds SLOT_KIND to the causes of the slot read. -/
theorem readFirSlot_error (h : readFirSlot s f = .error c) : readSlot s f = .error c ∨ c = .slotKind := by
  unfold readFirSlot at h
  split at h
  · cases h
    exact .inl (by assumption)
  · split at h <;> cases h
    exact .inr rfl

theorem readFirSlot_code (h : readFirSlot s f = .error c) : c.code ∈ [(1 : BitVec 32), 3, 6] := by
  rcases readFirSlot_error h with hread | rfl
  · rcases readSlot_error s hread with rfl | rfl <;> decide
  · decide

theorem videoCodes_code {scale : Num64} {xs : List Num64} (h : videoCodes binary64 scale xs = .error c) :
    c.code ∈ [(5 : BitVec 32)] := by
  simp only [videoCodes] at h
  split at h <;> cases h
  decide

theorem wrapCorrect_code {F : Num64} {n : Nat} {xs : List Num64} (h : wrapCorrect binary64 F n xs = .error c) :
    c.code ∈ [(2 : BitVec 32), 5] := by
  rcases wrapCorrect_error _ h with rfl | rfl <;> decide

end

/-! ## Computations that may fail -/

/-- The state after a computation: its cause is raised in `s`, or its result goes on. -/
def attempt {α : Type} (s : State) (x : Except Cause α) (k : α → State) : State :=
  match x with
  | .error c => raise c s
  | .ok a => k a

section
variable (rd rs : VReg) (r : RunState) (f : Nat) (s : State)

theorem exec_emit16 : exec (.emit16 rs) s = .next (attempt s (videoCodes binary64 (outputScale s) (s.readV rs))
    fun codes => complete (s.emit (codes.flatMap codeBytes) codes.length)) := by
  rw [exec, execEmit16]
  cases videoCodes binary64 (outputScale s) (s.readV rs) <;> rfl

theorem exec_firB : exec (.firB rd rs f) s = .next (attempt s (readFirSlot s f)
    fun sl => complete (filterBlock rd rs sl.b firDenominator s)) := by
  rw [exec, execFirB]
  cases readFirSlot s f <;> rfl

theorem exec_firS : exec (.firS rd rs r f) s = .next (attempt s (readFirSlot s f)
    fun sl => complete (filterStream rd rs r sl.b firDenominator s)) := by
  rw [exec, execFirS]
  cases readFirSlot s f <;> rfl

theorem exec_iirB : exec (.iirB rd rs f) s = .next (attempt s (readSlot s f)
    fun sl => complete (filterBlock rd rs sl.b sl.a s)) := by
  rw [exec, execIirB]
  cases readSlot s f <;> rfl

theorem exec_iirS : exec (.iirS rd rs r f) s = .next (attempt s (readSlot s f)
    fun sl => complete (filterStream rd rs r sl.b sl.a s)) := by
  rw [exec, execIirS]
  cases readSlot s f <;> rfl

theorem exec_trimhk (k : Nat) : exec (.trimhk rd rs k f) s = .next (attempt s (readSlot s f)
    fun sl => complete (s.writeV rd (trimHead (k * sl.b.length) (s.readV rs)))) := by
  rw [exec, execTrimhk]
  cases readSlot s f <;> rfl

theorem exec_wrapc (sel : Scale) : exec (.wrapc rd rs sel) s =
    .next (attempt s (wrapCorrect binary64 (carrierScale s sel) s.cfg.wrapIterMax (s.readV rs))
      fun xs => complete (s.writeV rd xs)) := by
  rw [exec, execWrapc]
  cases wrapCorrect binary64 (carrierScale s sel) s.cfg.wrapIterMax (s.readV rs) <;> rfl

end

/-! ## Precise answers -/

/-- An answer is fault entry from `s` with one of the row's causes, or leaves FAULT out where `s` is not in it. -/
inductive Precise (i : Instr) (s : State) : State → Prop where
  | raised {c : Cause} (hc : c.code ∈ faultCodes i) : Precise i s (raise c s)
  | unfaulted {t : State} (h : s.ostate ≠ .fault → t.ostate ≠ .fault) : Precise i s t

namespace Precise

section
variable {i : Instr} {s : State}

/-- A test that may raise before the answer. -/
theorem guarded {p : Prop} [Decidable p] {c : Cause} {t : State} (hc : c.code ∈ faultCodes i) (h : Precise i s t) :
    Precise i s (if p then raise c s else t) := by
  split
  · exact .raised hc
  · exact h

/-- A computation that may fail before the answer. -/
theorem attempted {α : Type} {x : Except Cause α} {k : α → State} (hx : ∀ c, x = .error c → c.code ∈ faultCodes i)
    (hk : ∀ a, Precise i s (k a)) : Precise i s (attempt s x k) := by
  cases x with
  | error c => exact .raised (hx c rfl)
  | ok a => exact hk a

/-- A completed micro-operation leaves OSTATE. -/
theorem completed {t : State} (h : t.ostate = s.ostate) : Precise i s (complete t) :=
  .unfaulted fun hs => ne_of_eq_of_ne h hs

theorem faultTaken {t : State} (h : Precise i s t) (hs : s.ostate ≠ .fault) (ht : t.ostate = .fault) :
    ∃ code ∈ faultCodes i, FaultTaken code (s.upc.setWidth 32) s t := by
  cases h with
  | raised hc => exact ⟨_, hc, faultTaken_raise _ s⟩
  | unfaulted h => exact absurd ht (h hs)

end

end Precise

/-- The table of causes, row by row (60_exceptions.md R251). -/
theorem exec_precise (i : Instr) (s : State) : ∃ t, exec i s = .next t ∧ Precise i s t := by
  cases i with
  | endProg =>
    refine ⟨_, rfl, .guarded ?_ (.unfaulted fun _ => nofun)⟩
    simp [faultCodes, Cause.code]
  | skipz cbit => exact ⟨_, exec_skipz cbit s, .unfaulted id⟩
  | adv imm =>
    refine ⟨_, rfl, .guarded ?_ (.guarded ?_ (.completed rfl))⟩ <;> simp [faultCodes, Cause.code]
  | emitf | decim =>
    refine ⟨_, rfl, .guarded ?_ (.completed rfl)⟩
    simp [faultCodes, Cause.code]
  | emit16 rs => exact ⟨_, exec_emit16 rs s, .attempted (fun _ => videoCodes_code) fun _ => .completed rfl⟩
  | firB rd rs f => exact ⟨_, exec_firB rd rs f s, .attempted (fun _ => readFirSlot_code) fun _ => .completed rfl⟩
  | firS rd rs r f => exact ⟨_, exec_firS rd rs r f s, .attempted (fun _ => readFirSlot_code) fun _ => .completed rfl⟩
  | iirB rd rs f => exact ⟨_, exec_iirB rd rs f s, .attempted (fun _ => readSlot_code) fun _ => .completed rfl⟩
  | iirS rd rs r f => exact ⟨_, exec_iirS rd rs r f s, .attempted (fun _ => readSlot_code) fun _ => .completed rfl⟩
  | trimhk rd rs k f => exact ⟨_, exec_trimhk rd rs f s k, .attempted (fun _ => readSlot_code) fun _ => .completed rfl⟩
  | wrapc rd rs sel => exact ⟨_, exec_wrapc rd rs s sel, .attempted (fun _ => wrapCorrect_code) fun _ => .completed rfl⟩
  | ldblk | trimh | anlt | chop | angle | diff | fix0 | unwrap | sclhz | subcf | clipdev | iremap =>
    exact ⟨_, rfl, .completed rfl⟩

/-- Settles O15: the answer is precise, and a block in PROCESSING is not in FAULT. -/
theorem faultsArePrecise : Obligations.FaultsArePrecise := by
  intro i s t h ho ht
  obtain ⟨u, hu, precise⟩ := exec_precise i s
  cases h.symm.trans hu
  exact precise.faultTaken (by simp [ho]) ht

end Sys2Proof.Machine
end

section
/-!
PROOFS. Host actions commute with steps of SEQ (O14). A micro-operation reads neither queue, the end mark nor what the
host received, and adds to the end of OUTQ only; FILLING reads the front of INQ, and the end mark only when INQ is
empty. So SEQ makes the same step when the host has moved its side first.
-/
namespace Sys2Proof.Machine

/-! ## The host's side put in place -/

/-- `s` with other queues, another end mark and another byte received. -/
def State.withQueues (s : State) (inq : List Byte) (eos : Bool) (outq : List Byte) (hostByte : Option Byte) : State :=
  { s with inq := inq, eos := eos, outq := outq, hostByte := hostByte }

/-- From `s'`, which has the queues of the host's move, the answer `t'` is the answer `t` from `s` with that move: the
bytes that `t` adds to OUTQ are added to the moved one. -/
def MovesAlong (s s' t t' : State) : Prop :=
  ∃ bytes, t.outq = s.outq ++ bytes ∧ t' = t.withQueues s'.inq s'.eos (s'.outq ++ bytes) s'.hostByte

namespace MovesAlong

section
variable {s s' : State}

theorem of_kept {t t' : State} (ho : t.outq = s.outq) (ht : t' = t.withQueues s'.inq s'.eos s'.outq s'.hostByte) :
    MovesAlong s s' t t' :=
  ⟨[], by rw [ho, List.append_nil], by rw [List.append_nil]; exact ht⟩

theorem guarded {p : Prop} [Decidable p] {t t' u u' : State} (ht : MovesAlong s s' t t') (hu : MovesAlong s s' u u') :
    MovesAlong s s' (if p then t else u) (if p then t' else u') := by
  split
  · exact ht
  · exact hu

theorem attempted {α : Type} {x : Except Cause α} {k k' : α → State}
    (hr : ∀ c, MovesAlong s s' (raise c s) (raise c s')) (hk : ∀ a, MovesAlong s s' (k a) (k' a)) :
    MovesAlong s s' (attempt s x k) (attempt s' x k') := by
  cases x with
  | error c => exact hr c
  | ok a => exact hk a

end

end MovesAlong

/-! ## Micro-operations -/

section
variable (i : Instr) (s : State) (inq : List Byte) (eos : Bool) (outq : List Byte) (hostByte : Option Byte)

/-- A micro-operation answers the same whatever the host's side holds: only EMIT16 and EMITF reach it, at OUTQ's end
(45_sequencer.md R243, R244). -/
theorem exec_movesAlong :
    ∃ t t', exec i s = .next t ∧ exec i (s.withQueues inq eos outq hostByte) = .next t' ∧
      MovesAlong s (s.withQueues inq eos outq hostByte) t t' := by
  have raised (c : Cause) :
      MovesAlong s (s.withQueues inq eos outq hostByte) (raise c s) (raise c (s.withQueues inq eos outq hostByte)) :=
    .of_kept rfl rfl
  cases i with
  | endProg => exact ⟨_, _, rfl, rfl, .guarded (.of_kept rfl rfl) (.of_kept rfl rfl)⟩
  | skipz cbit => exact ⟨_, _, exec_skipz cbit _, exec_skipz cbit _, .of_kept rfl rfl⟩
  | adv imm =>
    exact ⟨_, _, rfl, rfl, .guarded (.of_kept rfl rfl) (.guarded (.of_kept rfl rfl) (.of_kept rfl rfl))⟩
  | emitf => exact ⟨_, _, rfl, rfl, .guarded (.of_kept rfl rfl) ⟨_, rfl, rfl⟩⟩
  | decim => exact ⟨_, _, rfl, rfl, .guarded (.of_kept rfl rfl) (.of_kept rfl rfl)⟩
  | emit16 => exact ⟨_, _, exec_emit16 .., exec_emit16 .., .attempted raised fun _ => ⟨_, rfl, rfl⟩⟩
  | firB => exact ⟨_, _, exec_firB .., exec_firB .., .attempted raised fun _ => .of_kept rfl rfl⟩
  | firS => exact ⟨_, _, exec_firS .., exec_firS .., .attempted raised fun _ => .of_kept rfl rfl⟩
  | iirB => exact ⟨_, _, exec_iirB .., exec_iirB .., .attempted raised fun _ => .of_kept rfl rfl⟩
  | iirS => exact ⟨_, _, exec_iirS .., exec_iirS .., .attempted raised fun _ => .of_kept rfl rfl⟩
  | trimhk => exact ⟨_, _, exec_trimhk .., exec_trimhk .., .attempted raised fun _ => .of_kept rfl rfl⟩
  | wrapc => exact ⟨_, _, exec_wrapc .., exec_wrapc .., .attempted raised fun _ => .of_kept rfl rfl⟩
  | ldblk | trimh | anlt | chop | angle | diff | fix0 | unwrap | sclhz | subcf | clipdev | iremap =>
    exact ⟨_, _, rfl, rfl, .of_kept rfl rfl⟩

end

/-! ## The step of SEQ -/

/-- SEQ's step from `s` to `t`, made after a host's move: `more` bytes wait behind those of INQ, and the end mark, OUTQ
and the byte received are the given ones. The step adds to OUTQ what it adds to that of `s`. -/
def StepsAlong (s t : State) (more : List Byte) (eos : Bool) (outq : List Byte) (hostByte : Option Byte) : Prop :=
  ∃ bytes, t.outq = s.outq ++ bytes ∧
    seqStep (s.withQueues (s.inq ++ more) eos outq hostByte) =
      .next (t.withQueues (t.inq ++ more) eos (outq ++ bytes) hostByte)

section
variable {s t : State} {more : List Byte} {eos : Bool} {outq : List Byte} {hostByte : Option Byte}

theorem StepsAlong.of_kept (ho : t.outq = s.outq)
    (h : seqStep (s.withQueues (s.inq ++ more) eos outq hostByte) =
      .next (t.withQueues (t.inq ++ more) eos outq hostByte)) : StepsAlong s t more eos outq hostByte :=
  ⟨[], by rw [ho, List.append_nil], by rw [h, List.append_nil]⟩

theorem drainingStep_withQueues (inq : List Byte) :
    drainingStep (s.withQueues inq eos outq hostByte) = (drainingStep s).withQueues inq eos outq hostByte := by
  cases h : s.limitEn with
  | true =>
    rw [drainingStep_of_limited h]
    exact drainingStep_of_limited h
  | false =>
    rw [drainingStep_of_unlimited h]
    exact drainingStep_of_unlimited h

/-- A micro-operation's step, with the input side kept (45_sequencer.md R243). -/
theorem stepsAlong_of_exec {i : Instr} (ho : s.ostate = .processing) (hd : decode s.fetch = .ok i)
    (h : exec i s = .next t) : StepsAlong s t more eos outq hostByte := by
  obtain ⟨u, u', hu, hu', bytes, happend, rfl⟩ := exec_movesAlong i s (s.inq ++ more) eos outq hostByte
  cases h.symm.trans hu
  obtain ⟨-, -, -, -, -, hinq, -⟩ := (writtenBy_of_exec h).keepsHostSide
  refine ⟨bytes, happend, ?_⟩
  rw [seqStep_of_decodes (s := s.withQueues (s.inq ++ more) eos outq hostByte) ho hd, hu', hinq]
  rfl

theorem StepsAlong.of_filling (ho : s.ostate = .filling) (hq : t.outq = s.outq)
    (h : fillingStep (s.withQueues (s.inq ++ more) eos outq hostByte) =
      .next (t.withQueues (t.inq ++ more) eos outq hostByte)) : StepsAlong s t more eos outq hostByte :=
  .of_kept hq ((seqStep_of_filling (s := s.withQueues (s.inq ++ more) eos outq hostByte) ho).trans h)

/-- SEQ does not see a host's move, as long as nothing follows the end mark (45_sequencer.md R215, R236). -/
theorem seqStep_stepsAlong (h : seqStep s = .next t) (hend : s.eos = true → more = [] ∧ eos = true) :
    StepsAlong s t more eos outq hostByte := by
  cases seqStep_effect h with
  | enter ho hf => exact .of_filling ho rfl (fillingStep_of_full hf)
  | forced ho hf he => exact .of_filling ho rfl (fillingStep_of_forced hf he)
  | take b rest ho hf he hi =>
    have front : s.inq ++ more = b :: (rest ++ more) := congrArg (· ++ more) hi
    refine .of_filling ho rfl ?_
    exact fillingStep_of_input (s := s.withQueues (s.inq ++ more) eos outq hostByte) hf he front
  | exhausted ho hf he hi hs =>
    obtain ⟨rfl, heos⟩ := hend hs
    have empty : s.inq ++ [] = [] := congrArg (· ++ []) hi
    exact .of_filling ho rfl (fillingStep_of_exhausted hf he empty heos)
  | illegal ho e hd =>
    refine .of_kept rfl ((seqStep_of_processing (s := s.withQueues (s.inq ++ more) eos outq hostByte) ho).trans ?_)
    exact processingStep_of_illegal hd
  | micro ho i _ hd hx => exact stepsAlong_of_exec ho hd hx
  | drain ho =>
    obtain ⟨-, hinq, houtq⟩ := drainingStep_queues s
    refine .of_kept houtq ((seqStep_of_draining (s := s.withQueues (s.inq ++ more) eos outq hostByte) ho).trans ?_)
    rw [drainingStep_withQueues, hinq]

/-- SEQ never touches what the host received. -/
theorem seqStep_hostByte (h : seqStep s = .next t) : t.hostByte = s.hostByte := by
  cases seqStep_effect h with
  | enter | forced | take | exhausted | illegal => rfl
  | micro _ _ _ _ hx =>
    obtain ⟨-, -, -, -, -, -, -, -, -, hbyte⟩ := (writtenBy_of_exec hx).keepsHostSide
    exact hbyte
  | drain =>
    unfold drainingStep
    split <;> rfl

theorem ostate_ne_idle_of_seqStep (h : seqStep s = .next t) : s.ostate ≠ .idle := by
  intro ho
  rw [seqStep_of_idle ho] at h
  cases h

/-- Only reset leads back to IDLE (45_sequencer.md R216). -/
theorem seqStep_ostate_ne_idle (h : seqStep s = .next t) : t.ostate ≠ .idle := by
  have kept {u : State} (hu : u.ostate = s.ostate) : u.ostate ≠ .idle := hu ▸ ostate_ne_idle_of_seqStep h
  cases seqStep_effect h with
  | enter | forced | exhausted | illegal => exact nofun
  | take => exact kept rfl
  | micro _ _ _ _ _ e =>
    cases e with
    | raised | endBlock => exact nofun
    | real | complex | stream | output | report | jump => exact kept rfl
  | drain =>
    unfold drainingStep
    split <;> exact nofun

end

/-! ## The actions -/

section
variable {s s' t : State}

theorem pushByte_commutes {b : Byte} (ha : hostStep (.pushByte b) s = .next s') (h : seqStep s = .next t) :
    ∃ u, seqStep s' = .next u ∧ hostStep (.pushByte b) t = .next u := by
  have heos := seqStep_eos h
  cases he : s.eos with
  | true => rw [hostStep_pushByte_of_eos he] at ha; cases ha
  | false =>
    rw [hostStep_pushByte he] at ha
    cases ha
    obtain ⟨bytes, houtq, hstep⟩ := seqStep_stepsAlong (more := [b]) (eos := s.eos) (outq := s.outq)
      (hostByte := s.hostByte) h (by simp [he])
    refine ⟨_, hstep, ?_⟩
    rw [hostStep_pushByte (heos.trans he), ← houtq, ← heos, ← seqStep_hostByte h]
    rfl

theorem setEos_commutes (ha : hostStep .setEos s = .next s') (h : seqStep s = .next t) :
    ∃ u, seqStep s' = .next u ∧ hostStep .setEos t = .next u := by
  have heos := seqStep_eos h
  cases he : s.eos with
  | true => rw [hostStep_setEos_of_eos he] at ha; cases ha
  | false =>
    rw [hostStep_setEos he] at ha
    cases ha
    obtain ⟨bytes, houtq, hstep⟩ := seqStep_stepsAlong (more := []) (eos := true) (outq := s.outq)
      (hostByte := s.hostByte) h (by simp [he])
    rw [List.append_nil, List.append_nil] at hstep
    refine ⟨_, hstep, ?_⟩
    rw [hostStep_setEos (heos.trans he), ← houtq, ← seqStep_hostByte h]
    rfl

theorem takeByte_commutes (ha : hostStep .takeByte s = .next s') (h : seqStep s = .next t) :
    ∃ u, seqStep s' = .next u ∧ hostStep .takeByte t = .next u := by
  cases hq : s.outq with
  | nil => rw [hostStep_takeByte_of_empty hq] at ha; cases ha
  | cons b rest =>
    rw [hostStep_takeByte hq] at ha
    cases ha
    obtain ⟨bytes, houtq, hstep⟩ := seqStep_stepsAlong (more := []) (eos := s.eos) (outq := rest)
      (hostByte := some b) h (by simp)
    rw [List.append_nil, List.append_nil] at hstep
    rw [hq, List.cons_append] at houtq
    refine ⟨_, hstep, ?_⟩
    rw [hostStep_takeByte houtq, ← seqStep_eos h]
    rfl

/-- Register writes act in IDLE only, where SEQ has no step and where none leads (R216). -/
theorem memWrite_commutes {addr width : Nat} {v : Word} (ha : hostStep (.memWrite addr width v) s = .next s')
    (h : seqStep s = .next t) : ∃ u, seqStep s' = .next u ∧ hostStep (.memWrite addr width v) t = .next u := by
  rw [hostStep, writeReg_of_not_idle v (ostate_ne_idle_of_seqStep h)] at ha
  rw [hostStep, writeReg_of_not_idle v (seqStep_ostate_ne_idle h)]
  split at ha <;> cases ha
  exact ⟨t, h, if_pos (by assumption)⟩

end

/-- Settles O14: each action that is offered moves the host's side only, or nothing. -/
theorem hostActionsCommuteWithSeqSteps : Obligations.HostActionsCommuteWithSeqSteps := by
  intro a s s' t hreset hread ha h
  cases a with
  | memRead addr width => exact absurd rfl (hread addr width)
  | memWrite addr width v => exact memWrite_commutes ha h
  | pushByte b => exact pushByte_commutes ha h
  | setEos => exact setEos_commutes ha h
  | takeByte => exact takeByte_commutes ha h
  | assertReset => exact absurd rfl hreset

end Sys2Proof.Machine
end
